-- ==== Sys2Proof/Word.lean ====
section
/-! DEFINITION. The widths the spec writes values in (spec/00_scope.md R6, spec/10_state.md R20): bytes,
16-bit wire words, 32-bit command words and registers. -/

namespace Sys2Proof

/-- A byte of a frame, or an operand byte of a command word (R6, R84). -/
abbrev Byte := BitVec 8

/-- A 16-bit quantity: SUM16 and a cell voltage CV[i] (R20). -/
abbrev Half := BitVec 16

/-- A 32-bit command word, result register or response data (R20, R80, R82). -/
abbrev Word := BitVec 32

end Sys2Proof
end

