-- ==== Sys2Proof/Syntax.lean ====
section
/-! DEFINITION. The 30 operations of the unit (spec/30_encoding.md R86), one constructor per row of the opcode table, with
the operands R85 gives each format. -/

namespace Sys2Proof

/-- The operand `act` of ENC.B: 0 Read, 1 Write (R87, R138). -/
inductive WireAction where
  | read
  | write
  deriving DecidableEq, Repr

/-- One command word, decoded. Operand bytes are bytes; an operand narrower than its field, or wider than a byte, is a number
that WellFormed bounds ("Every operand is an unsigned integer taken directly from its bits", R87). -/
inductive Instr where
  -- family 0x0_: buffer, register access, reset (spec/40_buffer_ops.md)
  | nop
  | clr
  | push (byte : Byte)
  | rdb (idx : Nat)
  | rdr (n : Byte)
  | srst
  -- family 0x1_: checksum accumulator (spec/41_checksum_acc.md)
  | aclr
  | aadd (byte : Byte)
  -- family 0x2_: frame check and build (spec/42_frame_codec.md)
  | chkA
  | chkB
  | encA (addr cmd : Byte)
  | encB (act : WireAction) (reg : Byte)
  -- family 0x3_: vendor-A decode (spec/43_decode_vendor_a.md)
  | daVis
  | daMmv
  | daMmt
  | daStat
  | daCellv (k : Nat)
  | daCellt (k : Nat)
  | daBal
  | daFail
  | daMos
  -- family 0x4_: vendor-B decode (spec/44_decode_vendor_b.md)
  | dbHw
  | dbCell
  -- family 0x5_: field and flag extraction (spec/45_field_extract.md)
  | xu8 (off : Byte)
  | xs8 (off : Byte)
  | xu16 (off : Byte)
  | xs16 (off : Byte)
  | xbit (off : Byte) (bit : Nat)
  | xbit16 (off : Byte) (bit : Nat)
  | xk16 (off : Byte)
  deriving DecidableEq, Repr

/-- The mnemonic column of R86. -/
def Instr.mnemonic : Instr → String
  | .nop => "NOP"
  | .clr => "CLR"
  | .push _ => "PUSH"
  | .rdb _ => "RDB"
  | .rdr _ => "RDR"
  | .srst => "SRST"
  | .aclr => "ACLR"
  | .aadd _ => "AADD"
  | .chkA => "CHK.A"
  | .chkB => "CHK.B"
  | .encA _ _ => "ENC.A"
  | .encB _ _ => "ENC.B"
  | .daVis => "DA.VIS"
  | .daMmv => "DA.MMV"
  | .daMmt => "DA.MMT"
  | .daStat => "DA.STAT"
  | .daCellv _ => "DA.CELLV"
  | .daCellt _ => "DA.CELLT"
  | .daBal => "DA.BAL"
  | .daFail => "DA.FAIL"
  | .daMos => "DA.MOS"
  | .dbHw => "DB.HW"
  | .dbCell => "DB.CELL"
  | .xu8 _ => "XU8"
  | .xs8 _ => "XS8"
  | .xu16 _ => "XU16"
  | .xs16 _ => "XS16"
  | .xbit _ _ => "XBIT"
  | .xbit16 _ _ => "XBIT16"
  | .xk16 _ => "XK16"

/-- The operands of a line of R91, in R85's order. -/
def Instr.operands : Instr → List Nat
  | .push b | .aadd b | .rdr b => [b.toNat]
  | .rdb idx => [idx]
  | .encA addr cmd => [addr.toNat, cmd.toNat]
  | .encB .read reg => [0, reg.toNat]
  | .encB .write reg => [1, reg.toNat]
  | .daCellv k | .daCellt k => [k]
  | .xu8 off | .xs8 off | .xu16 off | .xs16 off | .xk16 off => [off.toNat]
  | .xbit off k | .xbit16 off k => [off.toNat, k]
  | .nop | .clr | .srst | .aclr | .chkA | .chkB | .daVis | .daMmv | .daMmt | .daStat | .daBal | .daFail | .daMos
  | .dbHw | .dbCell => []

/-- The assembler line of R91, operands in decimal: `MNEMONIC`, `MNEMONIC operand` or `MNEMONIC operand, operand`
(log entry 12). -/
def Instr.text (i : Instr) : String :=
  match i.operands with
  | [] => i.mnemonic
  | ops => i.mnemonic ++ " " ++ String.intercalate ", " (ops.map toString)

/-- The pseudo-instruction `FRAME b0 b1 …` of R92. -/
def pseudoFrame (bytes : List Byte) : List Instr := .clr :: bytes.map .push

/-- The pseudo-instruction `ACC b0 b1 …` of R92. -/
def pseudoAcc (bytes : List Byte) : List Instr := .aclr :: bytes.map .aadd

/-- The pseudo-instruction `RESET` of R92. -/
def pseudoReset : List Instr := [.srst]

end Sys2Proof
end

