-- ==== Sys2Proof/WellFormed.lean ====
section
/-! DEFINITION. Which terms of Instr a command word can express: the operand bounds of spec/30_encoding.md R85 and R88. -/

namespace Sys2Proof

/-- The operand bounds: `idx` of RDB is word[8:0], 0..511; slot k of DA.CELLV is c[3:0], of DA.CELLT c[1:0]; the bit number of
XBIT is c[2:0], of XBIT16 c[3:0] (R85, R88). Every other operand is a whole byte or one bit and needs no check. -/
def Instr.wellFormed : Instr → Bool
  | .rdb idx => decide (idx < 512)
  | .daCellv k => decide (k < 16)
  | .daCellt k => decide (k < 4)
  | .xbit _ k => decide (k < 8)
  | .xbit16 _ k => decide (k < 16)
  | .nop | .clr | .push _ | .rdr _ | .srst | .aclr | .aadd _ | .chkA | .chkB | .encA _ _ | .encB _ _
  | .daVis | .daMmv | .daMmt | .daStat | .daBal | .daFail | .daMos | .dbHw | .dbCell
  | .xu8 _ | .xs8 _ | .xu16 _ | .xs16 _ | .xk16 _ => true

end Sys2Proof
end

