-- ==== Sys2Proof/Decode.lean ====
section
/-! DEFINITION. From a command word to an operation or a named rejection, total on all 2^32 words (spec/30_encoding.md R84 to
R88, R93), and the encoder written from the same tables. -/

namespace Sys2Proof

/-- The four fields of a command word (R84). -/
structure Fields where
  /-- bits 31:24 -/
  op : Byte
  /-- bits 23:16 -/
  a : Byte
  /-- bits 15:8 -/
  b : Byte
  /-- bits 7:0 -/
  c : Byte
  deriving DecidableEq, Repr

/-- The fields of a word (R84). -/
def Fields.split (w : Word) : Fields where
  op := w.extractLsb' 24 8
  a := w.extractLsb' 16 8
  b := w.extractLsb' 8 8
  c := w.extractLsb' 0 8

/-- The word of four fields, `op << 24 | a << 16 | b << 8 | c` (R84, R91). -/
def Fields.join (f : Fields) : Word := f.op ++ f.a ++ f.b ++ f.c

/-- Why a word is illegal (R88). -/
inductive Illegal where
  /-- `op` is not one of the 30 opcodes of R86. -/
  | unassignedOp (op : Byte)
  /-- `op` is defined but a bit its format requires to be zero is 1. -/
  | mustBeZero (op : Byte)
  deriving DecidableEq, Repr

/-- The instruction, if the bits its format leaves unused are zero (R85, R88). -/
def Fields.require (f : Fields) (unusedZero : Bool) (i : Instr) : Except Illegal Instr :=
  if unusedZero then .ok i else .error (.mustBeZero f.op)

/-- Format N: a, b and c unused. -/
def Fields.formatN (f : Fields) (i : Instr) : Except Illegal Instr :=
  f.require (decide (f.a = 0 ∧ f.b = 0 ∧ f.c = 0)) i

/-- Format C: c a whole byte. -/
def Fields.formatC (f : Fields) (i : Byte → Instr) : Except Illegal Instr :=
  f.require (decide (f.a = 0 ∧ f.b = 0)) (i f.c)

/-- Format C with a slot number in the low bits of c, `limit` slots. -/
def Fields.formatSlot (f : Fields) (limit : Nat) (i : Nat → Instr) : Except Illegal Instr :=
  f.require (decide (f.a = 0 ∧ f.b = 0 ∧ f.c.toNat < limit)) (i f.c.toNat)

/-- Format X: word[8:0]. -/
def Fields.formatX (f : Fields) (i : Nat → Instr) : Except Illegal Instr :=
  f.require (decide (f.a = 0 ∧ f.b.toNat < 2)) (i (f.b.toNat * 256 + f.c.toNat))

/-- Format AB: a and b. -/
def Fields.formatAB (f : Fields) (i : Byte → Byte → Instr) : Except Illegal Instr :=
  f.require (decide (f.c = 0)) (i f.a f.b)

/-- Format AB of ENC.B: a[0] = act, a[7:1] = 0. -/
def Fields.formatActB (f : Fields) (i : WireAction → Byte → Instr) : Except Illegal Instr :=
  f.require (decide (f.c = 0 ∧ f.a.toNat < 2)) (i (if f.a = 0 then .read else .write) f.b)

/-- Format AO: a a payload offset. -/
def Fields.formatAO (f : Fields) (i : Byte → Instr) : Except Illegal Instr :=
  f.require (decide (f.b = 0 ∧ f.c = 0)) (i f.a)

/-- Format AOC: a a payload offset, c a bit number below `limit`. -/
def Fields.formatAOC (f : Fields) (limit : Nat) (i : Byte → Nat → Instr) : Except Illegal Instr :=
  f.require (decide (f.b = 0 ∧ f.c.toNat < limit)) (i f.a f.c.toNat)

/-- The operation map of R86, by opcode and format. -/
def Fields.decode (f : Fields) : Except Illegal Instr :=
  match f.op.toNat with
  | 0x00 => f.formatN .nop
  | 0x01 => f.formatN .clr
  | 0x02 => f.formatC .push
  | 0x03 => f.formatX .rdb
  | 0x04 => f.formatC .rdr
  | 0x05 => f.formatN .srst
  | 0x10 => f.formatN .aclr
  | 0x11 => f.formatC .aadd
  | 0x20 => f.formatN .chkA
  | 0x21 => f.formatN .chkB
  | 0x22 => f.formatAB .encA
  | 0x23 => f.formatActB .encB
  | 0x30 => f.formatN .daVis
  | 0x31 => f.formatN .daMmv
  | 0x32 => f.formatN .daMmt
  | 0x33 => f.formatN .daStat
  | 0x34 => f.formatSlot 16 .daCellv
  | 0x35 => f.formatSlot 4 .daCellt
  | 0x36 => f.formatN .daBal
  | 0x37 => f.formatN .daFail
  | 0x38 => f.formatN .daMos
  | 0x40 => f.formatN .dbHw
  | 0x41 => f.formatN .dbCell
  | 0x50 => f.formatAO .xu8
  | 0x51 => f.formatAO .xs8
  | 0x52 => f.formatAO .xu16
  | 0x53 => f.formatAO .xs16
  | 0x54 => f.formatAOC 8 .xbit
  | 0x55 => f.formatAOC 16 .xbit16
  | 0x56 => f.formatAO .xk16
  | _ => .error (.unassignedOp f.op)

/-- R93: the operation a word encodes, or why it encodes none. -/
def decode (w : Word) : Except Illegal Instr := (Fields.split w).decode

/-- The fields of an instruction (R85, R86; unused fields 0). -/
def encodeFields : Instr → Fields
  | .nop => ⟨0x00, 0, 0, 0⟩
  | .clr => ⟨0x01, 0, 0, 0⟩
  | .push byte => ⟨0x02, 0, 0, byte⟩
  | .rdb idx => ⟨0x03, 0, BitVec.ofNat 8 (idx / 256), BitVec.ofNat 8 (idx % 256)⟩
  | .rdr n => ⟨0x04, 0, 0, n⟩
  | .srst => ⟨0x05, 0, 0, 0⟩
  | .aclr => ⟨0x10, 0, 0, 0⟩
  | .aadd byte => ⟨0x11, 0, 0, byte⟩
  | .chkA => ⟨0x20, 0, 0, 0⟩
  | .chkB => ⟨0x21, 0, 0, 0⟩
  | .encA addr cmd => ⟨0x22, addr, cmd, 0⟩
  | .encB .read reg => ⟨0x23, 0, reg, 0⟩
  | .encB .write reg => ⟨0x23, 1, reg, 0⟩
  | .daVis => ⟨0x30, 0, 0, 0⟩
  | .daMmv => ⟨0x31, 0, 0, 0⟩
  | .daMmt => ⟨0x32, 0, 0, 0⟩
  | .daStat => ⟨0x33, 0, 0, 0⟩
  | .daCellv k => ⟨0x34, 0, 0, BitVec.ofNat 8 k⟩
  | .daCellt k => ⟨0x35, 0, 0, BitVec.ofNat 8 k⟩
  | .daBal => ⟨0x36, 0, 0, 0⟩
  | .daFail => ⟨0x37, 0, 0, 0⟩
  | .daMos => ⟨0x38, 0, 0, 0⟩
  | .dbHw => ⟨0x40, 0, 0, 0⟩
  | .dbCell => ⟨0x41, 0, 0, 0⟩
  | .xu8 off => ⟨0x50, off, 0, 0⟩
  | .xs8 off => ⟨0x51, off, 0, 0⟩
  | .xu16 off => ⟨0x52, off, 0, 0⟩
  | .xs16 off => ⟨0x53, off, 0, 0⟩
  | .xbit off bit => ⟨0x54, off, 0, BitVec.ofNat 8 bit⟩
  | .xbit16 off bit => ⟨0x55, off, 0, BitVec.ofNat 8 bit⟩
  | .xk16 off => ⟨0x56, off, 0, 0⟩

/-- The command word of an instruction (R91). -/
def encode (i : Instr) : Word := (encodeFields i).join

/-- The command word whose table bits are `w`: a word has one length, 32 bits (R84, R90), and the bits above `nbits` are 0
(log entry 11). -/
def tableWord (nbits w : Nat) : Word := BitVec.ofNat 32 (w % 2 ^ nbits)

/-- The instruction the decoder reads from a word numbered as the opcode table numbers it. -/
def decodeTableWord (nbits w : Nat) : Option Instr := (decode (tableWord nbits w)).toOption

/-- The register names RDR accepts in place of a number (R91, R40), scalar registers. -/
def scalarRegisterNames : List (String × Nat) :=
  [("STATUS", 0x00), ("ERR", 0x01), ("FCODE", 0x02), ("WP", 0x03), ("SUM8", 0x04), ("SUM16", 0x05), ("NCRC", 0x06),
    ("PBASE", 0x07), ("PLEN", 0x08), ("FREG", 0x09), ("XR", 0x0A)]
  ++ [("VPACK", 0x10), ("IPACK", 0x11), ("SOC", 0x12), ("CAP", 0x13), ("CELLCNT", 0x14), ("TEMPCNT", 0x15), ("VMAX", 0x16),
    ("VMAXIDX", 0x17), ("VMIN", 0x18), ("VMINIDX", 0x19), ("VDELTA", 0x1A), ("TMAX", 0x1B), ("TMIN", 0x1C),
    ("CHGFET", 0x1D), ("DSGFET", 0x1E), ("CHGSTATE", 0x1F), ("LOADSTATE", 0x20), ("CYCLES", 0x21), ("HEARTBEAT", 0x22),
    ("RESID", 0x23), ("BALMASK", 0x24), ("PROT", 0x25)]

/-- The number of ALM[g], of CV[i] and of T[i] (R40). -/
def almNumber (g : Nat) : Nat := 0x28 + g
def cvNumber (i : Nat) : Nat := 0x40 + i
def tNumber (i : Nat) : Nat := 0x70 + i

/-- The number RDR's operand stands for, given as a register name without index (R91). -/
def registerNumber (name : String) : Option Nat := (scalarRegisterNames.find? (fun p => p.1 == name)).map Prod.snd

end Sys2Proof
end

