-- ==== Sys2Proof/Config.lean ====
section
/-! DEFINITION. The parameters of the unit (spec/00_scope.md R5): the document's constants as fixed numbers, the parameters
marked OPEN (and SOC_A_MUL, BAL_A_OFF, ALM_A_OFF, which spec/92_eei_decisions.md lists with them) as ONE record a machine
carries, together with the proof that it is well formed. -/

namespace Sys2Proof
namespace Config

/-- BUF_CAP: bytes in the frame buffer (R5, R22). -/
def bufCap : Nat := 262
/-- A_FRAME_LEN: length of every vendor-A frame. -/
def aFrameLen : Nat := 13
/-- A_SUM_LEN: bytes the vendor-A checksum sums, FB[0..11]. -/
def aSumLen : Nat := 12
/-- A_START: byte 0 written by ENC.A. -/
def aStart : Byte := 0xA5
/-- A_MAX_PAYLOAD: most payload bytes ENC.A takes. -/
def aMaxPayload : Nat := 8
/-- B_START: vendor-B start byte. -/
def bStart : Byte := 0xDD
/-- B_END: vendor-B end byte. -/
def bEnd : Byte := 0x77
/-- B_OVERHEAD: vendor-B bytes that are not data. -/
def bOverhead : Nat := 7
/-- B_MAX_PAYLOAD: most data bytes in a vendor-B frame. -/
def bMaxPayload : Nat := 255
/-- MAX_CELLS: entries of CV and ceiling of CELLCNT. -/
def maxCells : Nat := 48
/-- MAX_TEMP_SENSORS: entries of T and ceiling of TEMPCNT. -/
def maxTempSensors : Nat := 16
/-- KELVIN_OFFSET: subtracted from vendor-B raw temperatures. -/
def kelvinOffset : Int := 2731

end Config

/-- The parameter record LayoutB of R5: payload offsets of vendor B's HWINFO fields and the two FET bit numbers. -/
structure LayoutB where
  offV : Nat
  offI : Nat
  offCap : Nat
  offBalLo : Nat
  offBalHi : Nat
  offProt : Nat
  offSoc : Nat
  offFet : Nat
  offCells : Nat
  offNtc : Nat
  offTemps : Nat
  hwFixed : Nat
  fetChgBit : Nat
  fetDsgBit : Nat
  deriving DecidableEq, Repr

/-- R5's own condition on a LayoutB record: "every fixed field lies inside the fixed part (for each 16-bit field
OFF + 2 ≤ HW_FIXED, for each 8-bit field OFF + 1 ≤ HW_FIXED), HW_FIXED ≤ OFF_TEMPS,
OFF_TEMPS + 2 × MAX_TEMP_SENSORS ≤ 255, and both FET bit numbers are in 0..7". -/
def LayoutB.wellFormed (l : LayoutB) : Bool :=
  [l.offV, l.offI, l.offCap, l.offBalLo, l.offBalHi, l.offProt].all (fun off => off + 2 ≤ l.hwFixed)
    && [l.offSoc, l.offFet, l.offCells, l.offNtc].all (fun off => off + 1 ≤ l.hwFixed)
    && decide (l.hwFixed ≤ l.offTemps)
    && decide (l.offTemps + 2 * Config.maxTempSensors ≤ 255)
    && decide (l.fetChgBit ≤ 7) && decide (l.fetDsgBit ≤ 7)

/-- The parameters the document leaves open, one field each (R5; spec/92_eei_decisions.md "Open parameters, collected").
LATENCY is read by no rule (R262) and is left out. -/
structure ParamValues where
  /-- B_ACT_READ: action byte for Read. -/
  bActRead : Byte
  /-- B_ACT_WRITE: action byte for Write. -/
  bActWrite : Byte
  /-- A_PAYLOAD_OFF: frame index where ENC.A puts the first payload byte. -/
  aPayloadOff : Nat
  /-- SOC_A_MUL: multiplier taking vendor-A raw SOC to 0.01 %. -/
  socAMul : Nat
  /-- CELLV_A_OFF: frame index of the first of the three voltages of a CELL_VOLTAGES frame. -/
  cellvAOff : Nat
  /-- CELLT_A_OFF: frame index of the first of the seven temperatures of a CELL_TEMPERATURE frame. -/
  celltAOff : Nat
  /-- BAL_A_OFF: frame index of the first byte of vendor A's balance mask. -/
  balAOff : Nat
  /-- ALM_A_OFF: frame index of the first of vendor A's 7 alarm bytes. -/
  almAOff : Nat
  /-- LayoutB: the vendor-B payload layout. -/
  layoutB : LayoutB
  deriving DecidableEq, Repr

/-- `len` bytes at frame index `off` lie in vendor A's data bytes 4..11: "Every field of every vendor-A command lies in frame
bytes 4..11" (R171). -/
def inVendorAData (off len : Nat) : Bool := decide (4 ≤ off) && decide (off + len ≤ Config.aSumLen)

/-- A parameter record the rules are written for: LayoutB as R5 says; the vendor-A offsets keep their fields inside the
data bytes (DEDUCED from R171, R67: log entry 4); SOC_A_MUL keeps SOC in the range R37 gives it, 0..655,350 (DEDUCED: log
entry 4). -/
def ParamValues.wellFormed (p : ParamValues) : Bool :=
  p.layoutB.wellFormed
    && inVendorAData p.aPayloadOff 1
    && inVendorAData p.cellvAOff 6 && inVendorAData p.celltAOff 7
    && inVendorAData p.balAOff 4 && inVendorAData p.almAOff 7
    && decide (1 ≤ p.socAMul) && decide (p.socAMul ≤ 10)

/-- The parameters of one unit. An ill-formed record cannot be built: R5, "a model refuses any other". -/
structure Params extends ParamValues where
  wf : toParamValues.wellFormed = true
  deriving DecidableEq, Repr

/-- The value column of R5 for LayoutB. -/
def LayoutB.default : LayoutB where
  offV := 0
  offI := 2
  offCap := 6
  offBalLo := 12
  offBalHi := 14
  offProt := 16
  offSoc := 19
  offFet := 20
  offCells := 21
  offNtc := 22
  offTemps := 23
  hwFixed := 23
  fetChgBit := 0
  fetDsgBit := 1

/-- The value column of R5: the parameters of every test vector of the spec. -/
def Params.default : Params where
  bActRead := 0xA5
  bActWrite := 0x5A
  aPayloadOff := 4
  socAMul := 1
  cellvAOff := 5
  celltAOff := 5
  balAOff := 4
  almAOff := 4
  layoutB := LayoutB.default
  wf := by decide

end Sys2Proof
end

