-- ==== Sys2Proof/Machine/State.lean ====
section
/-! DEFINITION. The state of one FCD unit (spec/10_state.md R20), and around it the parameters it was built with, the host's
words still to come and the response port; the state after reset (R42, R250). -/

namespace Sys2Proof
namespace Machine

/-- The frame buffer FB as a list of (index, byte), indices strictly rising (R22, R60). An index not listed holds a byte that
was never received: it has no value (R22; log entry 8). -/
abbrev Memory := List Host.Cell

/-- The two wire formats, as VK names them (R25). -/
inductive Vendor where
  /-- vendor A ("Daly"): set by CHK.A -/
  | vendorA
  /-- vendor B ("JBD"): set by CHK.B -/
  | vendorB
  deriving DecidableEq, Repr

/-- The values of ERR (R28, R221). -/
inductive Err where
  | ok
  | badStart
  | badEnd
  | lengthMismatch
  | checksumMismatch
  | crcMismatch
  | truncated
  deriving DecidableEq, Repr

/-- The causes FCODE can hold (R27, R225). -/
inductive Cause where
  | illegalOp
  | notValidated
  | vendorMismatch
  | bufferOverflow
  | badIndex
  | badRegister
  | payloadTooLong
  deriving DecidableEq, Repr

/-- The 22 scalar result registers (R37), 32 bits each; a signed one holds its two's-complement pattern. -/
@[ext]
structure Results where
  vpack : Word
  ipack : Word
  soc : Word
  cap : Word
  cellcnt : Word
  tempcnt : Word
  vmax : Word
  vmaxidx : Word
  vmin : Word
  vminidx : Word
  vdelta : Word
  tmax : Word
  tmin : Word
  chgfet : Word
  dsgfet : Word
  chgstate : Word
  loadstate : Word
  cycles : Word
  heartbeat : Word
  resid : Word
  balmask : Word
  prot : Word
  deriving DecidableEq, Repr

/-- "The whole state of the FCD unit is the following, and nothing else" (R20). STATUS and NCRC are derived (R34, R36).
The counters and indices WP, PBASE and PLEN are numbers whose bounds are invariants (DESIGN CHOICE: log entry 13). -/
@[ext]
structure Fcd where
  /-- FB: the frame buffer -/
  fb : Memory
  /-- WP: number of bytes in FB (R23) -/
  wp : Nat
  /-- VALID (R24) -/
  valid : Bool
  /-- VK; `none` is the spec's None (R25) -/
  vk : Option Vendor
  /-- PBASE (R30) -/
  pbase : Nat
  /-- PLEN (R31) -/
  plen : Nat
  /-- FREG (R29) -/
  freg : Byte
  /-- ERR (R28) -/
  err : Err
  /-- FAULT (R26) -/
  fault : Bool
  /-- FCODE; `none` is code 0, None (R27) -/
  fcode : Option Cause
  /-- SUM8 (R32) -/
  sum8 : Byte
  /-- SUM16 (R33) -/
  sum16 : Half
  /-- XR, signed (R35) -/
  xr : Word
  /-- the 22 scalar result registers (R37) -/
  res : Results
  /-- ALM[0..6] (R38) -/
  alm : Vector Byte 7
  /-- CV[0..47], mV, unsigned (R39) -/
  cv : Vector Half 48
  /-- T[0..15], 0.1 °C, signed (R39) -/
  t : Vector Word 16
  deriving DecidableEq, Repr

/-- The response to a command word (R82). -/
structure Response where
  fault : Bool
  err : Err
  data : Word
  deriving DecidableEq, Repr

/-- What the host does next: present a command word (R80), or assert `rst_n` between two transactions (R83, R250). -/
inductive HostEvent where
  | command (w : Word)
  | resetPin
  deriving DecidableEq, Repr

/-- A unit with its surroundings. `fcd` is the unit's own state (R20). The other three fields are the model's: the parameters
the unit was built with (R5), which no step changes; the host's events still to come, oldest first (R21: the host's list is
not state of the unit; log entry 1); the response port, `none` until the first word since reset is answered (R80; log entry 2). -/
@[ext]
structure State where
  params : Params
  fcd : Fcd
  inbox : List HostEvent
  rsp : Option Response
  deriving DecidableEq, Repr

/-- What stops a run. -/
inductive Fault where
  /-- Raised by any operation that would read FB[i] where no byte was received, that is at or beyond WP or at an index never
  written: "No rule reads FB[i] with i ≥ WP" (R7). No state that meets Fcd.Inv raises it. Safe (log entry 9). -/
  | unreceivedByte
  deriving DecidableEq, Repr

/-- What the model has no meaning for. -/
inductive Refusal where
  /-- Raised by exec's arm of an instruction that has no meaning yet. Safe. No arm raises it now. -/
  | notModelled (mnemonic : String)
  deriving DecidableEq, Repr

/-- The result registers after reset: "all 22 scalar result registers | 0" (R42). -/
def Results.reset : Results where
  vpack := 0
  ipack := 0
  soc := 0
  cap := 0
  cellcnt := 0
  tempcnt := 0
  vmax := 0
  vmaxidx := 0
  vmin := 0
  vminidx := 0
  vdelta := 0
  tmax := 0
  tmin := 0
  chgfet := 0
  dsgfet := 0
  chgstate := 0
  loadstate := 0
  cycles := 0
  heartbeat := 0
  resid := 0
  balmask := 0
  prot := 0

/-- The unit after reset (R42). FB[i] is "unspecified, and unobservable because WP = 0": no byte is listed
(log entry 8). -/
def Fcd.reset : Fcd where
  fb := []
  wp := 0
  valid := false
  vk := none
  pbase := 0
  plen := 0
  freg := 0
  err := .ok
  fault := false
  fcode := none
  sum8 := 0
  sum16 := 0
  xr := 0
  res := Results.reset
  alm := Vector.replicate 7 0
  cv := Vector.replicate 48 0
  t := Vector.replicate 16 0

/-- A unit built with parameters `p`, after reset, no word presented and no response given. -/
def State.resetWith (p : Params) : State where
  params := p
  fcd := Fcd.reset
  inbox := []
  rsp := none

/-- The machine right after reset, with the value column of R5 as its parameters (log entry 3). -/
def State.reset : State := State.resetWith Params.default

end Machine
end Sys2Proof
end

