-- ==== Sys2Proof/Machine/Ops.lean ====
section
/-! DEFINITION. The shared operations: the frame buffer's bytes (spec/20_memory.md R60 to R67), how an operation ends (R7, R82),
raising a fault (spec/60_exceptions.md R226) and leaving it by reset (R229, R250), the common prelude (R227). -/

namespace Sys2Proof
namespace Machine

/-! ### The frame buffer -/

/-- The byte at an index, `none` where no byte was received. -/
def Memory.read : Memory → Nat → Option Byte
  | [], _ => none
  | (k, v) :: m, a => if k = a then some v else Memory.read m a

/-- Store one byte, keeping the indices strictly rising. -/
def Memory.write : Memory → Nat → Byte → Memory
  | [], a, v => [(a, v)]
  | (k, x) :: m, a, v =>
    if a < k then (a, v) :: (k, x) :: m
    else if a = k then (a, v) :: m
    else (k, x) :: Memory.write m a v

/-- Store bytes at rising indices from `a`. -/
def Memory.writeList (m : Memory) (a : Nat) : List Byte → Memory
  | [] => m
  | v :: vs => Memory.writeList (m.write a v) (a + 1) vs

/-- Indices strictly rising from `lo`, all below BUF_CAP. -/
def Memory.wfFrom (lo : Nat) : Memory → Bool
  | [] => true
  | (k, _) :: m => decide (lo ≤ k) && decide (k < Config.bufCap) && Memory.wfFrom (k + 1) m

/-- The canonical form: indices strictly rising inside 0..BUF_CAP−1. An unlisted index reads as no value, so no entry can
equal what an unlisted index reads as. -/
def Memory.wf (m : Memory) : Bool := Memory.wfFrom 0 m

/-- FB[i], "defined only for 0 ≤ i < WP" (R7, R22). -/
def Fcd.byte? (f : Fcd) (i : Nat) : Option Byte := if i < f.wp then f.fb.read i else none

/-- FB[i .. i+n−1]. -/
def Fcd.bytes? (f : Fcd) (i : Nat) : Nat → Option (List Byte)
  | 0 => some []
  | n + 1 =>
    match f.byte? i, f.bytes? (i + 1) n with
    | some b, some bs => some (b :: bs)
    | _, _ => none

/-! ### How an operation ends -/

/-- What an operation's own rule asks for, after the common prelude. -/
inductive Effect where
  /-- the unit's next state and the response's data -/
  | done (f : Fcd) (data : Word)
  /-- `raise Fault(cause)` -/
  | raise (c : Cause)
  /-- a byte is needed that was never received -/
  | unreceived

/-- `result code`: ERR takes the code, the response carries no data (R7, R82). -/
def Fcd.result (f : Fcd) (e : Err) : Effect := .done { f with err := e } 0

/-- Go on with a value read from the buffer. -/
def reading {α : Type} (value : Option α) (next : α → Effect) : Effect :=
  match value with
  | some v => next v
  | none => .unreceived

/-- What a step of this machine answers. -/
abbrev Answer := Host.Outcome State Fault Refusal

/-- The state after a transaction that leaves the unit as `f`: the response's `fault` and `err` are those of the state after
the operation, and its data is `data` (R82). -/
def State.answer (s : State) (f : Fcd) (data : Word) : State :=
  { s with fcd := f, rsp := some { fault := f.fault, err := f.err, data := data } }

/-! ### Faults -/

/-- `raise Fault(cause)` on the unit: "If FAULT = 0: FAULT <- 1 ; FCODE <- cause. If FAULT is already 1: nothing" (R226). -/
def Fcd.raise (f : Fcd) (c : Cause) : Fcd := if f.fault then f else { f with fault := true, fcode := some c }

/-- Taking a fault: the two fault fields and a response without data, nothing else (R226). The halted unit is a next state, as
R226 and R227 describe it (log entry 10). -/
def State.raiseFault (s : State) (c : Cause) : State := s.answer (s.fcd.raise c) 0

/-- Leaving the halted state: every element of the unit takes its reset value (R107, R229, R250). -/
def State.resetUnit (s : State) : State := { s with fcd := Fcd.reset }

/-! ### The common prelude -/

/-- Carry out an effect. -/
def State.settle (s : State) : Effect → Answer
  | .done f data => .next (s.answer f data)
  | .raise c => .next (s.raiseFault c)
  | .unreceived => .fault .unreceivedByte

/-- An operation that is performed also while the unit is halted: NOP, RDR, SRST (R227). -/
def State.performAlways (s : State) (op : Fcd → Effect) : Answer := s.settle (op s.fcd)

/-- Any other operation: refused without effect while FAULT = 1 (R227). -/
def State.perform (s : State) (op : Fcd → Effect) : Answer :=
  if s.fcd.fault then .next (s.answer s.fcd 0) else s.settle (op s.fcd)

/-! ### The command port -/

/-- The host presents nothing: "The unit steps only when the host presents a word" (R236; log entry 5). -/
def State.quiescent (s : State) : Answer := .next s

/-- A word that matches no row of R86 raises IllegalOp, also while halted (R88, R227). -/
def State.illegalWord (s : State) : State := s.raiseFault .illegalOp

/-- `rst_n` asserted between two transactions: the unit is reset; no response is owed (R250, R251; log entry 6). -/
def State.pinReset (s : State) : State := { s.resetUnit with rsp := none }

end Machine
end Sys2Proof
end

