-- ==== Sys2Proof/Machine/Operands.lean ====
section
/-! DEFINITION. The operand forms: the pseudocode primitives of spec/00_scope.md R7 over the frame and over the payload window,
the integer laws R8 to R13, the byte sums, and the array writes. Values are computed as unbounded integers and narrowed to a
register's width at the end (R8). -/

namespace Sys2Proof
namespace Machine

/-! ### Integers -/

/-- `sext_N(v)`: "v when v < 2^(N−1), else v − 2^N" (R7, R12). -/
def sext (n v : Nat) : Int := if v < 2 ^ (n - 1) then (v : Int) else (v : Int) - 2 ^ n

/-- `bit(v, k) = v[k:k]`, 0 or 1 (R7). -/
def bit (v k : Nat) : Nat := v / 2 ^ k % 2

/-- `T = sext_16(raw) − 2731`: a tenths-of-kelvin word in 0.1 °C (R181, R207). -/
def tenthsCelsius (raw : Nat) : Int := sext 16 raw - Config.kelvinOffset

/-- `clip(v, M) = min(v, M)` (R13). -/
def clip (v ceiling : Nat) : Nat := min v ceiling

/-- An unsigned value in a 32-bit register. -/
def unsigned (v : Nat) : Word := BitVec.ofNat 32 v

/-- A signed value in a 32-bit register, as its two's-complement pattern (R37, R40). -/
def signed (v : Int) : Word := BitVec.ofInt 32 v

/-! ### Byte sums -/

/-- b₀ + … + bₙ₋₁, each byte zero-extended (R9, R10). -/
def total : List Byte → Nat
  | [] => 0
  | b :: bs => b.toNat + total bs

/-- `sum8(b)`: the 8-bit truncated sum (R9). -/
def byteSum8 (bs : List Byte) : Byte := BitVec.ofNat 8 (total bs)

/-- `sum16(b)` (R10). -/
def byteSum16 (bs : List Byte) : Half := BitVec.ofNat 16 (total bs)

/-- `neg16(s) = (65536 − s) mod 65536`, the check code of a sum (R10). -/
def neg16 (s : Half) : Half := BitVec.ofNat 16 (65536 - s.toNat)

/-- ACLR's effect on the accumulator (R121). -/
def Fcd.clearSums (f : Fcd) : Fcd := { f with sum8 := 0, sum16 := 0 }

/-- AADD's effect on the accumulator: both halves are fed the byte, carries out dropped (R122). -/
def Fcd.feed (f : Fcd) (b : Byte) : Fcd :=
  { f with sum8 := BitVec.ofNat 8 (f.sum8.toNat + b.toNat), sum16 := BitVec.ofNat 16 (f.sum16.toNat + b.toNat) }

/-- The summing stage of CHK.A, CHK.B, ENC.A and ENC.B: SUM8 and SUM16 become the sums of the bytes (R32, R124). -/
def Fcd.sumOver (f : Fcd) (bs : List Byte) : Fcd := { f with sum8 := byteSum8 bs, sum16 := byteSum16 bs }

/-- NCRC = neg16(SUM16), derived (R34). -/
def Fcd.ncrc (f : Fcd) : Half := neg16 f.sum16

/-! ### Reads at a frame index (R7, R62) -/

/-- `u8(i)` -/
def Fcd.u8 (f : Fcd) (i : Nat) : Option Nat := (f.byte? i).map BitVec.toNat

/-- `s8(i) = sext_8(MemRead(i,1))` -/
def Fcd.s8 (f : Fcd) (i : Nat) : Option Int := (f.u8 i).map (sext 8)

/-- `u16be(i) = MemRead(i,2) = FB[i] × 256 + FB[i+1]` -/
def Fcd.u16be (f : Fcd) (i : Nat) : Option Nat :=
  match f.byte? i, f.byte? (i + 1) with
  | some hi, some lo => some (hi.toNat * 256 + lo.toNat)
  | _, _ => none

/-- `s16be(i) = sext_16(MemRead(i,2))` -/
def Fcd.s16be (f : Fcd) (i : Nat) : Option Int := (f.u16be i).map (sext 16)

/-- `n` consecutive 16-bit words, the first at frame index `i`. -/
def Fcd.words? (f : Fcd) (i : Nat) : Nat → Option (List Nat)
  | 0 => some []
  | n + 1 =>
    match f.u16be i, f.words? (i + 2) n with
    | some w, some ws => some (w :: ws)
    | _, _ => none

/-! ### Reads at a payload offset (R7, R87): the offset is added to PBASE -/

/-- `p8(a)` -/
def Fcd.p8 (f : Fcd) (a : Nat) : Option Nat := f.u8 (f.pbase + a)

/-- `p16(a)` -/
def Fcd.p16 (f : Fcd) (a : Nat) : Option Nat := f.u16be (f.pbase + a)

/-- `ps16(a)` -/
def Fcd.ps16 (f : Fcd) (a : Nat) : Option Int := f.s16be (f.pbase + a)

/-- `p16(a), p16(a+2), …`, `n` words -/
def Fcd.pwords? (f : Fcd) (a n : Nat) : Option (List Nat) := f.words? (f.pbase + a) n

/-! ### Array writes -/

/-- Elements i, i+1, … take the listed values; a write at or beyond `limit` (or beyond the array) is dropped (R13, R39). -/
def writeBelow {α : Type} {n : Nat} (v : Vector α n) (limit i : Nat) : List α → Vector α n
  | [] => v
  | x :: xs => writeBelow (if i < limit then v.setIfInBounds i x else v) limit (i + 1) xs

end Machine
end Sys2Proof
end

