-- ==== Sys2Proof/Machine/Flags.lean ====
section
/-! DEFINITION. The flags and codes: VALID, VK and the payload window (spec/10_state.md R24, R25, R30, R31, R43), the numbers of
ERR, FCODE and VK (R25, R27, R28), STATUS (R36), and the register map RDR reads (R40). -/

namespace Sys2Proof
namespace Machine

/-- `VALID <- 0 ; VK <- None ; PBASE <- 0 ; PLEN <- 0`: the start of CHK.A and CHK.B, and what every change of the buffer
does (R43). -/
def Fcd.invalidate (f : Fcd) : Fcd := { f with valid := false, vk := none, pbase := 0, plen := 0 }

/-- `VALID <- 1 ; VK <- v ; PBASE <- base ; PLEN <- len`: the success of a check (R43). -/
def Fcd.validate (f : Fcd) (v : Vendor) (base len : Nat) : Fcd :=
  { f with valid := true, vk := some v, pbase := base, plen := len }

/-- A decode or extract operation that needs VALID = 1 (R200). -/
def whenValid (f : Fcd) (next : Effect) : Effect := if f.valid then next else .raise .notValidated

/-- A decode operation that needs VALID = 1 and then VK = v, in this order (R170, R180, R228). -/
def whenValidated (v : Vendor) (f : Fcd) (next : Effect) : Effect :=
  whenValid f (if f.vk = some v then next else .raise .vendorMismatch)

/-- The code of an ERR value (R28). -/
def Err.code : Err → Nat
  | .ok => 0
  | .badStart => 1
  | .badEnd => 2
  | .lengthMismatch => 3
  | .checksumMismatch => 4
  | .crcMismatch => 5
  | .truncated => 6

/-- The code of an FCODE value (R27). -/
def Cause.code : Cause → Nat
  | .illegalOp => 1
  | .notValidated => 2
  | .vendorMismatch => 3
  | .bufferOverflow => 4
  | .badIndex => 5
  | .badRegister => 6
  | .payloadTooLong => 7

/-- FCODE as a number; 0 is None (R27). -/
def Fcd.fcodeNumber (f : Fcd) : Nat :=
  match f.fcode with
  | none => 0
  | some c => c.code

/-- VK as STATUS encodes it: 0 None, 1 A, 2 B (R25). -/
def Fcd.vkNumber (f : Fcd) : Nat :=
  match f.vk with
  | none => 0
  | some .vendorA => 1
  | some .vendorB => 2

/-- STATUS: bit 0 VALID, bits 2:1 VK, bit 3 FAULT, the rest 0 (R36). -/
def Fcd.status (f : Fcd) : Word := unsigned (f.valid.toNat + 2 * f.vkNumber + 8 * f.fault.toNat)

/-- The scalar registers of R40; `none` for a number outside its first three columns. -/
def Fcd.scalarRegister (f : Fcd) (n : Nat) : Option Word :=
  match n with
  | 0x00 => some f.status
  | 0x01 => some (unsigned f.err.code)
  | 0x02 => some (unsigned f.fcodeNumber)
  | 0x03 => some (unsigned f.wp)
  | 0x04 => some (unsigned f.sum8.toNat)
  | 0x05 => some (unsigned f.sum16.toNat)
  | 0x06 => some (unsigned f.ncrc.toNat)
  | 0x07 => some (unsigned f.pbase)
  | 0x08 => some (unsigned f.plen)
  | 0x09 => some (unsigned f.freg.toNat)
  | 0x0A => some f.xr
  | 0x10 => some f.res.vpack
  | 0x11 => some f.res.ipack
  | 0x12 => some f.res.soc
  | 0x13 => some f.res.cap
  | 0x14 => some f.res.cellcnt
  | 0x15 => some f.res.tempcnt
  | 0x16 => some f.res.vmax
  | 0x17 => some f.res.vmaxidx
  | 0x18 => some f.res.vmin
  | 0x19 => some f.res.vminidx
  | 0x1A => some f.res.vdelta
  | 0x1B => some f.res.tmax
  | 0x1C => some f.res.tmin
  | 0x1D => some f.res.chgfet
  | 0x1E => some f.res.dsgfet
  | 0x1F => some f.res.chgstate
  | 0x20 => some f.res.loadstate
  | 0x21 => some f.res.cycles
  | 0x22 => some f.res.heartbeat
  | 0x23 => some f.res.resid
  | 0x24 => some f.res.balmask
  | 0x25 => some f.res.prot
  | _ => none

/-- `reg[n]` (R7, R40): the scalar registers, then ALM[g] at 0x28 + g, CV[i] at 0x40 + i, T[i] at 0x70 + i; `none` for an
undefined number. -/
def Fcd.register (f : Fcd) (n : Nat) : Option Word :=
  if n < 0x28 then f.scalarRegister n
  else if n < 0x40 then (f.alm[n - 0x28]?).map (fun b => unsigned b.toNat)
  else if n < 0x70 then (f.cv[n - 0x40]?).map (fun v => unsigned v.toNat)
  else f.t[n - 0x70]?

end Machine
end Sys2Proof
end

