-- ==== Sys2Proof/Machine/Accumulator.lean ====
section
/-! DEFINITION. The checksum accumulator operations: ACLR, AADD (spec/41_checksum_acc.md). -/

namespace Sys2Proof
namespace Machine

/-- ACLR clears the accumulator (R121); does not write ERR. -/
def execAclr (s : State) : Answer := s.perform fun f => .done f.clearSums 0

/-- AADD adds one byte to the accumulator (R122); does not write ERR. -/
def execAadd (byte : Byte) (s : State) : Answer := s.perform fun f => .done (f.feed byte) 0

end Machine
end Sys2Proof
end

