-- ==== Sys2Proof/Machine/Buffer.lean ====
section
/-! DEFINITION. Buffer, register access and reset operations: NOP, CLR, PUSH, RDB, RDR, SRST (spec/40_buffer_ops.md). Each has
its rule's pseudocode as an effect on the unit, and its meaning, which puts the common prelude around it. -/

namespace Sys2Proof
namespace Machine

/-- CLR's pseudocode (R102). The bytes stay in FB, unreadable at once because WP is 0. -/
def clearBuffer (f : Fcd) : Effect := ({ f with wp := 0 }.invalidate).result .ok

/-- PUSH's pseudocode (R103); ERR is not written. -/
def pushByte (byte : Byte) (f : Fcd) : Effect :=
  if f.wp = Config.bufCap then .raise .bufferOverflow
  else .done ({ f with fb := f.fb.write f.wp byte, wp := f.wp + 1 }.invalidate) 0

/-- RDB's pseudocode (R105); ERR is not written. -/
def readByte (idx : Nat) (f : Fcd) : Effect :=
  if f.wp ≤ idx then .raise .badIndex
  else reading (f.u8 idx) fun v => .done f (unsigned v)

/-- RDR's pseudocode (R106); ERR is not written. -/
def readRegister (n : Byte) (f : Fcd) : Effect :=
  match f.register n.toNat with
  | none => .raise .badRegister
  | some v => .done f v

/-- NOP does nothing (R101); allowed while halted. -/
def execNop (s : State) : Answer := s.performAlways fun f => .done f 0

/-- CLR empties the frame buffer (R102). -/
def execClr (s : State) : Answer := s.perform clearBuffer

/-- PUSH appends one byte (R103). -/
def execPush (byte : Byte) (s : State) : Answer := s.perform (pushByte byte)

/-- RDB reads one byte of the buffer (R105). -/
def execRdb (idx : Nat) (s : State) : Answer := s.perform (readByte idx)

/-- RDR reads one register (R106); allowed while halted. -/
def execRdr (n : Byte) (s : State) : Answer := s.performAlways (readRegister n)

/-- SRST resets the unit (R107); allowed while halted. -/
def execSrst (s : State) : Answer := s.resetUnit.performAlways fun f => .done f 0

end Machine
end Sys2Proof
end

