-- ==== Sys2Proof/Machine/Extract.lean ====
section
/-! DEFINITION. Primitive field and flag extraction: XU8, XS8, XU16, XS16, XBIT, XBIT16, XK16 (spec/45_field_extract.md). -/

namespace Sys2Proof
namespace Machine

/-- The family's common rule: NotValidated, then Truncated unless the `width` bytes at the offset are inside the window, then
XR and the response's data take the value (R200, R82). -/
def extractField (off : Byte) (width : Nat) (value : Fcd → Nat → Option Int) (f : Fcd) : Effect :=
  whenValid f <|
    if f.plen < off.toNat + width then f.result .truncated
    else reading (value f off.toNat) fun v => .done { f with xr := signed v, err := .ok } (signed v)

/-- `p8(a)` as an unsigned value (R201). -/
def valueU8 (f : Fcd) (a : Nat) : Option Int := (f.p8 a).map Int.ofNat

/-- `sext_8(p8(a))` (R202). -/
def valueS8 (f : Fcd) (a : Nat) : Option Int := (f.p8 a).map (sext 8)

/-- `p16(a)` as an unsigned value (R203). -/
def valueU16 (f : Fcd) (a : Nat) : Option Int := (f.p16 a).map Int.ofNat

/-- `sext_16(p16(a))` (R204). -/
def valueS16 (f : Fcd) (a : Nat) : Option Int := (f.p16 a).map (sext 16)

/-- `bit(p8(a), k)` (R205). -/
def valueBit (k : Nat) (f : Fcd) (a : Nat) : Option Int := (f.p8 a).map fun v => (bit v k : Int)

/-- `bit(p16(a), k)` (R206). -/
def valueBit16 (k : Nat) (f : Fcd) (a : Nat) : Option Int := (f.p16 a).map fun v => (bit v k : Int)

/-- `sext_16(p16(a)) − 2731` (R207). -/
def valueK16 (f : Fcd) (a : Nat) : Option Int := (f.p16 a).map tenthsCelsius

/-- XU8: an unsigned byte (R201). -/
def execXu8 (off : Byte) (s : State) : Answer := s.perform (extractField off 1 valueU8)

/-- XS8: a signed byte (R202). -/
def execXs8 (off : Byte) (s : State) : Answer := s.perform (extractField off 1 valueS8)

/-- XU16: an unsigned big-endian word (R203). -/
def execXu16 (off : Byte) (s : State) : Answer := s.perform (extractField off 2 valueU16)

/-- XS16: a signed big-endian word (R204). -/
def execXs16 (off : Byte) (s : State) : Answer := s.perform (extractField off 2 valueS16)

/-- XBIT: one bit of a byte (R205). -/
def execXbit (off : Byte) (k : Nat) (s : State) : Answer := s.perform (extractField off 1 (valueBit k))

/-- XBIT16: one bit of a big-endian word (R206). -/
def execXbit16 (off : Byte) (k : Nat) (s : State) : Answer := s.perform (extractField off 2 (valueBit16 k))

/-- XK16: tenths of kelvin to tenths of a degree Celsius (R207). -/
def execXk16 (off : Byte) (s : State) : Answer := s.perform (extractField off 2 valueK16)

end Machine
end Sys2Proof
end

