-- ==== Sys2Proof/Machine/FrameCodec.lean ====
section
/-! DEFINITION. Frame check and frame build: CHK.A, CHK.B, ENC.A, ENC.B (spec/42_frame_codec.md), over the frame layouts of
spec/20_memory.md R61 and R64. -/

namespace Sys2Proof
namespace Machine

/-- CHK.A's pseudocode (R131). -/
def checkA (f₀ : Fcd) : Effect :=
  let f := f₀.invalidate
  if f.wp ≠ Config.aFrameLen then f.result .lengthMismatch
  else
    reading (f.bytes? 0 Config.aSumLen) fun body =>
    reading (f.byte? 12) fun checksum =>
      let g := f.sumOver body
      if g.sum8 ≠ checksum then g.result .checksumMismatch
      else (g.validate .vendorA 0 Config.aSumLen).result .ok

/-- CHK.B's pseudocode after the length byte L has been accepted: sum register, length and data, compare the check code. -/
def checkBCode (f : Fcd) (len : Nat) : Effect :=
  reading (f.byte? 2) fun reg =>
  reading (f.bytes? 2 (len + 2)) fun body =>
  reading (f.u16be (4 + len)) fun code =>
    let g := f.sumOver body
    if (neg16 g.sum16).toNat ≠ code then g.result .crcMismatch
    else { g.validate .vendorB 4 len with freg := reg }.result .ok

/-- CHK.B's pseudocode (R133), its tests in the order of R134. -/
def checkB (f₀ : Fcd) : Effect :=
  let f := f₀.invalidate
  if f.wp < Config.bOverhead then f.result .lengthMismatch
  else
    reading (f.byte? 0) fun start =>
    if start ≠ Config.bStart then f.result .badStart
    else
      reading (f.byte? (f.wp - 1)) fun last =>
      if last ≠ Config.bEnd then f.result .badEnd
      else
        reading (f.byte? 3) fun len =>
        if len.toNat ≠ f.wp - Config.bOverhead then f.result .lengthMismatch
        else checkBCode f len.toNat

/-- The buffer rewritten as the bytes of a built frame: FB[0..], WP, and no frame checked (R63, R136, R138). -/
def Fcd.loadFrame (f : Fcd) (bytes : List Byte) : Fcd :=
  { f with fb := f.fb.writeList 0 bytes, wp := bytes.length }.invalidate

/-- The 8 data bytes of a vendor-A frame, frame indices 4..11: payload byte j at A_PAYLOAD_OFF + j, zeros elsewhere (R136, R61).
With an A_PAYLOAD_OFF above 4 a payload byte that would fall on the checksum or beyond is not stored (DESIGN CHOICE: log
entry 7). -/
def dataBytesA (payloadOff : Nat) (payload : List Byte) : List Byte :=
  (List.range 8).map fun j => if payloadOff ≤ 4 + j then payload.getD (4 + j - payloadOff) 0 else 0

/-- Bytes 0..11 of the frame ENC.A builds (R61, R136). -/
def frameBodyA (p : Params) (addr cmd : Byte) (payload : List Byte) : List Byte :=
  [Config.aStart, addr, cmd, 0] ++ dataBytesA p.aPayloadOff payload

/-- ENC.A's pseudocode (R136). -/
def encodeA (p : Params) (addr cmd : Byte) (f : Fcd) : Effect :=
  if Config.aMaxPayload < f.wp then .raise .payloadTooLong
  else
    reading (f.bytes? 0 f.wp) fun payload =>
      let body := frameBodyA p addr cmd payload
      ((f.loadFrame (body ++ [byteSum8 body])).sumOver body).result .ok

/-- The action byte of ENC.B (R87, R138). -/
def actionByte (p : Params) : WireAction → Byte
  | .read => p.bActRead
  | .write => p.bActWrite

/-- The bytes the vendor-B check code covers: register, length, data (R64). -/
def checkedBytesB (reg : Byte) (payload : List Byte) : List Byte := reg :: BitVec.ofNat 8 payload.length :: payload

/-- The two check-code bytes, high byte first (R72). -/
def codeBytes (k : Half) : List Byte := [BitVec.ofNat 8 (k.toNat / 256), BitVec.ofNat 8 (k.toNat % 256)]

/-- The frame ENC.B builds (R64, R138). -/
def frameB (p : Params) (act : WireAction) (reg : Byte) (payload : List Byte) : List Byte :=
  [Config.bStart, actionByte p act] ++ checkedBytesB reg payload
    ++ codeBytes (neg16 (byteSum16 (checkedBytesB reg payload))) ++ [Config.bEnd]

/-- ENC.B's pseudocode (R138). -/
def encodeB (p : Params) (act : WireAction) (reg : Byte) (f : Fcd) : Effect :=
  if Config.bMaxPayload < f.wp then .raise .payloadTooLong
  else
    reading (f.bytes? 0 f.wp) fun payload =>
      ((f.loadFrame (frameB p act reg payload)).sumOver (checkedBytesB reg payload)).result .ok

/-- CHK.A validates a vendor-A frame (R131). -/
def execChkA (s : State) : Answer := s.perform checkA

/-- CHK.B validates a vendor-B frame (R133). -/
def execChkB (s : State) : Answer := s.perform checkB

/-- ENC.A builds a vendor-A frame around the payload in the buffer (R136). -/
def execEncA (addr cmd : Byte) (s : State) : Answer := s.perform (encodeA s.params addr cmd)

/-- ENC.B builds a vendor-B frame around the payload in the buffer (R138). -/
def execEncB (act : WireAction) (reg : Byte) (s : State) : Answer := s.perform (encodeB s.params act reg)

end Machine
end Sys2Proof
end

