-- ==== Sys2Proof/Machine/VendorA.lean ====
section
/-! DEFINITION. Vendor-A (Daly) field decode: DA.VIS, DA.MMV, DA.MMT, DA.STAT, DA.CELLV, DA.CELLT, DA.BAL, DA.FAIL, DA.MOS
(spec/43_decode_vendor_a.md). Byte positions are frame indices. -/

namespace Sys2Proof
namespace Machine

/-- DA.VIS's pseudocode after R170: pack voltage, pack current, state of charge (R150). -/
def decodeVis (p : Params) (f : Fcd) : Effect :=
  reading (f.u16be 4) fun v =>
  reading (f.s16be 8) fun i =>
  reading (f.u16be 10) fun soc =>
    { f with res := { f.res with
        vpack := unsigned (v * 100), ipack := signed (i * 100), soc := unsigned (soc * p.socAMul) } }.result .ok

/-- DA.MMV's pseudocode: highest and lowest cell voltage and their cell numbers (R152). -/
def decodeMmv (f : Fcd) : Effect :=
  reading (f.u16be 4) fun mx =>
  reading (f.u8 6) fun imx =>
  reading (f.u16be 7) fun mn =>
  reading (f.u8 9) fun imn =>
    { f with res := { f.res with
        vmax := unsigned mx, vmaxidx := unsigned imx, vmin := unsigned mn, vminidx := unsigned imn,
        vdelta := signed ((mx : Int) - (mn : Int)) } }.result .ok

/-- DA.MMT's pseudocode: highest and lowest temperature (R154). -/
def decodeMmt (f : Fcd) : Effect :=
  reading (f.s8 4) fun hi =>
  reading (f.s8 6) fun lo =>
    { f with res := { f.res with tmax := signed (hi * 10), tmin := signed (lo * 10) } }.result .ok

/-- DA.STAT's pseudocode: cell count, sensor count, charge and load state, cycle count (R156); counts are clipped (R13). -/
def decodeStat (f : Fcd) : Effect :=
  reading (f.u8 4) fun cells =>
  reading (f.u8 5) fun sensors =>
  reading (f.u8 6) fun charge =>
  reading (f.u8 7) fun load =>
  reading (f.u16be 10) fun cycles =>
    { f with res := { f.res with
        cellcnt := unsigned (clip cells Config.maxCells), tempcnt := unsigned (clip sensors Config.maxTempSensors),
        chgstate := unsigned charge, loadstate := unsigned load, cycles := unsigned cycles } }.result .ok

/-- DA.CELLV's pseudocode: three cell voltages into slot k; a write at or above CELLCNT is dropped (R158). -/
def decodeCellv (p : Params) (k : Nat) (f : Fcd) : Effect :=
  reading (f.words? p.cellvAOff 3) fun ws =>
    { f with cv := writeBelow f.cv f.res.cellcnt.toNat (3 * k) (ws.map (BitVec.ofNat 16)) }.result .ok

/-- DA.CELLT's pseudocode: seven sensor temperatures into slot k; a write at or above TEMPCNT is dropped (R160). -/
def decodeCellt (p : Params) (k : Nat) (f : Fcd) : Effect :=
  reading (f.bytes? p.celltAOff 7) fun bs =>
    { f with t := writeBelow f.t f.res.tempcnt.toNat (7 * k) (bs.map fun b : Byte => signed (sext 8 b.toNat * 10)) }.result .ok

/-- The value of bytes taken least significant first (R162, R73). -/
def littleEndian : List Byte → Nat
  | [] => 0
  | b :: bs => b.toNat + 256 * littleEndian bs

/-- DA.BAL's pseudocode: the 32-bit balance mask, its first byte the least significant (R162). -/
def decodeBal (p : Params) (f : Fcd) : Effect :=
  reading (f.bytes? p.balAOff 4) fun bs =>
    { f with res := { f.res with balmask := unsigned (littleEndian bs) } }.result .ok

/-- DA.FAIL's pseudocode: the seven alarm bytes (R164). -/
def decodeFail (p : Params) (f : Fcd) : Effect :=
  reading (f.bytes? p.almAOff 7) fun bs => { f with alm := writeBelow f.alm 7 0 bs }.result .ok

/-- DA.MOS's pseudocode: FET states, heartbeat, residual capacity (R166). -/
def decodeMos (f : Fcd) : Effect :=
  reading (f.u8 4) fun chg =>
  reading (f.u8 5) fun dsg =>
  reading (f.u8 6) fun beat =>
  reading (f.u16be 8) fun resid =>
    { f with res := { f.res with
        chgfet := unsigned (if chg ≠ 0 then 1 else 0), dsgfet := unsigned (if dsg ≠ 0 then 1 else 0),
        heartbeat := unsigned beat, resid := unsigned resid } }.result .ok

/-- A DA.* operation: the precondition of R170, then the operation's own pseudocode. -/
def State.performA (s : State) (op : Fcd → Effect) : Answer := s.perform fun f => whenValidated .vendorA f (op f)

/-- DA.VIS, VOUT_IOUT_SOC (R150). -/
def execDaVis (s : State) : Answer := s.performA (decodeVis s.params)

/-- DA.MMV, MIN_MAX_CELL_VOLTAGE (R152). -/
def execDaMmv (s : State) : Answer := s.performA decodeMmv

/-- DA.MMT, MIN_MAX_TEMPERATURE (R154). -/
def execDaMmt (s : State) : Answer := s.performA decodeMmt

/-- DA.STAT, STATUS_INFO (R156). -/
def execDaStat (s : State) : Answer := s.performA decodeStat

/-- DA.CELLV, CELL_VOLTAGES (R158). -/
def execDaCellv (k : Nat) (s : State) : Answer := s.performA (decodeCellv s.params k)

/-- DA.CELLT, CELL_TEMPERATURE (R160). -/
def execDaCellt (k : Nat) (s : State) : Answer := s.performA (decodeCellt s.params k)

/-- DA.BAL, CELL_BALANCE_STATE (R162). -/
def execDaBal (s : State) : Answer := s.performA (decodeBal s.params)

/-- DA.FAIL, FAILURE_CODES (R164). -/
def execDaFail (s : State) : Answer := s.performA (decodeFail s.params)

/-- DA.MOS, DISCHARGE_CHARGE_MOS_STATUS (R166). -/
def execDaMos (s : State) : Answer := s.performA decodeMos

end Machine
end Sys2Proof
end

