-- ==== Sys2Proof/Machine/VendorB.lean ====
section
/-! DEFINITION. Vendor-B (JBD) field decode: DB.HW, DB.CELL (spec/44_decode_vendor_b.md). Offsets are payload offsets. -/

namespace Sys2Proof
namespace Machine

/-- A DB.* operation: the precondition of R180, then the operation's own pseudocode. -/
def State.performB (s : State) (op : Fcd → Effect) : Answer := s.perform fun f => whenValidated .vendorB f (op f)

/-- DB.HW's pseudocode once both length tests have passed, `n` the clipped sensor count (R181). -/
def decodeHwFields (l : LayoutB) (n : Nat) (f : Fcd) : Effect :=
  reading (f.p16 l.offV) fun v =>
  reading (f.ps16 l.offI) fun i =>
  reading (f.p16 l.offCap) fun cap =>
  reading (f.p8 l.offSoc) fun soc =>
  reading (f.p16 l.offBalLo) fun balLo =>
  reading (f.p16 l.offBalHi) fun balHi =>
  reading (f.p16 l.offProt) fun prot =>
  reading (f.p8 l.offFet) fun fet =>
  reading (f.p8 l.offCells) fun cells =>
  reading (f.pwords? l.offTemps n) fun temps =>
    { f with
      res := { f.res with
        vpack := unsigned (v * 10), ipack := signed (i * 10), cap := unsigned (cap * 10), soc := unsigned (soc * 100),
        balmask := unsigned (balLo + balHi * 2 ^ 16), prot := unsigned (prot % 2 ^ 13),
        chgfet := unsigned (bit fet l.fetChgBit), dsgfet := unsigned (bit fet l.fetDsgBit),
        cellcnt := unsigned (clip cells Config.maxCells), tempcnt := unsigned n },
      t := writeBelow f.t n 0 (temps.map fun raw => signed (tenthsCelsius raw)) }.result .ok

/-- DB.HW's pseudocode after R180: the length tests, then the fields (R181, R182). -/
def decodeHw (l : LayoutB) (f : Fcd) : Effect :=
  if f.plen < l.hwFixed then f.result .truncated
  else
    reading (f.p8 l.offNtc) fun sensors =>
      let n := clip sensors Config.maxTempSensors
      if f.plen < l.offTemps + 2 * n then f.result .truncated
      else decodeHwFields l n f

/-- The extremes DB.CELL keeps while it passes over the cells (R184). -/
structure Extremes where
  mx : Nat
  imx : Nat
  mn : Nat
  imn : Nat
  deriving DecidableEq, Repr

/-- The extremes before the first cell. -/
def Extremes.start : Extremes := ⟨0, 0, 0, 0⟩

/-- One turn of DB.CELL's loop: cell `i` holds `v` (R184). -/
def Extremes.see (e : Extremes) (i v : Nat) : Extremes where
  mx := if i = 0 ∨ e.mx < v then v else e.mx
  imx := if i = 0 ∨ e.mx < v then i + 1 else e.imx
  mn := if i = 0 ∨ v < e.mn then v else e.mn
  imn := if i = 0 ∨ v < e.mn then i + 1 else e.imn

/-- DB.CELL's loop from cell `i` on (R184). -/
def Extremes.over (e : Extremes) (i : Nat) : List Nat → Extremes
  | [] => e
  | v :: vs => (e.see i v).over (i + 1) vs

/-- DB.CELL's pseudocode after R180 (R184). -/
def decodeCells (f : Fcd) : Effect :=
  let c := f.res.cellcnt.toNat
  if f.plen < 2 * c then f.result .truncated
  else
    reading (f.pwords? 0 c) fun vs =>
      let e := Extremes.start.over 0 vs
      { f with
        cv := writeBelow f.cv c 0 (vs.map (BitVec.ofNat 16)),
        res := { f.res with
          vmax := unsigned e.mx, vmaxidx := unsigned e.imx, vmin := unsigned e.mn, vminidx := unsigned e.imn,
          vdelta := signed ((e.mx : Int) - (e.mn : Int)) } }.result .ok

/-- DB.HW decodes the pack-level fields and the temperatures (R181). -/
def execDbHw (s : State) : Answer := s.performB (decodeHw s.params.layoutB)

/-- DB.CELL decodes the cell voltages and their extremes in one pass (R184). -/
def execDbCell (s : State) : Answer := s.performB decodeCells

end Machine
end Sys2Proof
end

