-- ==== Sys2Proof/Machine/Dispatch.lean ====
section
/-! DEFINITION. One arm per operation of spec/30_encoding.md R86. -/

namespace Sys2Proof
namespace Machine

def exec (i : Instr) (s : State) : Host.Outcome State Fault Refusal :=
  match i with
  | .nop => Sys2Proof.Machine.execNop s
  | .clr => Sys2Proof.Machine.execClr s
  | .push byte => Sys2Proof.Machine.execPush byte s
  | .rdb idx => Sys2Proof.Machine.execRdb idx s
  | .rdr n => Sys2Proof.Machine.execRdr n s
  | .srst => Sys2Proof.Machine.execSrst s
  | .aclr => Sys2Proof.Machine.execAclr s
  | .aadd byte => Sys2Proof.Machine.execAadd byte s
  | .chkA => Sys2Proof.Machine.execChkA s
  | .chkB => Sys2Proof.Machine.execChkB s
  | .encA addr cmd => Sys2Proof.Machine.execEncA addr cmd s
  | .encB act reg => Sys2Proof.Machine.execEncB act reg s
  | .daVis => Sys2Proof.Machine.execDaVis s
  | .daMmv => Sys2Proof.Machine.execDaMmv s
  | .daMmt => Sys2Proof.Machine.execDaMmt s
  | .daStat => Sys2Proof.Machine.execDaStat s
  | .daCellv k => Sys2Proof.Machine.execDaCellv k s
  | .daCellt k => Sys2Proof.Machine.execDaCellt k s
  | .daBal => Sys2Proof.Machine.execDaBal s
  | .daFail => Sys2Proof.Machine.execDaFail s
  | .daMos => Sys2Proof.Machine.execDaMos s
  | .dbHw => Sys2Proof.Machine.execDbHw s
  | .dbCell => Sys2Proof.Machine.execDbCell s
  | .xu8 off => Sys2Proof.Machine.execXu8 off s
  | .xs8 off => Sys2Proof.Machine.execXs8 off s
  | .xu16 off => Sys2Proof.Machine.execXu16 off s
  | .xs16 off => Sys2Proof.Machine.execXs16 off s
  | .xbit off bit => Sys2Proof.Machine.execXbit off bit s
  | .xbit16 off bit => Sys2Proof.Machine.execXbit16 off bit s
  | .xk16 off => Sys2Proof.Machine.execXk16 off s

end Machine
end Sys2Proof
end

