-- ==== Sys2Proof/Machine/Step.lean ====
section
/-! DEFINITION. One step: the host's next event reaches the unit (spec/30_encoding.md R80, R83; spec/60_exceptions.md R227,
R236). -/

namespace Sys2Proof
namespace Machine

/-- The host presents a command word: decode it, run the operation, or raise IllegalOp (R93, R227). -/
def present (w : Word) (s : State) : Host.Outcome State Fault Refusal :=
  match decode w with
  | .ok i => exec i s
  | .error _ => .next s.illegalWord

/-- One step: the oldest of the host's events, or none (log entries 1, 5, 6). -/
def step (s : State) : Host.Outcome State Fault Refusal :=
  match s.inbox with
  | [] => s.quiescent
  | .resetPin :: rest => .next { s with inbox := rest }.pinReset
  | .command w :: rest => present w { s with inbox := rest }

/-- The state in which the host's next event is the word of a table row (log entries 1, 11). -/
def State.withFetchWord (s : State) (nbits w : Nat) : State :=
  { s with inbox := .command (tableWord nbits w) :: s.inbox }

end Machine
end Sys2Proof
end

