-- ==== Sys2Proof/Safety.lean ====
section
/-! DEFINITION. The terms claims are stated in: the invariants of spec/10_state.md R46 and the register ranges of R37, when an
operation finds its operands, the opcode map R86 and the fault table R225 written out from the spec, and what a good final state
is (spec/60_exceptions.md R230). -/

namespace Sys2Proof
namespace Machine

/-! ### Invariants -/

/-- The invariants (a) to (i) of R46, with VALID's meaning for VK (R25), and the frame buffer's form: its list is canonical and
every byte below WP was received (R22). -/
structure Fcd.Inv (f : Fcd) : Prop where
  /-- (a) -/
  wpBound : f.wp ≤ 262
  /-- the buffer's list has its canonical form -/
  canonical : f.fb.wf = true
  /-- "WP is the number of valid bytes in FB" (R23) -/
  received : ∀ i < f.wp, (f.fb.read i).isSome = true
  /-- (b) -/
  unvalidated : f.valid = false → f.vk = none ∧ f.pbase = 0 ∧ f.plen = 0
  /-- VK is "None whenever VALID = 0" and records the check otherwise (R25) -/
  validated : f.valid = true → f.vk ≠ none
  /-- (c) -/
  checkedA : f.valid = true → f.vk = some .vendorA →
    f.wp = 13 ∧ f.pbase = 0 ∧ f.plen = 12 ∧
    ∃ body, f.bytes? 0 12 = some body ∧ f.byte? 12 = some (BitVec.ofNat 8 (total body))
  /-- (d) -/
  checkedB : f.valid = true → f.vk = some .vendorB →
    7 ≤ f.wp ∧ f.byte? 0 = some 0xDD ∧ f.byte? (f.wp - 1) = some 0x77 ∧ f.pbase = 4 ∧ f.plen = f.wp - 7 ∧
    f.byte? 3 = some (BitVec.ofNat 8 f.plen) ∧ f.plen ≤ 255 ∧
    ∃ body, f.bytes? 2 (2 + f.plen) = some body ∧ f.u16be (4 + f.plen) = some ((65536 - total body % 65536) % 65536)
  /-- (e) -/
  cells : f.res.cellcnt.toNat ≤ 48
  /-- (e) -/
  sensors : f.res.tempcnt.toNat ≤ 16
  /-- (f) -/
  sums : f.sum8.toNat = f.sum16.toNat % 256
  /-- (g) -/
  faultCode : f.fault = false ↔ f.fcode = none
  /-- (h) -/
  prot : f.res.prot.toNat ≤ 0x1FFF
  /-- (h) -/
  chgfet : f.res.chgfet.toNat ≤ 1
  /-- (h) -/
  dsgfet : f.res.dsgfet.toNat ≤ 1
  /-- (i) -/
  errCode : f.err.code ≤ 6

/-- The unit's invariant, of a machine state. -/
def State.Inv (s : State) : Prop := s.fcd.Inv

/-- An unsigned register in 0..hi. -/
abbrev UnsignedUpTo (hi : Nat) (r : Word) : Prop := r.toNat ≤ hi

/-- A signed register in lo..hi. -/
abbrev SignedWithin (lo hi : Int) (r : Word) : Prop := lo ≤ r.toInt ∧ r.toInt ≤ hi

/-- The range column of R37. BALMASK's range, 0..2^32−1, is its width. -/
structure Results.InRange (r : Results) : Prop where
  vpack : UnsignedUpTo 6553500 r.vpack
  ipack : SignedWithin (-3276800) 3276700 r.ipack
  soc : UnsignedUpTo 655350 r.soc
  cap : UnsignedUpTo 655350 r.cap
  cellcnt : UnsignedUpTo 48 r.cellcnt
  tempcnt : UnsignedUpTo 16 r.tempcnt
  vmax : UnsignedUpTo 65535 r.vmax
  vmaxidx : UnsignedUpTo 255 r.vmaxidx
  vmin : UnsignedUpTo 65535 r.vmin
  vminidx : UnsignedUpTo 255 r.vminidx
  vdelta : SignedWithin (-65535) 65535 r.vdelta
  tmax : SignedWithin (-1280) 1270 r.tmax
  tmin : SignedWithin (-1280) 1270 r.tmin
  chgfet : UnsignedUpTo 1 r.chgfet
  dsgfet : UnsignedUpTo 1 r.dsgfet
  chgstate : UnsignedUpTo 255 r.chgstate
  loadstate : UnsignedUpTo 255 r.loadstate
  cycles : UnsignedUpTo 65535 r.cycles
  heartbeat : UnsignedUpTo 255 r.heartbeat
  resid : UnsignedUpTo 65535 r.resid
  prot : UnsignedUpTo 0x1FFF r.prot

/-- A good final state: the invariant holds and the unit has not faulted, since "the faulted state is never a good final
state" (R230). -/
def State.Good (s : State) : Prop := s.Inv ∧ s.fcd.fault = false

/-! ### Bytes, as the rules write them -/

/-- The 16-bit big-endian value at position i of a byte sequence (R62). -/
def be16 (b : Nat → Byte) (i : Nat) : Nat := 256 * (b i).toNat + (b (i + 1)).toNat

/-- An 8-bit two's-complement pattern as an integer (R12). -/
def tc8 (v : Byte) : Int := if v.toNat < 128 then v.toNat else (v.toNat : Int) - 256

/-- A 16-bit two's-complement pattern as an integer (R12). -/
def tc16 (v : Nat) : Int := if v < 32768 then v else (v : Int) - 65536

/-- The sum of `n` bytes from position `lo` on. -/
def sumOf (b : Nat → Byte) (lo n : Nat) : Nat := ((List.range n).map fun i => (b (lo + i)).toNat).sum

/-- `n` bytes of the buffer from frame index `lo` on are `b 0, b 1, …`. -/
def Fcd.Shows (f : Fcd) (lo n : Nat) (b : Nat → Byte) : Prop := ∀ i < n, f.byte? (lo + i) = some (b i)

/-! ### When an operation finds its operands -/

/-- The unit is not halted and every byte below WP was received; `b` names them. -/
def State.Loaded (s : State) (b : Nat → Byte) : Prop := s.fcd.fault = false ∧ s.fcd.Shows 0 s.fcd.wp b

/-- The unit is not halted and holds a validated vendor-A frame; `b` names frame bytes 0..11. -/
def State.ReadyA (s : State) (b : Nat → Byte) : Prop :=
  s.fcd.fault = false ∧ s.fcd.valid = true ∧ s.fcd.vk = some .vendorA ∧ s.fcd.Shows 0 12 b

/-- The unit is not halted and holds a validated frame; `d` names the bytes of its payload window. -/
def State.ReadyWindow (s : State) (d : Nat → Byte) : Prop :=
  s.fcd.fault = false ∧ s.fcd.valid = true ∧ s.fcd.Shows s.fcd.pbase s.fcd.plen d

/-- The same, of a vendor-B frame. -/
def State.ReadyB (s : State) (d : Nat → Byte) : Prop := s.ReadyWindow d ∧ s.fcd.vk = some .vendorB

/-- The unit with `VALID <- 0 ; VK <- None ; PBASE <- 0 ; PLEN <- 0`. -/
def Fcd.unchecked (f : Fcd) : Fcd := { f with valid := false, vk := none, pbase := 0, plen := 0 }

/-- The unit with the sums of a byte sequence whose bytes add up to `n` (R9, R10). -/
def Fcd.withSum (f : Fcd) (n : Nat) : Fcd := { f with sum8 := BitVec.ofNat 8 n, sum16 := BitVec.ofNat 16 n }

/-- The unit after a first fault: the two fault fields and nothing else (R226). -/
def Fcd.faulted (f : Fcd) (c : Cause) : Fcd := { f with fault := true, fcode := some c }

/-! ### Classes of operations -/

/-- The operations performed also while FAULT = 1: NOP, RDR, SRST (R227). -/
def worksHalted : Instr → Bool
  | .nop | .rdr _ | .srst => true
  | _ => false

/-- The DA.* operations (R170). -/
def isVendorA : Instr → Bool
  | .daVis | .daMmv | .daMmt | .daStat | .daCellv _ | .daCellt _ | .daBal | .daFail | .daMos => true
  | _ => false

/-- The DB.* operations (R180). -/
def isVendorB : Instr → Bool
  | .dbHw | .dbCell => true
  | _ => false

/-- The extract operations, with the payload offset and the width in bytes of each (R200). -/
def extractSite : Instr → Option (Byte × Nat)
  | .xu8 off | .xs8 off | .xbit off _ => some (off, 1)
  | .xu16 off | .xs16 off | .xbit16 off _ | .xk16 off => some (off, 2)
  | _ => none

/-- The operations that write the accumulator: ACLR, AADD, CHK.A, CHK.B, ENC.A, ENC.B, and SRST, which resets it (R32, R124). -/
def writesSums : Instr → Bool
  | .aclr | .aadd _ | .chkA | .chkB | .encA _ _ | .encB _ _ | .srst => true
  | _ => false

/-- The operations that clear VALID: CHK.A, CHK.B, CLR, PUSH, ENC.A, ENC.B, SRST (R43). -/
def clearsValid : Instr → Bool
  | .chkA | .chkB | .clr | .push _ | .encA _ _ | .encB _ _ | .srst => true
  | _ => false

/-- The frame indices an operation may store to from a unit `f`: PUSH at WP, ENC.A at 0..12, ENC.B at 0..n+6 for n payload
bytes (R63). -/
def storesTo (i : Instr) (f : Fcd) (a : Nat) : Prop :=
  match i with
  | .push _ => a = f.wp
  | .encA _ _ => a < 13
  | .encB _ _ => a < f.wp + 7
  | _ => False

/-- Operations in a row, each from the state the one before it left; `none` where one answers no next state. -/
def runAll : List Instr → State → Option State
  | [], s => some s
  | i :: is, s =>
    match exec i s with
    | .next t => runAll is t
    | .fault _ => none
    | .refused _ => none

/-! ### The fault table R225 -/

/-- R40's undefined register numbers: "0x0B..0x0F, 0x26, 0x27, 0x2F..0x3F, 0x80..0xFF". -/
def undefinedRegister (n : Nat) : Bool :=
  decide ((0x0B ≤ n ∧ n ≤ 0x0F) ∨ n = 0x26 ∨ n = 0x27 ∨ (0x2F ≤ n ∧ n ≤ 0x3F) ∨ 0x80 ≤ n)

/-- R225, rows 2 to 7: the fault an operation raises in a unit that is not halted. -/
def faultCause (i : Instr) (f : Fcd) : Option Cause :=
  match i with
  | .push _ => if f.wp = 262 then some .bufferOverflow else none
  | .rdb idx => if idx ≥ f.wp then some .badIndex else none
  | .rdr n => if undefinedRegister n.toNat then some .badRegister else none
  | .encA _ _ => if f.wp > 8 then some .payloadTooLong else none
  | .encB _ _ => if f.wp > 255 then some .payloadTooLong else none
  | .daVis | .daMmv | .daMmt | .daStat | .daCellv _ | .daCellt _ | .daBal | .daFail | .daMos =>
    if f.valid = false then some .notValidated else if f.vk = some .vendorB then some .vendorMismatch else none
  | .dbHw | .dbCell =>
    if f.valid = false then some .notValidated else if f.vk = some .vendorA then some .vendorMismatch else none
  | .xu8 _ | .xs8 _ | .xu16 _ | .xs16 _ | .xbit _ _ | .xbit16 _ _ | .xk16 _ =>
    if f.valid = false then some .notValidated else none
  | .nop | .clr | .srst | .aclr | .aadd _ | .chkA | .chkB => none

/-! ### The operation map R86 and the formats R85 -/

/-- A row of R86. -/
structure OpcodeRow where
  mnemonic : String
  pattern : Word
  mask : Word
  deriving DecidableEq, Repr

/-- R86, the rows of families 0x0_ to 0x2_. -/
def opcodeMapLow : List OpcodeRow :=
  [⟨"NOP", 0x00000000, 0xFFFFFFFF⟩, ⟨"CLR", 0x01000000, 0xFFFFFFFF⟩, ⟨"PUSH", 0x02000000, 0xFFFFFF00⟩,
    ⟨"RDB", 0x03000000, 0xFFFFFE00⟩, ⟨"RDR", 0x04000000, 0xFFFFFF00⟩, ⟨"SRST", 0x05000000, 0xFFFFFFFF⟩,
    ⟨"ACLR", 0x10000000, 0xFFFFFFFF⟩, ⟨"AADD", 0x11000000, 0xFFFFFF00⟩, ⟨"CHK.A", 0x20000000, 0xFFFFFFFF⟩,
    ⟨"CHK.B", 0x21000000, 0xFFFFFFFF⟩, ⟨"ENC.A", 0x22000000, 0xFF0000FF⟩, ⟨"ENC.B", 0x23000000, 0xFFFE00FF⟩]

/-- R86, the rows of families 0x3_ to 0x5_. -/
def opcodeMapHigh : List OpcodeRow :=
  [⟨"DA.VIS", 0x30000000, 0xFFFFFFFF⟩, ⟨"DA.MMV", 0x31000000, 0xFFFFFFFF⟩, ⟨"DA.MMT", 0x32000000, 0xFFFFFFFF⟩,
    ⟨"DA.STAT", 0x33000000, 0xFFFFFFFF⟩, ⟨"DA.CELLV", 0x34000000, 0xFFFFFFF0⟩, ⟨"DA.CELLT", 0x35000000, 0xFFFFFFFC⟩,
    ⟨"DA.BAL", 0x36000000, 0xFFFFFFFF⟩, ⟨"DA.FAIL", 0x37000000, 0xFFFFFFFF⟩, ⟨"DA.MOS", 0x38000000, 0xFFFFFFFF⟩,
    ⟨"DB.HW", 0x40000000, 0xFFFFFFFF⟩, ⟨"DB.CELL", 0x41000000, 0xFFFFFFFF⟩,
    ⟨"XU8", 0x50000000, 0xFF00FFFF⟩, ⟨"XS8", 0x51000000, 0xFF00FFFF⟩, ⟨"XU16", 0x52000000, 0xFF00FFFF⟩,
    ⟨"XS16", 0x53000000, 0xFF00FFFF⟩, ⟨"XBIT", 0x54000000, 0xFF00FFF8⟩, ⟨"XBIT16", 0x55000000, 0xFF00FFF0⟩,
    ⟨"XK16", 0x56000000, 0xFF00FFFF⟩]

/-- R86: "The complete list of operations." -/
def opcodeMap : List OpcodeRow := opcodeMapLow ++ opcodeMapHigh

/-- R88 and R85: the words that are legal, by their fields as numbers. -/
def legalFields (op a b c : Nat) : Bool :=
  if op ∈ [0x00, 0x01, 0x05, 0x10, 0x20, 0x21, 0x30, 0x31, 0x32, 0x33, 0x36, 0x37, 0x38, 0x40, 0x41] then
    decide (a = 0 ∧ b = 0 ∧ c = 0)
  else if op ∈ [0x02, 0x04, 0x11] then decide (a = 0 ∧ b = 0)
  else if op = 0x03 then decide (a = 0 ∧ b < 2)
  else if op = 0x22 then decide (c = 0)
  else if op = 0x23 then decide (a < 2 ∧ c = 0)
  else if op = 0x34 then decide (a = 0 ∧ b = 0 ∧ c < 16)
  else if op = 0x35 then decide (a = 0 ∧ b = 0 ∧ c < 4)
  else if op ∈ [0x50, 0x51, 0x52, 0x53, 0x56] then decide (b = 0 ∧ c = 0)
  else if op = 0x54 then decide (b = 0 ∧ c < 8)
  else if op = 0x55 then decide (b = 0 ∧ c < 16)
  else false

/-- The same of a word, its fields read as numbers (R84). -/
def legalWord (w : Word) : Bool :=
  legalFields (w.toNat / 2 ^ 24) (w.toNat / 2 ^ 16 % 256) (w.toNat / 2 ^ 8 % 256) (w.toNat % 256)

end Machine
end Sys2Proof
end

