-- ==== Sys2Proof/Certificates/Slice0/Obligations.lean ====
section
/-! DEFINITION. The statements for the provers, in the spec's file order. `s.answer f d` is the state after a transaction that
leaves the unit as `f` and answers data `d`: an equation `exec i s = .next (s.answer { s.fcd with … } d)` says what the
operation writes, that it writes nothing else (its frame: every register, flag and buffer byte not named), and that it
completes. -/

open Sys2Proof Sys2Proof.Machine

/-! ### Encoding (30_encoding.md) -/

/-- R84 to R87: decoding the word of a well-formed instruction gives the instruction back, every operand at every value its
encoding admits. -/
def Obligations.DecodeInvertsEncode : Prop :=
  ∀ i : Instr, i.wellFormed = true → decode (encode i) = .ok i

/-- R84 to R88: a word that decodes is the word of what it decodes to, which is well formed: no bit of a word is ignored. -/
def Obligations.EncodeInvertsDecode : Prop :=
  ∀ (w : Word) (i : Instr), decode w = .ok i → i.wellFormed = true ∧ encode i = w

/-- R86: "a word w encodes the operation when w AND mask = match. The rows are disjoint." -/
def Obligations.DecodeFollowsOpcodeMap : Prop :=
  opcodeMap.length = 30 ∧
  (∀ (w : Word) (m : String),
    (∃ i, decode w = .ok i ∧ i.mnemonic = m) ↔ ∃ r ∈ opcodeMap, r.mnemonic = m ∧ w &&& r.mask = r.pattern) ∧
  ∀ (w : Word), ∀ r ∈ opcodeMap, ∀ q ∈ opcodeMap, w &&& r.mask = r.pattern → w &&& q.mask = q.pattern → r = q

/-- R88, R226: "An illegal word raises Fault(IllegalOp) and changes nothing else"; while halted it changes nothing at all. -/
def Obligations.IllegalWordRaisesIllegalOp : Prop :=
  ∀ (s : State) (w : Word) (rest : List HostEvent), s.inbox = .command w :: rest →
    (legalWord w = true ↔ ∃ i, decode w = .ok i) ∧
    (legalWord w = false →
      step s = .next ({ s with inbox := rest }.answer (if s.fcd.fault then s.fcd else s.fcd.faulted .illegalOp) 0))

/-- R86, R91: words written out from the operation map decode to the operations they stand for, one of each family at least. -/
def Obligations.SampleWordsDecode : Prop :=
  decode 0x00000000 = .ok .nop ∧ decode 0x020000A5 = .ok (.push 0xA5) ∧ decode 0x0300010C = .ok (.rdb 268) ∧
  decode 0x04000043 = .ok (.rdr 0x43) ∧ decode 0x11000003 = .ok (.aadd 3) ∧ decode 0x2201DA00 = .ok (.encA 0x01 0xDA) ∧
  decode 0x2301E100 = .ok (.encB .write 0xE1) ∧ decode 0x34000005 = .ok (.daCellv 5) ∧ decode 0x41000000 = .ok .dbCell ∧
  decode 0x5510000B = .ok (.xbit16 16 11)

/-! ### One step (30_encoding.md R80; 60_exceptions.md R227, R236) -/

/-- R80, R227: when the host's next word decodes, the step is exec of the decoded operation, in the state that has taken the word
from the host's list; nothing else is added around exec. -/
def Obligations.StepRunsDecodedWord : Prop :=
  ∀ (s : State) (w : Word) (rest : List HostEvent) (i : Instr),
    s.inbox = .command w :: rest → decode w = .ok i → i.wellFormed = true ∧ step s = exec i { s with inbox := rest }

/-- R236, R250 (the model's choices: log entries 5, 6, 8): with no event from the host nothing changes; `rst_n` puts the unit in
the reset state whatever state it was in and takes the event, and leaves no response. -/
def Obligations.QuietStepAndPinReset : Prop :=
  ∀ s : State,
    (s.inbox = [] → step s = .next s) ∧
    ∀ rest, s.inbox = .resetPin :: rest →
      step s = .next { params := s.params, fcd := Fcd.reset, inbox := rest, rsp := none }

/-- R80, R67: from every state that meets the invariant a step has an outcome, whatever the host does; a command word is taken
and answered by one response. That a step without an event goes on, and that the pin is an event, are the model's choices (log
entries 5, 6). -/
def Obligations.EveryWordIsAnswered : Prop :=
  ∀ s : State, s.Inv →
    ∃ t, step s = .next t ∧ t.params = s.params ∧
      ∀ w rest, s.inbox = .command w :: rest → t.inbox = rest ∧ ∃ r, t.rsp = some r

/-- R82: the three fields of the response, all of the state after the operation. Data is the byte of a successful RDB, the
register of a successful RDR, XR for an extract operation that ends with OK, and 0 in every other case. -/
def Obligations.ResponseReportsStateAfter : Prop :=
  ∀ (i : Instr) (s t : State), exec i s = .next t →
    t.params = s.params ∧ t.inbox = s.inbox ∧
    ∃ data, t.rsp = some { fault := t.fcd.fault, err := t.fcd.err, data := data } ∧
      match i with
      | .rdb idx => data = if s.fcd.fault ∨ t.fcd.fault then 0 else ((s.fcd.byte? idx).getD 0).zeroExtend 32
      | .rdr n => data = (s.fcd.register n.toNat).getD 0
      | .xu8 _ | .xs8 _ | .xu16 _ | .xs16 _ | .xbit _ _ | .xbit16 _ _ | .xk16 _ =>
        data = if t.fcd.fault = false ∧ t.fcd.err = .ok then t.fcd.xr else 0
      | _ => data = 0

/-! ### Reset and invariants (10_state.md R42, R46; 70_reset_and_hazards.md R250) -/

/-- R42, R46, R37: the invariants and the register ranges hold of the reset state. -/
def Obligations.ResetMeetsInvariant : Prop := State.reset.Inv ∧ State.reset.fcd.res.InRange

/-- R46: every step keeps the invariants, from every state that meets them. -/
def Obligations.StepKeepsInvariant : Prop := ∀ s t : State, s.Inv → step s = .next t → t.Inv

/-- R46: "Invariants that hold in every reachable state": of a unit built with any parameters, whatever the host does. -/
def Obligations.ReachableStatesMeetInvariant : Prop :=
  ∀ (p : Params) (events : List HostEvent) (k : Nat) (t : State),
    core.run k { State.resetWith p with inbox := events } = .next t → t.Inv

/-- R37: every step keeps every scalar result register inside the range the spec gives it. -/
def Obligations.StepKeepsRegisterRanges : Prop :=
  ∀ s t : State, s.Inv → s.fcd.res.InRange → step s = .next t → t.fcd.res.InRange

/-- R107, R42: SRST puts every state element at the value of R42, from every state, halted or not; the response is (0, 0, 0). -/
def Obligations.SrstResetsEveryElement : Prop :=
  ∀ s : State, ∃ f : Fcd,
    exec .srst s = .next { s with fcd := f, rsp := some ⟨false, .ok, 0⟩ } ∧
    f.wp = 0 ∧ f.valid = false ∧ f.vk = none ∧ f.pbase = 0 ∧ f.plen = 0 ∧ f.freg = 0 ∧ f.err = .ok ∧ f.fault = false ∧
    f.fcode = none ∧ f.sum8 = 0 ∧ f.sum16 = 0 ∧ f.ncrc = 0 ∧ f.xr = 0 ∧
    f.res = ⟨0, 0, 0, 0, 0, 0, 0, 0, 0, 0, 0, 0, 0, 0, 0, 0, 0, 0, 0, 0, 0, 0⟩ ∧
    (∀ g : Fin 7, f.alm[g] = 0) ∧ (∀ i : Fin 48, f.cv[i] = 0) ∧ (∀ i : Fin 16, f.t[i] = 0) ∧
    ∀ a, f.byte? a = none

/-! ### Faults and halting (60_exceptions.md) -/

/-- R227: while FAULT = 1 an operation other than NOP, RDR and SRST changes no state and is answered (1, ERR, 0). -/
def Obligations.HaltedUnitRefusesOperations : Prop :=
  ∀ (i : Instr) (s : State), s.fcd.fault = true → worksHalted i = false →
    exec i s = .next { s with rsp := some ⟨true, s.fcd.err, 0⟩ }

/-- R229: a halted unit keeps its whole state, FCODE included, whatever the host presents, until SRST or `rst_n`, and either of
those gives every element but FB, which R42 leaves unspecified, its reset value. -/
def Obligations.OnlyResetLeavesHaltedState : Prop :=
  ∀ (s t : State), s.fcd.fault = true → step s = .next t →
    if s.inbox.head? = some .resetPin ∨ s.inbox.head? = some (.command 0x05000000) then
      { t.fcd with fb := Fcd.reset.fb } = Fcd.reset
    else t.fcd = s.fcd

/-- R226: "the state after a fault is the state before it plus the two fault fields", whatever the word; the response is
(1, unchanged ERR, 0); where FAULT is already 1 nothing of the unit changes. -/
def Obligations.FaultsArePrecise : Prop :=
  ∀ (s t : State) (w : Word) (rest : List HostEvent), s.inbox = .command w :: rest → step s = .next t → t.fcd.fault = true →
    (s.fcd.fault = false → ∃ c, t = { s with fcd := s.fcd.faulted c, inbox := rest, rsp := some ⟨true, s.fcd.err, 0⟩ }) ∧
    (s.fcd.fault = true → t.fcd = s.fcd)

/-- R225: each command word raises exactly the fault of the table's row whose exact cause holds, and no other. -/
def Obligations.FaultCausesAreExact : Prop :=
  ∀ (s : State) (w : Word) (rest : List HostEvent), s.inbox = .command w :: rest → s.Inv → s.fcd.fault = false →
    (legalWord w = false → step s = .next ({ s with inbox := rest }.answer (s.fcd.faulted .illegalOp) 0)) ∧
    ∀ i, decode w = .ok i →
      match faultCause i s.fcd with
      | some c => step s = .next ({ s with inbox := rest }.answer (s.fcd.faulted c) 0)
      | none => ∃ t, step s = .next t ∧ t.fcd.fault = false

/-! ### Buffer, register access (40_buffer_ops.md) -/

/-- R101: "NOP from any state S gives S, response data 0 with err = ERR and fault = FAULT of S." -/
def Obligations.NopChangesNothing : Prop :=
  ∀ s : State, exec .nop s = .next { s with rsp := some ⟨s.fcd.fault, s.fcd.err, 0⟩ }

/-- R102: CLR empties the buffer and clears VALID, VK and the window; ERR is OK; no byte is readable afterwards; every other
register, the accumulator, XR and FREG keep their values. -/
def Obligations.ClrEmptiesBuffer : Prop :=
  ∀ s : State, s.fcd.fault = false →
    ∃ f, exec .clr s = .next (s.answer f 0) ∧ f = { s.fcd.unchecked with wp := 0, err := .ok } ∧ ∀ a, f.byte? a = none

/-- R103: PUSH stores the byte at WP, adds 1 to WP and clears VALID; no other index of the buffer and no other register changes.
With 262 bytes in the buffer it raises BufferOverflow and stores nothing. -/
def Obligations.PushAppendsByte : Prop :=
  ∀ (s : State) (byte : Byte), s.fcd.fault = false →
    (s.fcd.wp = 262 → exec (.push byte) s = .next (s.answer (s.fcd.faulted .bufferOverflow) 0)) ∧
    (s.fcd.wp < 262 → ∃ f, exec (.push byte) s = .next (s.answer f 0) ∧
      f = { s.fcd.unchecked with fb := f.fb, wp := s.fcd.wp + 1 } ∧
      f.byte? s.fcd.wp = some byte ∧ (∀ a, a < s.fcd.wp → f.byte? a = s.fcd.byte? a) ∧
      ∀ a, a ≠ s.fcd.wp → f.fb.read a = s.fcd.fb.read a)

/-- R105: RDB answers byte idx of the buffer, zero-extended, and changes no state; at or beyond WP it raises BadIndex. -/
def Obligations.RdbReadsReceivedByte : Prop :=
  ∀ (s : State) (b : Nat → Byte) (idx : Nat), s.Loaded b →
    exec (.rdb idx) s =
      if idx < s.fcd.wp then .next (s.answer s.fcd ((b idx).zeroExtend 32))
      else .next (s.answer (s.fcd.faulted .badIndex) 0)

/-- R106, R40: RDR answers the register of each number of the map, halted or not, and changes no state: status, error and
accumulator registers. STATUS is R36's packed view, NCRC is R34's negated sum. -/
def Obligations.RdrReadsStatusRegisters : Prop :=
  ∀ s : State, ∀ p ∈
      [((0x00 : Byte), BitVec.ofNat 32 ((if s.fcd.valid then 1 else 0) +
          (match s.fcd.vk with | none => 0 | some .vendorA => 2 | some .vendorB => 4) + (if s.fcd.fault then 8 else 0))),
        (0x01, match s.fcd.err with
          | .ok => 0 | .badStart => 1 | .badEnd => 2 | .lengthMismatch => 3 | .checksumMismatch => 4 | .crcMismatch => 5
          | .truncated => 6),
        (0x02, match s.fcd.fcode with
          | none => 0 | some .illegalOp => 1 | some .notValidated => 2 | some .vendorMismatch => 3 | some .bufferOverflow => 4
          | some .badIndex => 5 | some .badRegister => 6 | some .payloadTooLong => 7),
        (0x03, BitVec.ofNat 32 s.fcd.wp), (0x04, s.fcd.sum8.zeroExtend 32), (0x05, s.fcd.sum16.zeroExtend 32),
        (0x06, (-s.fcd.sum16).zeroExtend 32), (0x07, BitVec.ofNat 32 s.fcd.pbase), (0x08, BitVec.ofNat 32 s.fcd.plen),
        (0x09, s.fcd.freg.zeroExtend 32), (0x0A, s.fcd.xr)],
    exec (.rdr p.1) s = .next (s.answer s.fcd p.2)

/-- R106, R40: the result registers and the arrays ALM, CV and T, halted or not; RDR changes no state. -/
def Obligations.RdrReadsResultRegisters : Prop :=
  ∀ s : State,
    (∀ p ∈ [((0x10 : Byte), s.fcd.res.vpack), (0x11, s.fcd.res.ipack), (0x12, s.fcd.res.soc), (0x13, s.fcd.res.cap),
        (0x14, s.fcd.res.cellcnt), (0x15, s.fcd.res.tempcnt), (0x16, s.fcd.res.vmax), (0x17, s.fcd.res.vmaxidx),
        (0x18, s.fcd.res.vmin), (0x19, s.fcd.res.vminidx), (0x1A, s.fcd.res.vdelta), (0x1B, s.fcd.res.tmax),
        (0x1C, s.fcd.res.tmin), (0x1D, s.fcd.res.chgfet), (0x1E, s.fcd.res.dsgfet), (0x1F, s.fcd.res.chgstate),
        (0x20, s.fcd.res.loadstate), (0x21, s.fcd.res.cycles), (0x22, s.fcd.res.heartbeat), (0x23, s.fcd.res.resid),
        (0x24, s.fcd.res.balmask), (0x25, s.fcd.res.prot)],
      exec (.rdr p.1) s = .next (s.answer s.fcd p.2)) ∧
    (∀ g : Fin 7, exec (.rdr (BitVec.ofNat 8 (0x28 + g))) s = .next (s.answer s.fcd (s.fcd.alm[g].zeroExtend 32))) ∧
    (∀ i : Fin 48, exec (.rdr (BitVec.ofNat 8 (0x40 + i))) s = .next (s.answer s.fcd (s.fcd.cv[i].zeroExtend 32))) ∧
    (∀ i : Fin 16, exec (.rdr (BitVec.ofNat 8 (0x70 + i))) s = .next (s.answer s.fcd s.fcd.t[i]))

/-- R106, R40: an undefined register number raises BadRegister; while halted it changes nothing. Data is 0. -/
def Obligations.RdrUndefinedNumberFaults : Prop :=
  ∀ (s : State) (n : Byte), undefinedRegister n.toNat = true →
    exec (.rdr n) s = .next (s.answer (if s.fcd.fault then s.fcd else s.fcd.faulted .badRegister) 0)

/-! ### Accumulator (41_checksum_acc.md) -/

/-- R121, R122: ACLR clears both halves; AADD adds the zero-extended byte to both, carries out dropped; neither writes ERR, the
buffer or anything else. -/
def Obligations.AclrAaddDriveAccumulator : Prop :=
  ∀ (s : State) (c : Byte), s.fcd.fault = false →
    exec .aclr s = .next (s.answer { s.fcd with sum8 := 0, sum16 := 0 } 0) ∧
    exec (.aadd c) s = .next (s.answer { s.fcd with sum8 := s.fcd.sum8 + c, sum16 := s.fcd.sum16 + c.zeroExtend 16 } 0)

/-- R123: after ACLR and AADD of bytes, SUM8, SUM16 and NCRC are the sums of the bytes, in any order of the bytes, and
SUM16 + NCRC is 0 modulo 65536. -/
def Obligations.AccumulatorSumsBytes : Prop :=
  ∀ (s : State) (bytes : List Byte), s.fcd.fault = false →
    ∃ t, runAll (pseudoAcc bytes) s = some t ∧
      t.fcd = { s.fcd with
        sum8 := BitVec.ofNat 8 (bytes.map BitVec.toNat).sum, sum16 := BitVec.ofNat 16 (bytes.map BitVec.toNat).sum } ∧
      t.fcd.ncrc = BitVec.ofNat 16 (65536 - (bytes.map BitVec.toNat).sum % 65536) ∧
      (t.fcd.sum16.toNat + t.fcd.ncrc.toNat) % 65536 = 0 ∧
      ∀ other, List.Perm other bytes → runAll (pseudoAcc other) s = some t

/-- R124, R32: no operation but ACLR, AADD, CHK.A, CHK.B, ENC.A, ENC.B and SRST writes the accumulator; a CHK that ends before
its summing stage leaves it as it was. -/
def Obligations.AccumulatorWriters : Prop :=
  ∀ (i : Instr) (s t : State), exec i s = .next t →
    (writesSums i = false → t.fcd.sum8 = s.fcd.sum8 ∧ t.fcd.sum16 = s.fcd.sum16) ∧
    ((i = .chkA ∨ i = .chkB) → t.fcd.err = .lengthMismatch ∨ t.fcd.err = .badStart ∨ t.fcd.err = .badEnd →
      t.fcd.sum8 = s.fcd.sum8 ∧ t.fcd.sum16 = s.fcd.sum16)

/-- R125: summing a frame by hand with ACLR and AADD gives the verdict CHK.A and CHK.B give. -/
def Obligations.HandSumAgreesWithCheck : Prop :=
  ∀ (s : State) (b : Nat → Byte), s.Loaded b →
    (s.fcd.wp = 13 →
      ∃ t u, runAll (pseudoAcc ((List.range 12).map b)) s = some t ∧ exec .chkA s = .next u ∧
        (u.fcd.err = .ok ↔ t.fcd.sum8 = b 12)) ∧
    (7 ≤ s.fcd.wp → b 0 = 0xDD → b (s.fcd.wp - 1) = 0x77 → (b 3).toNat = s.fcd.wp - 7 →
      ∃ t u, runAll (pseudoAcc ((List.range (2 + (b 3).toNat)).map fun j => b (2 + j))) s = some t ∧ exec .chkB s = .next u ∧
        (u.fcd.err = .ok ↔ t.fcd.ncrc.toNat = be16 b (4 + (b 3).toNat)))

/-! ### Frame check and build (42_frame_codec.md) -/

/-- R131: CHK.A's verdicts, what each records and what it leaves. -/
def Obligations.ChkAVerdicts : Prop :=
  ∀ (s : State) (b : Nat → Byte), s.Loaded b →
    exec .chkA s = .next (s.answer
      (if s.fcd.wp ≠ 13 then { s.fcd.unchecked with err := .lengthMismatch }
       else if sumOf b 0 12 % 256 ≠ (b 12).toNat then
         { s.fcd.unchecked.withSum (sumOf b 0 12) with err := .checksumMismatch }
       else
         { s.fcd.withSum (sumOf b 0 12) with valid := true, vk := some .vendorA, pbase := 0, plen := 12, err := .ok }) 0)

/-- R133, R134: CHK.B's verdicts in the order of its tests, what each records and what it leaves. -/
def Obligations.ChkBVerdicts : Prop :=
  ∀ (s : State) (b : Nat → Byte), s.Loaded b →
    exec .chkB s = .next (s.answer
      (if s.fcd.wp < 7 then { s.fcd.unchecked with err := .lengthMismatch }
       else if b 0 ≠ 0xDD then { s.fcd.unchecked with err := .badStart }
       else if b (s.fcd.wp - 1) ≠ 0x77 then { s.fcd.unchecked with err := .badEnd }
       else if (b 3).toNat ≠ s.fcd.wp - 7 then { s.fcd.unchecked with err := .lengthMismatch }
       else if (65536 - sumOf b 2 (2 + (b 3).toNat) % 65536) % 65536 ≠ be16 b (4 + (b 3).toNat) then
         { s.fcd.unchecked.withSum (sumOf b 2 (2 + (b 3).toNat)) with err := .crcMismatch }
       else
         { s.fcd.withSum (sumOf b 2 (2 + (b 3).toNat)) with
           valid := true, vk := some .vendorB, pbase := 4, plen := (b 3).toNat, freg := b 2, err := .ok }) 0)

/-- R132: changing any one byte of a 13-byte frame that passes CHK.A to a different value makes CHK.A answer ChecksumMismatch. -/
def Obligations.ChkACatchesOneByte : Prop :=
  ∀ (s s' u : State) (b b' : Nat → Byte) (i : Nat), s.Loaded b → s'.Loaded b' → s.fcd.wp = 13 → s'.fcd.wp = 13 →
    exec .chkA s = .next u → u.fcd.err = .ok → i < 13 → b' i ≠ b i → (∀ j < 13, j ≠ i → b' j = b j) →
    ∃ u', exec .chkA s' = .next u' ∧ u'.fcd.err = .checksumMismatch ∧ u'.fcd.valid = false

/-- R135: changing one byte of a frame that passes CHK.B yields BadStart for the start byte, LengthMismatch for the length byte,
BadEnd for the end byte, CrcMismatch for the register byte, a data byte or a check-code byte (a flipped bit among them), and
changes nothing for the action byte. -/
def Obligations.ChkBCatchesOneByte : Prop :=
  ∀ (s s' u : State) (b b' : Nat → Byte) (i : Nat), s.Loaded b → s'.Loaded b' → s.fcd.wp ≤ 262 → s'.fcd.wp = s.fcd.wp →
    exec .chkB s = .next u → u.fcd.err = .ok → i < s.fcd.wp → b' i ≠ b i → (∀ j < s.fcd.wp, j ≠ i → b' j = b j) →
    ∃ u', exec .chkB s' = .next u' ∧
      u'.fcd.err =
        if i = 0 then .badStart else if i = 1 then .ok else if i = 3 then .lengthMismatch
        else if i + 1 = s.fcd.wp then .badEnd else .crcMismatch

/-- R136: ENC.A replaces the payload by the 13-byte frame: start, address, command, 0, payload byte j at frame index
A_PAYLOAD_OFF + j (4 + j with the document's value) and zeros in the other data bytes, the 8-bit sum; it sets the sums and clears
VALID; with more than 8 payload bytes it raises PayloadTooLong and changes nothing else. That a parameter above 4 leaves out what
does not fit below index 12 is the model's choice (log entry 7). -/
def Obligations.EncABuildsFrame : Prop :=
  ∀ (s : State) (b : Nat → Byte) (addr cmd : Byte), s.Loaded b →
    let n := s.fcd.wp
    let off := s.params.aPayloadOff
    (8 < n → exec (.encA addr cmd) s = .next (s.answer (s.fcd.faulted .payloadTooLong) 0)) ∧
    (n ≤ 8 → ∃ f, exec (.encA addr cmd) s = .next (s.answer f 0) ∧
      f = { s.fcd.unchecked.withSum (0xA5 + addr.toNat + cmd.toNat + sumOf b 0 (min n (12 - off))) with
        fb := f.fb, wp := 13, err := .ok } ∧
      f.byte? 0 = some 0xA5 ∧ f.byte? 1 = some addr ∧ f.byte? 2 = some cmd ∧ f.byte? 3 = some 0 ∧
      (∀ j < 8, f.byte? (4 + j) = some (if off ≤ 4 + j ∧ 4 + j - off < n then b (4 + j - off) else 0)) ∧
      f.byte? 12 = some f.sum8 ∧ ∀ a, 13 ≤ a → f.fb.read a = s.fcd.fb.read a)

/-- R138, R72: ENC.B replaces the payload by the frame of n + 7 bytes, the action byte by the parameters, the check code high byte
first, sets the sums, and clears VALID; with more than 255 bytes it raises PayloadTooLong and changes nothing else. -/
def Obligations.EncBBuildsFrame : Prop :=
  ∀ (s : State) (b : Nat → Byte) (act : WireAction) (reg : Byte), s.Loaded b →
    let n := s.fcd.wp
    let sum := reg.toNat + n + sumOf b 0 n
    let code := (65536 - sum % 65536) % 65536
    (255 < n → exec (.encB act reg) s = .next (s.answer (s.fcd.faulted .payloadTooLong) 0)) ∧
    (n ≤ 255 → ∃ f, exec (.encB act reg) s = .next (s.answer f 0) ∧
      f = { s.fcd.unchecked.withSum sum with fb := f.fb, wp := n + 7, err := .ok } ∧
      f.byte? 0 = some 0xDD ∧ f.byte? 1 = some (if act = .read then s.params.bActRead else s.params.bActWrite) ∧
      f.byte? 2 = some reg ∧ f.byte? 3 = some (BitVec.ofNat 8 n) ∧ (∀ j < n, f.byte? (4 + j) = some (b j)) ∧
      f.byte? (4 + n) = some (BitVec.ofNat 8 (code / 256)) ∧ f.byte? (5 + n) = some (BitVec.ofNat 8 (code % 256)) ∧
      f.byte? (6 + n) = some 0x77 ∧ ∀ a, n + 7 ≤ a → f.fb.read a = s.fcd.fb.read a)

/-- R139(a): ENC.A then CHK.A ends with OK, and FB[12] is the sum of FB[0..11]. For A_PAYLOAD_OFF above 4 what the frame holds of a
payload that does not fit is the model's choice (log entry 7). -/
def Obligations.EncAThenChkAPasses : Prop :=
  ∀ (s : State) (b : Nat → Byte) (addr cmd : Byte), s.Loaded b → s.fcd.wp ≤ 8 →
    ∃ t u body, exec (.encA addr cmd) s = .next t ∧ exec .chkA t = .next u ∧ u.fcd.err = .ok ∧ u.fcd.valid = true ∧
      u.fcd.bytes? 0 12 = some body ∧ u.fcd.byte? 12 = some (BitVec.ofNat 8 (body.map BitVec.toNat).sum)

/-- R139(b): ENC.B then CHK.B ends with OK and gives back register and payload. -/
def Obligations.EncBThenChkBReturnsPayload : Prop :=
  ∀ (s : State) (b : Nat → Byte) (act : WireAction) (reg : Byte), s.Loaded b → s.fcd.wp ≤ 255 →
    ∃ t u, exec (.encB act reg) s = .next t ∧ exec .chkB t = .next u ∧ u.fcd.err = .ok ∧ u.fcd.freg = reg ∧
      u.fcd.pbase = 4 ∧ u.fcd.plen = s.fcd.wp ∧ ∀ j < s.fcd.wp, u.fcd.byte? (4 + j) = some (b j)

/-! ### What writes the buffer and the flags (10_state.md R43; 20_memory.md R63) -/

/-- R63, R60, R130: an operation changes no byte of the buffer but those it stores to: PUSH index WP, ENC.A 0..12, ENC.B 0..n+6;
and only those three, CLR and SRST change WP. SRST, which leaves FB unspecified, is apart. -/
def Obligations.BufferWriters : Prop :=
  ∀ (i : Instr) (s t : State), exec i s = .next t → i ≠ .srst →
    (∀ a, ¬ storesTo i s.fcd a → t.fcd.fb.read a = s.fcd.fb.read a) ∧
    ((∀ a, ¬ storesTo i s.fcd a) → i ≠ .clr → t.fcd.fb = s.fcd.fb ∧ t.fcd.wp = s.fcd.wp)

/-- R43, R24: VALID is set only by a CHK that ends with OK and cleared only by CHK, CLR, PUSH, ENC and SRST; whenever VALID is 1
after an operation, the operation changed neither the buffer nor WP; FAULT is cleared only by SRST. -/
def Obligations.FlagWriters : Prop :=
  ∀ (i : Instr) (s t : State), exec i s = .next t →
    (clearsValid i = false →
      t.fcd.valid = s.fcd.valid ∧ t.fcd.vk = s.fcd.vk ∧ t.fcd.pbase = s.fcd.pbase ∧ t.fcd.plen = s.fcd.plen) ∧
    (s.fcd.fault = false → clearsValid i = true → t.fcd.fault = false → t.fcd.valid = true →
      (i = .chkA ∧ t.fcd.vk = some .vendorA ∨ i = .chkB ∧ t.fcd.vk = some .vendorB) ∧ t.fcd.err = .ok) ∧
    (s.fcd.fault = false → t.fcd.fault = false → t.fcd.valid = true → t.fcd.fb = s.fcd.fb ∧ t.fcd.wp = s.fcd.wp) ∧
    (s.fcd.fault = true → t.fcd.fault = false → i = .srst)

/-! ### Vendor-A decode (43_decode_vendor_a.md) -/

/-- R150: DA.VIS. -/
def Obligations.DaVisDecodes : Prop :=
  ∀ (s : State) (b : Nat → Byte), s.ReadyA b →
    exec .daVis s = .next (s.answer { s.fcd with err := .ok, res := { s.fcd.res with
      vpack := BitVec.ofNat 32 (100 * be16 b 4), ipack := BitVec.ofInt 32 (100 * tc16 (be16 b 8)),
      soc := BitVec.ofNat 32 (s.params.socAMul * be16 b 10) } } 0)

/-- R152: DA.MMV. VDELTA is the exact difference, negative where the frame has VMIN > VMAX. -/
def Obligations.DaMmvDecodes : Prop :=
  ∀ (s : State) (b : Nat → Byte), s.ReadyA b →
    exec .daMmv s = .next (s.answer { s.fcd with err := .ok, res := { s.fcd.res with
      vmax := BitVec.ofNat 32 (be16 b 4), vmaxidx := (b 6).zeroExtend 32, vmin := BitVec.ofNat 32 (be16 b 7),
      vminidx := (b 9).zeroExtend 32, vdelta := BitVec.ofInt 32 ((be16 b 4 : Int) - be16 b 7) } } 0)

/-- R154: DA.MMT. -/
def Obligations.DaMmtDecodes : Prop :=
  ∀ (s : State) (b : Nat → Byte), s.ReadyA b →
    exec .daMmt s = .next (s.answer { s.fcd with err := .ok, res := { s.fcd.res with
      tmax := BitVec.ofInt 32 (10 * tc8 (b 4)), tmin := BitVec.ofInt 32 (10 * tc8 (b 6)) } } 0)

/-- R156: DA.STAT, counts clipped to 48 and 16. -/
def Obligations.DaStatDecodes : Prop :=
  ∀ (s : State) (b : Nat → Byte), s.ReadyA b →
    exec .daStat s = .next (s.answer { s.fcd with err := .ok, res := { s.fcd.res with
      cellcnt := if 48 < (b 4).toNat then 48 else (b 4).zeroExtend 32,
      tempcnt := if 16 < (b 5).toNat then 16 else (b 5).zeroExtend 32,
      chgstate := (b 6).zeroExtend 32, loadstate := (b 7).zeroExtend 32, cycles := BitVec.ofNat 32 (be16 b 10) } } 0)

/-- R158: DA.CELLV k writes cells 3k..3k+2 below CELLCNT from the 16-bit words at CELLV_A_OFF, and no other cell. -/
def Obligations.DaCellvDecodes : Prop :=
  ∀ (s : State) (b : Nat → Byte) (k : Nat), s.ReadyA b →
    exec (.daCellv k) s = .next (s.answer { s.fcd with
      err := .ok
      cv := Vector.ofFn fun i : Fin 48 =>
        if 3 * k ≤ i ∧ i < 3 * k + 3 ∧ i < s.fcd.res.cellcnt.toNat then
          BitVec.ofNat 16 (be16 b (s.params.cellvAOff + 2 * (i - 3 * k)))
        else s.fcd.cv[i] } 0)

/-- R160: DA.CELLT k writes sensors 7k..7k+6 below TEMPCNT from the signed bytes at CELLT_A_OFF, times 10, and no other. -/
def Obligations.DaCelltDecodes : Prop :=
  ∀ (s : State) (b : Nat → Byte) (k : Nat), s.ReadyA b →
    exec (.daCellt k) s = .next (s.answer { s.fcd with
      err := .ok
      t := Vector.ofFn fun i : Fin 16 =>
        if 7 * k ≤ i ∧ i < 7 * k + 7 ∧ i < s.fcd.res.tempcnt.toNat then
          BitVec.ofInt 32 (10 * tc8 (b (s.params.celltAOff + (i - 7 * k))))
        else s.fcd.t[i] } 0)

/-- R162: DA.BAL: cell i's flag is bit i mod 8 of frame byte BAL_A_OFF + i div 8. -/
def Obligations.DaBalDecodes : Prop :=
  ∀ (s : State) (b : Nat → Byte), s.ReadyA b →
    ∃ mask : Word, exec .daBal s = .next (s.answer { s.fcd with err := .ok, res := { s.fcd.res with balmask := mask } } 0) ∧
      ∀ i < 32, mask.getLsbD i = (b (s.params.balAOff + i / 8)).getLsbD (i % 8)

/-- R164: DA.FAIL copies the seven bytes from ALM_A_OFF on. -/
def Obligations.DaFailDecodes : Prop :=
  ∀ (s : State) (b : Nat → Byte), s.ReadyA b →
    exec .daFail s = .next (s.answer { s.fcd with
      err := .ok, alm := Vector.ofFn fun g : Fin 7 => b (s.params.almAOff + g) } 0)

/-- R166: DA.MOS. -/
def Obligations.DaMosDecodes : Prop :=
  ∀ (s : State) (b : Nat → Byte), s.ReadyA b →
    exec .daMos s = .next (s.answer { s.fcd with err := .ok, res := { s.fcd.res with
      chgfet := if b 4 = 0 then 0 else 1, dsgfet := if b 5 = 0 then 0 else 1,
      heartbeat := (b 6).zeroExtend 32, resid := BitVec.ofNat 32 (be16 b 8) } } 0)

/-- R171, R173: a DA.* operation that passes its precondition ends with OK, and every DA.* operation leaves FB, WP, VALID, VK, the
window, the accumulator, CAP, PROT, XR and FREG untouched. -/
def Obligations.VendorADecodersFrame : Prop :=
  ∀ (i : Instr) (s : State), isVendorA i = true → s.Inv → s.fcd.fault = false →
    ∃ t, exec i s = .next t ∧
      (s.fcd.valid = true → s.fcd.vk = some .vendorA → t.fcd.err = .ok ∧ t.fcd.fault = false) ∧
      t.fcd.fb = s.fcd.fb ∧ t.fcd.wp = s.fcd.wp ∧ t.fcd.valid = s.fcd.valid ∧ t.fcd.vk = s.fcd.vk ∧
      t.fcd.pbase = s.fcd.pbase ∧ t.fcd.plen = s.fcd.plen ∧ t.fcd.sum8 = s.fcd.sum8 ∧ t.fcd.sum16 = s.fcd.sum16 ∧
      t.fcd.res.cap = s.fcd.res.cap ∧ t.fcd.res.prot = s.fcd.res.prot ∧ t.fcd.xr = s.fcd.xr ∧ t.fcd.freg = s.fcd.freg

/-! ### Vendor-B decode (44_decode_vendor_b.md) -/

/-- R181, R182, R183: DB.HW over any well-formed LayoutB. It answers Truncated, and writes nothing but ERR, when the payload is
shorter than the fixed part or than one temperature per clipped sensor needs; otherwise it writes every field, PROT the word's
low 13 bits, counts clipped, one temperature per sensor. -/
def Obligations.DbHwDecodes : Prop :=
  ∀ (s : State) (d : Nat → Byte), s.ReadyB d →
    let l := s.params.layoutB
    let n := min (d l.offNtc).toNat 16
    exec .dbHw s = .next (s.answer
      (if s.fcd.plen < l.hwFixed ∨ s.fcd.plen < l.offTemps + 2 * n then { s.fcd with err := .truncated }
       else { s.fcd with
        err := .ok
        res := { s.fcd.res with
          vpack := BitVec.ofNat 32 (10 * be16 d l.offV), ipack := BitVec.ofInt 32 (10 * tc16 (be16 d l.offI)),
          cap := BitVec.ofNat 32 (10 * be16 d l.offCap), soc := BitVec.ofNat 32 (100 * (d l.offSoc).toNat),
          balmask := BitVec.ofNat 32 (65536 * be16 d l.offBalHi + be16 d l.offBalLo),
          prot := BitVec.ofNat 32 (be16 d l.offProt % 8192),
          chgfet := if (d l.offFet).getLsbD l.fetChgBit then 1 else 0,
          dsgfet := if (d l.offFet).getLsbD l.fetDsgBit then 1 else 0,
          cellcnt := BitVec.ofNat 32 (min (d l.offCells).toNat 48), tempcnt := BitVec.ofNat 32 n }
        t := Vector.ofFn fun i : Fin 16 =>
          if i < n then BitVec.ofInt 32 (tc16 (be16 d (l.offTemps + 2 * i)) - 2731) else s.fcd.t[i] }) 0)

/-- R184: DB.CELL on c = CELLCNT cells: Truncated with nothing but ERR written when the payload is shorter than 2c bytes; else
CV[0..c−1], the extremes with the lowest number of each, and their difference; with c = 0 the five are 0. -/
def Obligations.DbCellDecodes : Prop :=
  ∀ (s : State) (d : Nat → Byte), s.ReadyB d → s.fcd.res.cellcnt.toNat ≤ 48 →
    let c := s.fcd.res.cellcnt.toNat
    (s.fcd.plen < 2 * c → exec .dbCell s = .next (s.answer { s.fcd with err := .truncated } 0)) ∧
    (2 * c ≤ s.fcd.plen → ∃ mx imx mn imn : Nat,
      exec .dbCell s = .next (s.answer { s.fcd with
        err := .ok
        cv := Vector.ofFn fun i : Fin 48 => if i < c then BitVec.ofNat 16 (be16 d (2 * i)) else s.fcd.cv[i]
        res := { s.fcd.res with
          vmax := BitVec.ofNat 32 mx, vmaxidx := BitVec.ofNat 32 imx, vmin := BitVec.ofNat 32 mn,
          vminidx := BitVec.ofNat 32 imn, vdelta := BitVec.ofNat 32 (mx - mn) } } 0) ∧
      (c = 0 → mx = 0 ∧ imx = 0 ∧ mn = 0 ∧ imn = 0) ∧
      (0 < c → mn ≤ mx ∧
        1 ≤ imx ∧ imx ≤ c ∧ be16 d (2 * (imx - 1)) = mx ∧
        (∀ i < c, be16 d (2 * i) ≤ mx) ∧ (∀ i < imx - 1, be16 d (2 * i) < mx) ∧
        1 ≤ imn ∧ imn ≤ c ∧ be16 d (2 * (imn - 1)) = mn ∧
        (∀ i < c, mn ≤ be16 d (2 * i)) ∧ ∀ i < imn - 1, mn < be16 d (2 * i)))

/-- R185: the registers after a DB.CELL that ends with OK on at least one cell. -/
def Obligations.DbCellStatisticsAgreeWithArray : Prop :=
  ∀ (s t : State), s.Inv → s.fcd.fault = false → exec .dbCell s = .next t → t.fcd.fault = false → t.fcd.err = .ok →
    1 ≤ s.fcd.res.cellcnt.toNat →
    let c := s.fcd.res.cellcnt.toNat
    let r := t.fcd.res
    let cell := fun i : Nat => (t.fcd.cv[i]?.getD 0).toNat
    1 ≤ r.vminidx.toNat ∧ r.vminidx.toNat ≤ c ∧ 1 ≤ r.vmaxidx.toNat ∧ r.vmaxidx.toNat ≤ c ∧
    cell (r.vminidx.toNat - 1) = r.vmin.toNat ∧ cell (r.vmaxidx.toNat - 1) = r.vmax.toNat ∧
    (∀ i < c, r.vmin.toNat ≤ cell i ∧ cell i ≤ r.vmax.toNat) ∧
    (∀ i < r.vminidx.toNat - 1, cell i ≠ r.vmin.toNat) ∧ (∀ i < r.vmaxidx.toNat - 1, cell i ≠ r.vmax.toNat) ∧
    r.vmin.toNat ≤ r.vmax.toNat ∧ r.vdelta.toInt = (r.vmax.toNat : Int) - r.vmin.toNat

/-- R186: a DB.* operation either ends with OK or writes none of its registers (ERR and the fault fields apart); it leaves FB, WP,
VALID, VK, the window, the accumulator, FREG and the registers no DB.* operation writes untouched. -/
def Obligations.VendorBDecodersAllOrNothing : Prop :=
  ∀ (i : Instr) (s t : State), isVendorB i = true → exec i s = .next t →
    (t.fcd.fault = true ∨ t.fcd.err ≠ .ok →
      t.fcd = { s.fcd with err := t.fcd.err, fault := t.fcd.fault, fcode := t.fcd.fcode }) ∧
    t.fcd.fb = s.fcd.fb ∧ t.fcd.wp = s.fcd.wp ∧ t.fcd.valid = s.fcd.valid ∧ t.fcd.vk = s.fcd.vk ∧
    t.fcd.pbase = s.fcd.pbase ∧ t.fcd.plen = s.fcd.plen ∧ t.fcd.sum8 = s.fcd.sum8 ∧ t.fcd.sum16 = s.fcd.sum16 ∧
    t.fcd.freg = s.fcd.freg ∧ t.fcd.xr = s.fcd.xr ∧ t.fcd.alm = s.fcd.alm ∧
    t.fcd.res.tmax = s.fcd.res.tmax ∧ t.fcd.res.tmin = s.fcd.res.tmin ∧ t.fcd.res.chgstate = s.fcd.res.chgstate ∧
    t.fcd.res.loadstate = s.fcd.res.loadstate ∧ t.fcd.res.cycles = s.fcd.res.cycles ∧
    t.fcd.res.heartbeat = s.fcd.res.heartbeat ∧ t.fcd.res.resid = s.fcd.res.resid

/-! ### Extract operations (45_field_extract.md) -/

/-- R201, R202, R205: the one-byte extract operations inside the window. -/
def Obligations.ExtractByteValues : Prop :=
  ∀ (s : State) (d : Nat → Byte) (off : Byte) (k : Nat), s.ReadyWindow d → off.toNat + 1 ≤ s.fcd.plen → k < 8 →
    (∀ p ∈ [(Instr.xu8 off, (d off.toNat).zeroExtend 32), (.xs8 off, BitVec.ofInt 32 (tc8 (d off.toNat))),
        (.xbit off k, if (d off.toNat).getLsbD k then 1 else 0)],
      exec p.1 s = .next (s.answer { s.fcd with xr := p.2, err := .ok } p.2))

/-- R203, R204, R206, R207: the two-byte extract operations inside the window; bit k of XBIT16 is a bit of the byte at off + 1
for k < 8 and of the byte at off above. -/
def Obligations.ExtractWordValues : Prop :=
  ∀ (s : State) (d : Nat → Byte) (off : Byte) (k : Nat), s.ReadyWindow d → off.toNat + 2 ≤ s.fcd.plen → k < 16 →
    (∀ p ∈ [(Instr.xu16 off, BitVec.ofNat 32 (be16 d off.toNat)), (.xs16 off, BitVec.ofInt 32 (tc16 (be16 d off.toNat))),
        (.xbit16 off k,
          if (if k < 8 then (d (off.toNat + 1)).getLsbD k else (d off.toNat).getLsbD (k - 8)) then 1 else 0),
        (.xk16 off, BitVec.ofInt 32 (tc16 (be16 d off.toNat) - 2731))],
      exec p.1 s = .next (s.answer { s.fcd with xr := p.2, err := .ok } p.2))

/-- R200: the common rules of the family: NotValidated first, then Truncated with XR unchanged, then XR, ERR = OK and XR as the
response's data; nothing else is written. -/
def Obligations.ExtractFamilyRule : Prop :=
  ∀ (i : Instr) (s : State) (off : Byte) (width : Nat), extractSite i = some (off, width) → s.Inv → s.fcd.fault = false →
    if s.fcd.valid = false then exec i s = .next (s.answer (s.fcd.faulted .notValidated) 0)
    else if off.toNat + width ≤ s.fcd.plen then
      ∃ v, exec i s = .next (s.answer { s.fcd with xr := v, err := .ok } v)
    else exec i s = .next (s.answer { s.fcd with err := .truncated } 0)

/-- R208: the per-command decoders are compositions of the extract operations and integer scaling, on the same frame. -/
def Obligations.DecodersComposeExtracts : Prop :=
  ∀ s : State, s.Inv → s.fcd.fault = false →
    (∀ t a b c, exec .daVis s = .next t → exec (.xu16 4) s = .next a → exec (.xs16 8) s = .next b →
      exec (.xu16 10) s = .next c → s.fcd.valid = true → s.fcd.vk = some .vendorA →
      t.fcd.res.vpack.toNat = a.fcd.xr.toNat * 100 ∧ t.fcd.res.ipack.toInt = b.fcd.xr.toInt * 100 ∧
      t.fcd.res.soc.toNat = c.fcd.xr.toNat * s.params.socAMul) ∧
    (∀ t, exec .dbHw s = .next t → s.fcd.valid = true → s.fcd.vk = some .vendorB → t.fcd.err = .ok →
      let l := s.params.layoutB
      (∀ (i : Fin 16) u, i < t.fcd.res.tempcnt.toNat → exec (.xk16 (BitVec.ofNat 8 (l.offTemps + 2 * i))) s = .next u →
        t.fcd.t[i] = u.fcd.xr) ∧
      (∀ u, exec (.xbit (BitVec.ofNat 8 l.offFet) l.fetChgBit) s = .next u → t.fcd.res.chgfet = u.fcd.xr) ∧
      (∀ u, exec (.xbit (BitVec.ofNat 8 l.offFet) l.fetDsgBit) s = .next u → t.fcd.res.dsgfet = u.fcd.xr) ∧
      ∀ k u, k ≤ 12 → exec (.xbit16 (BitVec.ofNat 8 l.offProt) k) s = .next u →
        u.fcd.xr = if t.fcd.res.prot.getLsbD k then 1 else 0)
end

