-- ==== Sys2Proof/Laws/Config.lean ====
section
/-! SUPPORT. What a well-formed parameter record gives (spec/00_scope.md R5). -/

namespace Sys2Proof

/-- What `inVendorAData` says. -/
theorem inVendorAData_iff (off len : Nat) : inVendorAData off len = true ↔ 4 ≤ off ∧ off + len ≤ 12 := by
  simp only [inVendorAData, Bool.and_eq_true, decide_eq_true_eq]
  rfl

/-- The vendor-A offsets keep their fields inside the data bytes; SOC_A_MUL is 1 to 10. -/
theorem Params.vendorA (p : Params) :
    p.layoutB.wellFormed = true ∧ (4 ≤ p.aPayloadOff ∧ p.aPayloadOff + 1 ≤ 12) ∧
    (4 ≤ p.cellvAOff ∧ p.cellvAOff + 6 ≤ 12) ∧ (4 ≤ p.celltAOff ∧ p.celltAOff + 7 ≤ 12) ∧
    (4 ≤ p.balAOff ∧ p.balAOff + 4 ≤ 12) ∧ (4 ≤ p.almAOff ∧ p.almAOff + 7 ≤ 12) ∧ 1 ≤ p.socAMul ∧ p.socAMul ≤ 10 := by
  have h := p.wf
  simp only [ParamValues.wellFormed, Bool.and_eq_true, inVendorAData_iff, decide_eq_true_eq] at h
  obtain ⟨⟨⟨⟨⟨⟨⟨h0, h1⟩, h2⟩, h3⟩, h4⟩, h5⟩, h6⟩, h7⟩ := h
  exact ⟨h0, h1, h2, h3, h4, h5, h6, h7⟩

/-- R5's condition on LayoutB, clause by clause. -/
theorem LayoutB.bounds {l : LayoutB} (h : l.wellFormed = true) :
    l.offV + 2 ≤ l.hwFixed ∧ l.offI + 2 ≤ l.hwFixed ∧ l.offCap + 2 ≤ l.hwFixed ∧ l.offBalLo + 2 ≤ l.hwFixed ∧
    l.offBalHi + 2 ≤ l.hwFixed ∧ l.offProt + 2 ≤ l.hwFixed ∧ l.offSoc + 1 ≤ l.hwFixed ∧ l.offFet + 1 ≤ l.hwFixed ∧
    l.offCells + 1 ≤ l.hwFixed ∧ l.offNtc + 1 ≤ l.hwFixed ∧ l.hwFixed ≤ l.offTemps ∧ l.offTemps + 32 ≤ 255 ∧
    l.fetChgBit ≤ 7 ∧ l.fetDsgBit ≤ 7 := by
  simp only [LayoutB.wellFormed, List.all_cons, List.all_nil, Bool.and_true, Bool.and_eq_true, decide_eq_true_eq] at h
  simp only [Config.maxTempSensors] at h
  omega

/-- R5's condition on the machine's own LayoutB. -/
theorem Params.layoutBounds (p : Params) :
    p.layoutB.offV + 2 ≤ p.layoutB.hwFixed ∧ p.layoutB.offI + 2 ≤ p.layoutB.hwFixed ∧
    p.layoutB.offCap + 2 ≤ p.layoutB.hwFixed ∧ p.layoutB.offBalLo + 2 ≤ p.layoutB.hwFixed ∧
    p.layoutB.offBalHi + 2 ≤ p.layoutB.hwFixed ∧ p.layoutB.offProt + 2 ≤ p.layoutB.hwFixed ∧
    p.layoutB.offSoc + 1 ≤ p.layoutB.hwFixed ∧ p.layoutB.offFet + 1 ≤ p.layoutB.hwFixed ∧
    p.layoutB.offCells + 1 ≤ p.layoutB.hwFixed ∧ p.layoutB.offNtc + 1 ≤ p.layoutB.hwFixed ∧
    p.layoutB.hwFixed ≤ p.layoutB.offTemps ∧ p.layoutB.offTemps + 32 ≤ 255 ∧
    p.layoutB.fetChgBit ≤ 7 ∧ p.layoutB.fetDsgBit ≤ 7 := LayoutB.bounds p.vendorA.1

end Sys2Proof
end

