-- ==== Sys2Proof/Laws/Decode.lean ====
section
/-! SUPPORT. A command word and its four fields hold the same information (spec/30_encoding.md R84). -/

namespace Sys2Proof

/-- The word of four fields as a number (R91). -/
theorem Fields.join_toNat (f : Fields) :
    f.join.toNat = f.op.toNat * 2 ^ 24 + f.a.toNat * 2 ^ 16 + f.b.toNat * 2 ^ 8 + f.c.toNat := by
  have := f.op.isLt
  have := f.a.isLt
  have := f.b.isLt
  have := f.c.isLt
  simp only [Fields.join, BitVec.toNat_append]
  rw [← Nat.shiftLeft_add_eq_or_of_lt (by omega), ← Nat.shiftLeft_add_eq_or_of_lt (by omega),
    ← Nat.shiftLeft_add_eq_or_of_lt (by omega)]
  simp only [Nat.shiftLeft_eq]
  omega

/-- `op` is bits 31:24. -/
theorem Fields.split_op_toNat (w : Word) : (Fields.split w).op.toNat = w.toNat / 2 ^ 24 := by
  have := w.isLt
  simp [Fields.split, BitVec.extractLsb'_toNat, Nat.shiftRight_eq_div_pow]
  omega

/-- `a` is bits 23:16. -/
theorem Fields.split_a_toNat (w : Word) : (Fields.split w).a.toNat = w.toNat / 2 ^ 16 % 256 := by
  simp [Fields.split, BitVec.extractLsb'_toNat, Nat.shiftRight_eq_div_pow]

/-- `b` is bits 15:8. -/
theorem Fields.split_b_toNat (w : Word) : (Fields.split w).b.toNat = w.toNat / 2 ^ 8 % 256 := by
  simp [Fields.split, BitVec.extractLsb'_toNat, Nat.shiftRight_eq_div_pow]

/-- `c` is bits 7:0. -/
theorem Fields.split_c_toNat (w : Word) : (Fields.split w).c.toNat = w.toNat % 256 := by
  simp [Fields.split, BitVec.extractLsb'_toNat]

/-- Fields are equal when they are equal as numbers. -/
theorem Fields.eq_of_toNat {f g : Fields} (ho : f.op.toNat = g.op.toNat) (ha : f.a.toNat = g.a.toNat)
    (hb : f.b.toNat = g.b.toNat) (hc : f.c.toNat = g.c.toNat) : f = g := by
  obtain ⟨o, a, b, c⟩ := f
  obtain ⟨o', a', b', c'⟩ := g
  rw [Fields.mk.injEq]
  exact ⟨BitVec.eq_of_toNat_eq ho, BitVec.eq_of_toNat_eq ha, BitVec.eq_of_toNat_eq hb, BitVec.eq_of_toNat_eq hc⟩

/-- Joining loses nothing. -/
@[simp] theorem Fields.split_join (f : Fields) : Fields.split f.join = f := by
  have := f.op.isLt
  have := f.a.isLt
  have := f.b.isLt
  have := f.c.isLt
  apply Fields.eq_of_toNat <;>
    simp only [Fields.split_op_toNat, Fields.split_a_toNat, Fields.split_b_toNat, Fields.split_c_toNat, Fields.join_toNat] <;>
    omega

/-- Splitting loses nothing. -/
@[simp] theorem Fields.join_split (w : Word) : (Fields.split w).join = w := by
  apply BitVec.eq_of_toNat_eq
  simp only [Fields.split_op_toNat, Fields.split_a_toNat, Fields.split_b_toNat, Fields.split_c_toNat, Fields.join_toNat]
  omega

/-- A format that accepts has its unused bits zero and gives its own instruction (R85, R88). -/
theorem Fields.require_ok {f : Fields} {unusedZero : Bool} {i j : Instr} (h : f.require unusedZero i = .ok j) :
    unusedZero = true ∧ i = j := by
  cases unusedZero <;> simp [Fields.require] at h
  exact ⟨rfl, h⟩

/-- The encoder's word decodes as the encoder's fields do. -/
theorem decode_encode_fields (i : Instr) : decode (encode i) = (encodeFields i).decode := by
  rw [decode, encode, Fields.split_join]

/-- A word matches a mask and pattern when its four fields do (R86). -/
theorem and_eq_iff_fields (w mask pattern : Word) :
    w &&& mask = pattern ↔
      (Fields.split w).op &&& (Fields.split mask).op = (Fields.split pattern).op ∧
      (Fields.split w).a &&& (Fields.split mask).a = (Fields.split pattern).a ∧
      (Fields.split w).b &&& (Fields.split mask).b = (Fields.split pattern).b ∧
      (Fields.split w).c &&& (Fields.split mask).c = (Fields.split pattern).c := by
  have h : ∀ x y : Word, x = y ↔ Fields.split x = Fields.split y :=
    fun x y => ⟨fun h => h ▸ rfl, fun h => by rw [← Fields.join_split x, h, Fields.join_split]⟩
  rw [h]
  simp only [Fields.split, Fields.mk.injEq, BitVec.extractLsb'_and]

/-- A byte under the mask of a 1-bit operand. -/
theorem byte_and_fe (x : Byte) : x &&& 0xFE#8 = 0#8 ↔ x.toNat < 2 := by revert x; decide

/-- A byte under the mask of a 2-bit operand. -/
theorem byte_and_fc (x : Byte) : x &&& 0xFC#8 = 0#8 ↔ x.toNat < 4 := by revert x; decide

/-- A byte under the mask of a 3-bit operand. -/
theorem byte_and_f8 (x : Byte) : x &&& 0xF8#8 = 0#8 ↔ x.toNat < 8 := by revert x; decide

/-- A byte under the mask of a 4-bit operand. -/
theorem byte_and_f0 (x : Byte) : x &&& 0xF0#8 = 0#8 ↔ x.toNat < 16 := by revert x; decide

/-- A byte under the full mask. -/
theorem byte_and_ff (x : Byte) : x &&& 0xFF#8 = x := by revert x; decide

end Sys2Proof
end

