-- ==== Sys2Proof/Laws/State.lean ====
section
/-! SUPPORT. Field by field, what each named update of the unit and of the machine state leaves, so that no proof unfolds a record
update. -/

namespace Sys2Proof
namespace Machine

/-! ### invalidate -/

@[simp] theorem Fcd.invalidate_fb (f : Fcd) : f.invalidate.fb = f.fb := rfl
@[simp] theorem Fcd.invalidate_wp (f : Fcd) : f.invalidate.wp = f.wp := rfl
@[simp] theorem Fcd.invalidate_valid (f : Fcd) : f.invalidate.valid = false := rfl
@[simp] theorem Fcd.invalidate_vk (f : Fcd) : f.invalidate.vk = none := rfl
@[simp] theorem Fcd.invalidate_pbase (f : Fcd) : f.invalidate.pbase = 0 := rfl
@[simp] theorem Fcd.invalidate_plen (f : Fcd) : f.invalidate.plen = 0 := rfl
@[simp] theorem Fcd.invalidate_freg (f : Fcd) : f.invalidate.freg = f.freg := rfl
@[simp] theorem Fcd.invalidate_err (f : Fcd) : f.invalidate.err = f.err := rfl
@[simp] theorem Fcd.invalidate_fault (f : Fcd) : f.invalidate.fault = f.fault := rfl
@[simp] theorem Fcd.invalidate_fcode (f : Fcd) : f.invalidate.fcode = f.fcode := rfl
@[simp] theorem Fcd.invalidate_sum8 (f : Fcd) : f.invalidate.sum8 = f.sum8 := rfl
@[simp] theorem Fcd.invalidate_sum16 (f : Fcd) : f.invalidate.sum16 = f.sum16 := rfl
@[simp] theorem Fcd.invalidate_xr (f : Fcd) : f.invalidate.xr = f.xr := rfl
@[simp] theorem Fcd.invalidate_res (f : Fcd) : f.invalidate.res = f.res := rfl
@[simp] theorem Fcd.invalidate_alm (f : Fcd) : f.invalidate.alm = f.alm := rfl
@[simp] theorem Fcd.invalidate_cv (f : Fcd) : f.invalidate.cv = f.cv := rfl
@[simp] theorem Fcd.invalidate_t (f : Fcd) : f.invalidate.t = f.t := rfl

/-! ### unchecked -/

@[simp] theorem Fcd.unchecked_fb (f : Fcd) : f.unchecked.fb = f.fb := rfl
@[simp] theorem Fcd.unchecked_wp (f : Fcd) : f.unchecked.wp = f.wp := rfl
@[simp] theorem Fcd.unchecked_valid (f : Fcd) : f.unchecked.valid = false := rfl
@[simp] theorem Fcd.unchecked_vk (f : Fcd) : f.unchecked.vk = none := rfl
@[simp] theorem Fcd.unchecked_pbase (f : Fcd) : f.unchecked.pbase = 0 := rfl
@[simp] theorem Fcd.unchecked_plen (f : Fcd) : f.unchecked.plen = 0 := rfl
@[simp] theorem Fcd.unchecked_freg (f : Fcd) : f.unchecked.freg = f.freg := rfl
@[simp] theorem Fcd.unchecked_err (f : Fcd) : f.unchecked.err = f.err := rfl
@[simp] theorem Fcd.unchecked_fault (f : Fcd) : f.unchecked.fault = f.fault := rfl
@[simp] theorem Fcd.unchecked_fcode (f : Fcd) : f.unchecked.fcode = f.fcode := rfl
@[simp] theorem Fcd.unchecked_sum8 (f : Fcd) : f.unchecked.sum8 = f.sum8 := rfl
@[simp] theorem Fcd.unchecked_sum16 (f : Fcd) : f.unchecked.sum16 = f.sum16 := rfl
@[simp] theorem Fcd.unchecked_xr (f : Fcd) : f.unchecked.xr = f.xr := rfl
@[simp] theorem Fcd.unchecked_res (f : Fcd) : f.unchecked.res = f.res := rfl
@[simp] theorem Fcd.unchecked_alm (f : Fcd) : f.unchecked.alm = f.alm := rfl
@[simp] theorem Fcd.unchecked_cv (f : Fcd) : f.unchecked.cv = f.cv := rfl
@[simp] theorem Fcd.unchecked_t (f : Fcd) : f.unchecked.t = f.t := rfl

/-! ### validate -/

@[simp] theorem Fcd.validate_fb (f : Fcd) (v : Vendor) (base len : Nat) : (f.validate v base len).fb = f.fb := rfl
@[simp] theorem Fcd.validate_wp (f : Fcd) (v : Vendor) (base len : Nat) : (f.validate v base len).wp = f.wp := rfl
@[simp] theorem Fcd.validate_valid (f : Fcd) (v : Vendor) (base len : Nat) : (f.validate v base len).valid = true := rfl
@[simp] theorem Fcd.validate_vk (f : Fcd) (v : Vendor) (base len : Nat) : (f.validate v base len).vk = some v := rfl
@[simp] theorem Fcd.validate_pbase (f : Fcd) (v : Vendor) (base len : Nat) : (f.validate v base len).pbase = base := rfl
@[simp] theorem Fcd.validate_plen (f : Fcd) (v : Vendor) (base len : Nat) : (f.validate v base len).plen = len := rfl
@[simp] theorem Fcd.validate_freg (f : Fcd) (v : Vendor) (base len : Nat) : (f.validate v base len).freg = f.freg := rfl
@[simp] theorem Fcd.validate_err (f : Fcd) (v : Vendor) (base len : Nat) : (f.validate v base len).err = f.err := rfl
@[simp] theorem Fcd.validate_fault (f : Fcd) (v : Vendor) (base len : Nat) : (f.validate v base len).fault = f.fault := rfl
@[simp] theorem Fcd.validate_fcode (f : Fcd) (v : Vendor) (base len : Nat) : (f.validate v base len).fcode = f.fcode := rfl
@[simp] theorem Fcd.validate_sum8 (f : Fcd) (v : Vendor) (base len : Nat) : (f.validate v base len).sum8 = f.sum8 := rfl
@[simp] theorem Fcd.validate_sum16 (f : Fcd) (v : Vendor) (base len : Nat) : (f.validate v base len).sum16 = f.sum16 := rfl
@[simp] theorem Fcd.validate_xr (f : Fcd) (v : Vendor) (base len : Nat) : (f.validate v base len).xr = f.xr := rfl
@[simp] theorem Fcd.validate_res (f : Fcd) (v : Vendor) (base len : Nat) : (f.validate v base len).res = f.res := rfl
@[simp] theorem Fcd.validate_alm (f : Fcd) (v : Vendor) (base len : Nat) : (f.validate v base len).alm = f.alm := rfl
@[simp] theorem Fcd.validate_cv (f : Fcd) (v : Vendor) (base len : Nat) : (f.validate v base len).cv = f.cv := rfl
@[simp] theorem Fcd.validate_t (f : Fcd) (v : Vendor) (base len : Nat) : (f.validate v base len).t = f.t := rfl

/-! ### clearSums -/

@[simp] theorem Fcd.clearSums_fb (f : Fcd) : f.clearSums.fb = f.fb := rfl
@[simp] theorem Fcd.clearSums_wp (f : Fcd) : f.clearSums.wp = f.wp := rfl
@[simp] theorem Fcd.clearSums_valid (f : Fcd) : f.clearSums.valid = f.valid := rfl
@[simp] theorem Fcd.clearSums_vk (f : Fcd) : f.clearSums.vk = f.vk := rfl
@[simp] theorem Fcd.clearSums_pbase (f : Fcd) : f.clearSums.pbase = f.pbase := rfl
@[simp] theorem Fcd.clearSums_plen (f : Fcd) : f.clearSums.plen = f.plen := rfl
@[simp] theorem Fcd.clearSums_freg (f : Fcd) : f.clearSums.freg = f.freg := rfl
@[simp] theorem Fcd.clearSums_err (f : Fcd) : f.clearSums.err = f.err := rfl
@[simp] theorem Fcd.clearSums_fault (f : Fcd) : f.clearSums.fault = f.fault := rfl
@[simp] theorem Fcd.clearSums_fcode (f : Fcd) : f.clearSums.fcode = f.fcode := rfl
@[simp] theorem Fcd.clearSums_sum8 (f : Fcd) : f.clearSums.sum8 = 0 := rfl
@[simp] theorem Fcd.clearSums_sum16 (f : Fcd) : f.clearSums.sum16 = 0 := rfl
@[simp] theorem Fcd.clearSums_xr (f : Fcd) : f.clearSums.xr = f.xr := rfl
@[simp] theorem Fcd.clearSums_res (f : Fcd) : f.clearSums.res = f.res := rfl
@[simp] theorem Fcd.clearSums_alm (f : Fcd) : f.clearSums.alm = f.alm := rfl
@[simp] theorem Fcd.clearSums_cv (f : Fcd) : f.clearSums.cv = f.cv := rfl
@[simp] theorem Fcd.clearSums_t (f : Fcd) : f.clearSums.t = f.t := rfl

/-! ### feed -/

@[simp] theorem Fcd.feed_fb (f : Fcd) (b : Byte) : (f.feed b).fb = f.fb := rfl
@[simp] theorem Fcd.feed_wp (f : Fcd) (b : Byte) : (f.feed b).wp = f.wp := rfl
@[simp] theorem Fcd.feed_valid (f : Fcd) (b : Byte) : (f.feed b).valid = f.valid := rfl
@[simp] theorem Fcd.feed_vk (f : Fcd) (b : Byte) : (f.feed b).vk = f.vk := rfl
@[simp] theorem Fcd.feed_pbase (f : Fcd) (b : Byte) : (f.feed b).pbase = f.pbase := rfl
@[simp] theorem Fcd.feed_plen (f : Fcd) (b : Byte) : (f.feed b).plen = f.plen := rfl
@[simp] theorem Fcd.feed_freg (f : Fcd) (b : Byte) : (f.feed b).freg = f.freg := rfl
@[simp] theorem Fcd.feed_err (f : Fcd) (b : Byte) : (f.feed b).err = f.err := rfl
@[simp] theorem Fcd.feed_fault (f : Fcd) (b : Byte) : (f.feed b).fault = f.fault := rfl
@[simp] theorem Fcd.feed_fcode (f : Fcd) (b : Byte) : (f.feed b).fcode = f.fcode := rfl
@[simp] theorem Fcd.feed_sum8 (f : Fcd) (b : Byte) : (f.feed b).sum8 = BitVec.ofNat 8 (f.sum8.toNat + b.toNat) := rfl
@[simp] theorem Fcd.feed_sum16 (f : Fcd) (b : Byte) : (f.feed b).sum16 = BitVec.ofNat 16 (f.sum16.toNat + b.toNat) := rfl
@[simp] theorem Fcd.feed_xr (f : Fcd) (b : Byte) : (f.feed b).xr = f.xr := rfl
@[simp] theorem Fcd.feed_res (f : Fcd) (b : Byte) : (f.feed b).res = f.res := rfl
@[simp] theorem Fcd.feed_alm (f : Fcd) (b : Byte) : (f.feed b).alm = f.alm := rfl
@[simp] theorem Fcd.feed_cv (f : Fcd) (b : Byte) : (f.feed b).cv = f.cv := rfl
@[simp] theorem Fcd.feed_t (f : Fcd) (b : Byte) : (f.feed b).t = f.t := rfl

/-! ### sumOver -/

@[simp] theorem Fcd.sumOver_fb (f : Fcd) (bs : List Byte) : (f.sumOver bs).fb = f.fb := rfl
@[simp] theorem Fcd.sumOver_wp (f : Fcd) (bs : List Byte) : (f.sumOver bs).wp = f.wp := rfl
@[simp] theorem Fcd.sumOver_valid (f : Fcd) (bs : List Byte) : (f.sumOver bs).valid = f.valid := rfl
@[simp] theorem Fcd.sumOver_vk (f : Fcd) (bs : List Byte) : (f.sumOver bs).vk = f.vk := rfl
@[simp] theorem Fcd.sumOver_pbase (f : Fcd) (bs : List Byte) : (f.sumOver bs).pbase = f.pbase := rfl
@[simp] theorem Fcd.sumOver_plen (f : Fcd) (bs : List Byte) : (f.sumOver bs).plen = f.plen := rfl
@[simp] theorem Fcd.sumOver_freg (f : Fcd) (bs : List Byte) : (f.sumOver bs).freg = f.freg := rfl
@[simp] theorem Fcd.sumOver_err (f : Fcd) (bs : List Byte) : (f.sumOver bs).err = f.err := rfl
@[simp] theorem Fcd.sumOver_fault (f : Fcd) (bs : List Byte) : (f.sumOver bs).fault = f.fault := rfl
@[simp] theorem Fcd.sumOver_fcode (f : Fcd) (bs : List Byte) : (f.sumOver bs).fcode = f.fcode := rfl
@[simp] theorem Fcd.sumOver_sum8 (f : Fcd) (bs : List Byte) : (f.sumOver bs).sum8 = byteSum8 bs := rfl
@[simp] theorem Fcd.sumOver_sum16 (f : Fcd) (bs : List Byte) : (f.sumOver bs).sum16 = byteSum16 bs := rfl
@[simp] theorem Fcd.sumOver_xr (f : Fcd) (bs : List Byte) : (f.sumOver bs).xr = f.xr := rfl
@[simp] theorem Fcd.sumOver_res (f : Fcd) (bs : List Byte) : (f.sumOver bs).res = f.res := rfl
@[simp] theorem Fcd.sumOver_alm (f : Fcd) (bs : List Byte) : (f.sumOver bs).alm = f.alm := rfl
@[simp] theorem Fcd.sumOver_cv (f : Fcd) (bs : List Byte) : (f.sumOver bs).cv = f.cv := rfl
@[simp] theorem Fcd.sumOver_t (f : Fcd) (bs : List Byte) : (f.sumOver bs).t = f.t := rfl

/-! ### withSum -/

@[simp] theorem Fcd.withSum_fb (f : Fcd) (n : Nat) : (f.withSum n).fb = f.fb := rfl
@[simp] theorem Fcd.withSum_wp (f : Fcd) (n : Nat) : (f.withSum n).wp = f.wp := rfl
@[simp] theorem Fcd.withSum_valid (f : Fcd) (n : Nat) : (f.withSum n).valid = f.valid := rfl
@[simp] theorem Fcd.withSum_vk (f : Fcd) (n : Nat) : (f.withSum n).vk = f.vk := rfl
@[simp] theorem Fcd.withSum_pbase (f : Fcd) (n : Nat) : (f.withSum n).pbase = f.pbase := rfl
@[simp] theorem Fcd.withSum_plen (f : Fcd) (n : Nat) : (f.withSum n).plen = f.plen := rfl
@[simp] theorem Fcd.withSum_freg (f : Fcd) (n : Nat) : (f.withSum n).freg = f.freg := rfl
@[simp] theorem Fcd.withSum_err (f : Fcd) (n : Nat) : (f.withSum n).err = f.err := rfl
@[simp] theorem Fcd.withSum_fault (f : Fcd) (n : Nat) : (f.withSum n).fault = f.fault := rfl
@[simp] theorem Fcd.withSum_fcode (f : Fcd) (n : Nat) : (f.withSum n).fcode = f.fcode := rfl
@[simp] theorem Fcd.withSum_sum8 (f : Fcd) (n : Nat) : (f.withSum n).sum8 = BitVec.ofNat 8 n := rfl
@[simp] theorem Fcd.withSum_sum16 (f : Fcd) (n : Nat) : (f.withSum n).sum16 = BitVec.ofNat 16 n := rfl
@[simp] theorem Fcd.withSum_xr (f : Fcd) (n : Nat) : (f.withSum n).xr = f.xr := rfl
@[simp] theorem Fcd.withSum_res (f : Fcd) (n : Nat) : (f.withSum n).res = f.res := rfl
@[simp] theorem Fcd.withSum_alm (f : Fcd) (n : Nat) : (f.withSum n).alm = f.alm := rfl
@[simp] theorem Fcd.withSum_cv (f : Fcd) (n : Nat) : (f.withSum n).cv = f.cv := rfl
@[simp] theorem Fcd.withSum_t (f : Fcd) (n : Nat) : (f.withSum n).t = f.t := rfl

/-! ### faulted -/

@[simp] theorem Fcd.faulted_fb (f : Fcd) (c : Cause) : (f.faulted c).fb = f.fb := rfl
@[simp] theorem Fcd.faulted_wp (f : Fcd) (c : Cause) : (f.faulted c).wp = f.wp := rfl
@[simp] theorem Fcd.faulted_valid (f : Fcd) (c : Cause) : (f.faulted c).valid = f.valid := rfl
@[simp] theorem Fcd.faulted_vk (f : Fcd) (c : Cause) : (f.faulted c).vk = f.vk := rfl
@[simp] theorem Fcd.faulted_pbase (f : Fcd) (c : Cause) : (f.faulted c).pbase = f.pbase := rfl
@[simp] theorem Fcd.faulted_plen (f : Fcd) (c : Cause) : (f.faulted c).plen = f.plen := rfl
@[simp] theorem Fcd.faulted_freg (f : Fcd) (c : Cause) : (f.faulted c).freg = f.freg := rfl
@[simp] theorem Fcd.faulted_err (f : Fcd) (c : Cause) : (f.faulted c).err = f.err := rfl
@[simp] theorem Fcd.faulted_fault (f : Fcd) (c : Cause) : (f.faulted c).fault = true := rfl
@[simp] theorem Fcd.faulted_fcode (f : Fcd) (c : Cause) : (f.faulted c).fcode = some c := rfl
@[simp] theorem Fcd.faulted_sum8 (f : Fcd) (c : Cause) : (f.faulted c).sum8 = f.sum8 := rfl
@[simp] theorem Fcd.faulted_sum16 (f : Fcd) (c : Cause) : (f.faulted c).sum16 = f.sum16 := rfl
@[simp] theorem Fcd.faulted_xr (f : Fcd) (c : Cause) : (f.faulted c).xr = f.xr := rfl
@[simp] theorem Fcd.faulted_res (f : Fcd) (c : Cause) : (f.faulted c).res = f.res := rfl
@[simp] theorem Fcd.faulted_alm (f : Fcd) (c : Cause) : (f.faulted c).alm = f.alm := rfl
@[simp] theorem Fcd.faulted_cv (f : Fcd) (c : Cause) : (f.faulted c).cv = f.cv := rfl
@[simp] theorem Fcd.faulted_t (f : Fcd) (c : Cause) : (f.faulted c).t = f.t := rfl

/-! ### loadFrame -/

@[simp] theorem Fcd.loadFrame_fb (f : Fcd) (bs : List Byte) : (f.loadFrame bs).fb = f.fb.writeList 0 bs := rfl
@[simp] theorem Fcd.loadFrame_wp (f : Fcd) (bs : List Byte) : (f.loadFrame bs).wp = bs.length := rfl
@[simp] theorem Fcd.loadFrame_valid (f : Fcd) (bs : List Byte) : (f.loadFrame bs).valid = false := rfl
@[simp] theorem Fcd.loadFrame_vk (f : Fcd) (bs : List Byte) : (f.loadFrame bs).vk = none := rfl
@[simp] theorem Fcd.loadFrame_pbase (f : Fcd) (bs : List Byte) : (f.loadFrame bs).pbase = 0 := rfl
@[simp] theorem Fcd.loadFrame_plen (f : Fcd) (bs : List Byte) : (f.loadFrame bs).plen = 0 := rfl
@[simp] theorem Fcd.loadFrame_freg (f : Fcd) (bs : List Byte) : (f.loadFrame bs).freg = f.freg := rfl
@[simp] theorem Fcd.loadFrame_err (f : Fcd) (bs : List Byte) : (f.loadFrame bs).err = f.err := rfl
@[simp] theorem Fcd.loadFrame_fault (f : Fcd) (bs : List Byte) : (f.loadFrame bs).fault = f.fault := rfl
@[simp] theorem Fcd.loadFrame_fcode (f : Fcd) (bs : List Byte) : (f.loadFrame bs).fcode = f.fcode := rfl
@[simp] theorem Fcd.loadFrame_sum8 (f : Fcd) (bs : List Byte) : (f.loadFrame bs).sum8 = f.sum8 := rfl
@[simp] theorem Fcd.loadFrame_sum16 (f : Fcd) (bs : List Byte) : (f.loadFrame bs).sum16 = f.sum16 := rfl
@[simp] theorem Fcd.loadFrame_xr (f : Fcd) (bs : List Byte) : (f.loadFrame bs).xr = f.xr := rfl
@[simp] theorem Fcd.loadFrame_res (f : Fcd) (bs : List Byte) : (f.loadFrame bs).res = f.res := rfl
@[simp] theorem Fcd.loadFrame_alm (f : Fcd) (bs : List Byte) : (f.loadFrame bs).alm = f.alm := rfl
@[simp] theorem Fcd.loadFrame_cv (f : Fcd) (bs : List Byte) : (f.loadFrame bs).cv = f.cv := rfl
@[simp] theorem Fcd.loadFrame_t (f : Fcd) (bs : List Byte) : (f.loadFrame bs).t = f.t := rfl

/-! ### The machine state -/

@[simp] theorem State.answer_params (s : State) (f : Fcd) (d : Word) : (s.answer f d).params = s.params := rfl
@[simp] theorem State.answer_fcd (s : State) (f : Fcd) (d : Word) : (s.answer f d).fcd = f := rfl
@[simp] theorem State.answer_inbox (s : State) (f : Fcd) (d : Word) : (s.answer f d).inbox = s.inbox := rfl
@[simp] theorem State.answer_rsp (s : State) (f : Fcd) (d : Word) : (s.answer f d).rsp = some { fault := f.fault, err := f.err, data := d } := rfl

@[simp] theorem State.resetUnit_params (s : State) : s.resetUnit.params = s.params := rfl
@[simp] theorem State.resetUnit_fcd (s : State) : s.resetUnit.fcd = Fcd.reset := rfl
@[simp] theorem State.resetUnit_inbox (s : State) : s.resetUnit.inbox = s.inbox := rfl
@[simp] theorem State.resetUnit_rsp (s : State) : s.resetUnit.rsp = s.rsp := rfl

@[simp] theorem State.pinReset_params (s : State) : s.pinReset.params = s.params := rfl
@[simp] theorem State.pinReset_fcd (s : State) : s.pinReset.fcd = Fcd.reset := rfl
@[simp] theorem State.pinReset_inbox (s : State) : s.pinReset.inbox = s.inbox := rfl
@[simp] theorem State.pinReset_rsp (s : State) : s.pinReset.rsp = none := rfl

@[simp] theorem State.raiseFault_params (s : State) (c : Cause) : (s.raiseFault c).params = s.params := rfl
@[simp] theorem State.raiseFault_fcd (s : State) (c : Cause) : (s.raiseFault c).fcd = s.fcd.raise c := rfl
@[simp] theorem State.raiseFault_inbox (s : State) (c : Cause) : (s.raiseFault c).inbox = s.inbox := rfl
@[simp] theorem State.raiseFault_rsp (s : State) (c : Cause) : (s.raiseFault c).rsp = some { fault := (s.fcd.raise c).fault, err := (s.fcd.raise c).err, data := 0 } := rfl

@[simp] theorem State.illegalWord_params (s : State) : s.illegalWord.params = s.params := rfl
@[simp] theorem State.illegalWord_fcd (s : State) : s.illegalWord.fcd = s.fcd.raise .illegalOp := rfl
@[simp] theorem State.illegalWord_inbox (s : State) : s.illegalWord.inbox = s.inbox := rfl
@[simp] theorem State.illegalWord_rsp (s : State) : s.illegalWord.rsp = some { fault := (s.fcd.raise .illegalOp).fault, err := (s.fcd.raise .illegalOp).err, data := 0 } := rfl

/-- Spelled-out and named clearing of VALID agree. -/
theorem Fcd.invalidate_eq_unchecked (f : Fcd) : f.invalidate = f.unchecked := rfl

/-- Raising in a unit that has not faulted. -/
@[simp] theorem Fcd.raise_of_running {f : Fcd} (h : f.fault = false) (c : Cause) : f.raise c = f.faulted c := by
  simp [Fcd.raise, Fcd.faulted, h]

/-- Raising in a halted unit is absorbed (R226). -/
@[simp] theorem Fcd.raise_of_halted {f : Fcd} (h : f.fault = true) (c : Cause) : f.raise c = f := by
  simp [Fcd.raise, h]

/-- After raising, FAULT is 1. -/
@[simp] theorem Fcd.raise_fault (f : Fcd) (c : Cause) : (f.raise c).fault = true := by
  cases h : f.fault <;> simp [h]

/-- Raising never writes ERR (R226). -/
@[simp] theorem Fcd.raise_err (f : Fcd) (c : Cause) : (f.raise c).err = f.err := by
  cases h : f.fault <;> simp [h]

/-- Answering with the unit's own state changes only the response. -/
theorem State.answer_self (s : State) (d : Word) :
    s.answer s.fcd d = { s with rsp := some { fault := s.fcd.fault, err := s.fcd.err, data := d } } := rfl

end Machine
end Sys2Proof
end

