-- ==== Sys2Proof/Laws/Ops.lean ====
section
/-! SUPPORT. Everything the shared operations can do, said once: how an effect is carried out, the common prelude, reading a
value, the preconditions; and what one step can be. -/

namespace Sys2Proof
namespace Machine

/-! ### Carrying out an effect -/

@[simp] theorem State.settle_done (s : State) (f : Fcd) (d : Word) : s.settle (.done f d) = .next (s.answer f d) := rfl

@[simp] theorem State.settle_raise (s : State) (c : Cause) : s.settle (.raise c) = .next (s.raiseFault c) := rfl

@[simp] theorem Fcd.result_eq (f : Fcd) (e : Err) : f.result e = .done { f with err := e } 0 := rfl

/-- A settled effect that answers a next state was done or raised. -/
theorem State.settle_next {s t : State} {e : Effect} (h : s.settle e = .next t) :
    (∃ f d, e = .done f d ∧ t = s.answer f d) ∨ ∃ c, e = .raise c ∧ t = s.raiseFault c := by
  cases e with
  | done f d => exact .inl ⟨f, d, rfl, by simpa [eq_comm] using h⟩
  | raise c => exact .inr ⟨c, rfl, by simpa [eq_comm] using h⟩
  | unreceived => cases h

/-- A raised effect in a unit that has not faulted. -/
theorem State.raiseFault_running {s : State} (h : s.fcd.fault = false) (c : Cause) :
    s.raiseFault c = s.answer (s.fcd.faulted c) 0 := by simp [State.raiseFault, h]

/-- A raised effect in a halted unit. -/
theorem State.raiseFault_halted {s : State} (h : s.fcd.fault = true) (c : Cause) :
    s.raiseFault c = s.answer s.fcd 0 := by simp [State.raiseFault, h]

/-! ### The common prelude -/

/-- A halted unit refuses the operation (R227). -/
theorem State.perform_halted {s : State} (h : s.fcd.fault = true) (op : Fcd → Effect) :
    s.perform op = .next (s.answer s.fcd 0) := by simp [State.perform, h]

/-- A running unit carries the operation out (R227). -/
theorem State.perform_running {s : State} (h : s.fcd.fault = false) (op : Fcd → Effect) :
    s.perform op = s.settle (op s.fcd) := by simp [State.perform, h]

/-- An operation that answers a next state: refused while halted, done, or raised. -/
theorem State.perform_next {s t : State} {op : Fcd → Effect} (h : s.perform op = .next t) :
    (s.fcd.fault = true ∧ t = s.answer s.fcd 0) ∨
    (s.fcd.fault = false ∧ ∃ f d, op s.fcd = .done f d ∧ t = s.answer f d) ∨
    (s.fcd.fault = false ∧ ∃ c, op s.fcd = .raise c ∧ t = s.answer (s.fcd.faulted c) 0) := by
  cases hf : s.fcd.fault with
  | true => rw [State.perform_halted hf] at h; exact .inl ⟨rfl, by simpa [eq_comm] using h⟩
  | false =>
    rw [State.perform_running hf] at h
    obtain ⟨f, d, he, rfl⟩ | ⟨c, he, rfl⟩ := State.settle_next h
    · exact .inr (.inl ⟨rfl, f, d, he, rfl⟩)
    · exact .inr (.inr ⟨rfl, c, he, State.raiseFault_running hf c⟩)

/-! ### Reading and preconditions -/

@[simp] theorem reading_some {α : Type} (v : α) (next : α → Effect) : reading (some v) next = next v := rfl

/-- A reading has a value or none. -/
theorem reading_cases {α : Type} {value : Option α} {next : α → Effect} {e : Effect} (h : reading value next = e) :
    (value = none ∧ e = .unreceived) ∨ ∃ v, value = some v ∧ next v = e := by
  cases value with
  | none => exact .inl ⟨rfl, h.symm⟩
  | some v => exact .inr ⟨v, rfl, h⟩

/-- A reading that ends done has read a value. -/
theorem reading_done {α : Type} {value : Option α} {next : α → Effect} {f : Fcd} {d : Word}
    (h : reading value next = .done f d) : ∃ v, value = some v ∧ next v = .done f d := by
  cases value with
  | none => cases h
  | some v => exact ⟨v, rfl, h⟩

/-- A reading that raises has read a value. -/
theorem reading_raise {α : Type} {value : Option α} {next : α → Effect} {c : Cause}
    (h : reading value next = .raise c) : ∃ v, value = some v ∧ next v = .raise c := by
  cases value with
  | none => cases h
  | some v => exact ⟨v, rfl, h⟩

@[simp] theorem whenValid_valid {f : Fcd} (h : f.valid = true) (e : Effect) : whenValid f e = e := by simp [whenValid, h]

@[simp] theorem whenValid_invalid {f : Fcd} (h : f.valid = false) (e : Effect) : whenValid f e = .raise .notValidated := by
  simp [whenValid, h]

/-- The precondition met. -/
theorem whenValidated_met {v : Vendor} {f : Fcd} (h : f.valid = true) (hv : f.vk = some v) (e : Effect) :
    whenValidated v f e = e := by simp [whenValidated, h, hv]

/-- An operation behind `whenValid` that ends done ran validated. -/
theorem whenValid_done {f g : Fcd} {e : Effect} {d : Word} (h : whenValid f e = .done g d) :
    f.valid = true ∧ e = .done g d := by
  cases hv : f.valid <;> simp [whenValid, hv] at h
  exact ⟨rfl, h⟩

/-- An operation behind `whenValidated` that ends done ran on a frame of its vendor. -/
theorem whenValidated_done {v : Vendor} {f g : Fcd} {e : Effect} {d : Word} (h : whenValidated v f e = .done g d) :
    f.valid = true ∧ f.vk = some v ∧ e = .done g d := by
  obtain ⟨hv, h⟩ := whenValid_done h
  by_cases hk : f.vk = some v <;> simp [hk] at h
  exact ⟨hv, hk, h⟩

/-! ### One step -/

/-- What a step can be: nothing to do, the reset pin, an illegal word, or exec of the decoded operation. -/
theorem step_cases {s : State} {a : Answer} (h : step s = a) :
    (s.inbox = [] ∧ a = .next s) ∨
    (∃ rest, s.inbox = .resetPin :: rest ∧ a = .next { s with inbox := rest }.pinReset) ∨
    (∃ w rest e, s.inbox = .command w :: rest ∧ decode w = .error e ∧ a = .next { s with inbox := rest }.illegalWord) ∨
    ∃ w rest i, s.inbox = .command w :: rest ∧ decode w = .ok i ∧ a = exec i { s with inbox := rest } := by
  subst h
  unfold step
  split
  · next hi => exact .inl ⟨hi, rfl⟩
  · next rest hi => exact .inr (.inl ⟨rest, hi, rfl⟩)
  · next w rest hi =>
    unfold present
    cases hd : decode w with
    | error e => exact .inr (.inr (.inl ⟨w, rest, e, hi, hd, rfl⟩))
    | ok i => exact .inr (.inr (.inr ⟨w, rest, i, hi, hd, rfl⟩))

/-- A run of one step more: its first step, and the run of the rest. -/
theorem run_next {M : Host.Core} {k : Nat} {s t : M.State} (h : M.run (k + 1) s = .next t) :
    ∃ u, M.step s = .next u ∧ M.run k u = .next t := by
  simp only [Host.Core.run] at h
  split at h
  · exact ⟨_, ‹_›, h⟩
  · cases h
  · cases h

end Machine
end Sys2Proof
end

