-- ==== Sys2Proof/Laws/Operands.lean ====
section
/-! SUPPORT. The operand forms against the bytes they read, the integer laws, the byte sums and the array writes. -/

namespace Sys2Proof
namespace Machine

/-! ### Only FB and WP decide what a read gives -/

theorem Fcd.byte?_congr {f g : Fcd} (hb : f.fb = g.fb) (hw : f.wp = g.wp) (i : Nat) : f.byte? i = g.byte? i := by
  simp [Fcd.byte?, hb, hw]

theorem Fcd.bytes?_congr {f g : Fcd} (hb : f.fb = g.fb) (hw : f.wp = g.wp) (i n : Nat) : f.bytes? i n = g.bytes? i n := by
  induction n generalizing i with
  | zero => rfl
  | succ n ih => simp only [Fcd.bytes?, Fcd.byte?_congr hb hw, ih]

theorem Fcd.u16be_congr {f g : Fcd} (hb : f.fb = g.fb) (hw : f.wp = g.wp) (i : Nat) : f.u16be i = g.u16be i := by
  simp only [Fcd.u16be, Fcd.byte?_congr hb hw]

@[simp] theorem Fcd.byte?_unchecked (f : Fcd) (i : Nat) : f.unchecked.byte? i = f.byte? i := rfl

@[simp] theorem Fcd.bytes?_unchecked (f : Fcd) (i n : Nat) : f.unchecked.bytes? i n = f.bytes? i n :=
  Fcd.bytes?_congr (f := f.unchecked) (g := f) rfl rfl i n

@[simp] theorem Fcd.u16be_unchecked (f : Fcd) (i : Nat) : f.unchecked.u16be i = f.u16be i := rfl

/-! ### Reads of bytes that are there -/

/-- A byte below WP. -/
theorem Fcd.byte?_eq_read {f : Fcd} {i : Nat} (h : i < f.wp) : f.byte? i = f.fb.read i := by simp [Fcd.byte?, h]

/-- A byte that is read lies below WP (R7). -/
theorem Fcd.lt_wp_of_byte? {f : Fcd} {i : Nat} {b : Byte} (h : f.byte? i = some b) : i < f.wp := by
  by_contra hn
  simp [Fcd.byte?, hn] at h

/-- Under the invariant every byte below WP can be named. -/
theorem Fcd.Inv.shows {f : Fcd} (h : f.Inv) : ∃ b, f.Shows 0 f.wp b := by
  refine ⟨fun i => (f.byte? i).getD 0, fun i hi => ?_⟩
  obtain ⟨v, hv⟩ := Option.isSome_iff_exists.mp (h.received i hi)
  simp [Fcd.byte?_eq_read hi, hv]

/-- A shown range shows every range inside it. -/
theorem Fcd.Shows.sub {f : Fcd} {lo n : Nat} {b : Nat → Byte} (h : f.Shows lo n b) {i m : Nat} (hi : i + m ≤ n) :
    f.Shows (lo + i) m fun j => b (i + j) := by
  intro j hj
  rw [Nat.add_assoc]
  exact h (i + j) (by omega)

/-- One byte of a shown range. -/
theorem Fcd.Shows.byte? {f : Fcd} {lo n : Nat} {b : Nat → Byte} (h : f.Shows lo n b) {i : Nat} (hi : i < n) :
    f.byte? (lo + i) = some (b i) := h i hi

/-- A run of bytes of a shown range. -/
theorem Fcd.Shows.bytes? {f : Fcd} {lo n : Nat} {b : Nat → Byte} (h : f.Shows lo n b) {i m : Nat} (hi : i + m ≤ n) :
    f.bytes? (lo + i) m = some ((List.range m).map fun j => b (i + j)) := by
  induction m generalizing i with
  | zero => rfl
  | succ m ih =>
    have hb := h.byte? (i := i) (by omega)
    have hbs := ih (i := i + 1) (by omega)
    rw [Fcd.bytes?, hb, show lo + i + 1 = lo + (i + 1) by omega, hbs, List.range_succ_eq_map]
    simp [Function.comp_def, Nat.add_comm, Nat.add_left_comm]

/-- A shown byte as an unsigned number. -/
theorem Fcd.Shows.u8 {f : Fcd} {lo n : Nat} {b : Nat → Byte} (h : f.Shows lo n b) {i : Nat} (hi : i < n) :
    f.u8 (lo + i) = some (b i).toNat := by simp [Fcd.u8, h.byte? hi]

/-- Two shown bytes as a big-endian number (R62). -/
theorem Fcd.Shows.u16be {f : Fcd} {lo n : Nat} {b : Nat → Byte} (h : f.Shows lo n b) {i : Nat} (hi : i + 2 ≤ n) :
    f.u16be (lo + i) = some (be16 b i) := by
  have h0 := h.byte? (i := i) (by omega)
  have h1 := h.byte? (i := i + 1) (by omega)
  rw [Fcd.u16be, h0, show lo + i + 1 = lo + (i + 1) by omega, h1]
  simp [be16, Nat.mul_comm]

/-- Shown bytes as consecutive big-endian words. -/
theorem Fcd.Shows.words? {f : Fcd} {lo n : Nat} {b : Nat → Byte} (h : f.Shows lo n b) {i m : Nat} (hi : i + 2 * m ≤ n) :
    f.words? (lo + i) m = some ((List.range m).map fun j => be16 b (i + 2 * j)) := by
  induction m generalizing i with
  | zero => rfl
  | succ m ih =>
    have hw := h.u16be (i := i) (by omega)
    have hws := ih (i := i + 2) (by omega)
    rw [Fcd.words?, hw, show lo + i + 2 = lo + (i + 2) by omega, hws, List.range_succ_eq_map]
    simp [Function.comp_def, Nat.mul_add, Nat.add_assoc, Nat.add_comm 2]

/-- `sext_8` of a byte is its two's-complement value. -/
theorem sext_8 (b : Byte) : sext 8 b.toNat = tc8 b := by simp [sext, tc8]

/-- `sext_16` of a 16-bit number is its two's-complement value. -/
theorem sext_16 (v : Nat) : sext 16 v = tc16 v := by simp [sext, tc16]

/-- A shown byte as a signed number. -/
theorem Fcd.Shows.s8 {f : Fcd} {lo n : Nat} {b : Nat → Byte} (h : f.Shows lo n b) {i : Nat} (hi : i < n) :
    f.s8 (lo + i) = some (tc8 (b i)) := by simp [Fcd.s8, h.u8 hi, sext_8]

/-- Two shown bytes as a signed number. -/
theorem Fcd.Shows.s16be {f : Fcd} {lo n : Nat} {b : Nat → Byte} (h : f.Shows lo n b) {i : Nat} (hi : i + 2 ≤ n) :
    f.s16be (lo + i) = some (tc16 (be16 b i)) := by simp [Fcd.s16be, h.u16be hi, sext_16]

/-! ### Bounds -/

/-- A 16-bit number. -/
theorem be16_lt (b : Nat → Byte) (i : Nat) : be16 b i < 65536 := by
  have := (b i).isLt
  have := (b (i + 1)).isLt
  unfold be16
  omega

/-- A signed 16-bit number. -/
theorem tc16_bounds {v : Nat} (h : v < 65536) : -32768 ≤ tc16 v ∧ tc16 v ≤ 32767 := by
  unfold tc16
  split <;> omega

/-- A signed byte. -/
theorem tc8_bounds (b : Byte) : -128 ≤ tc8 b ∧ tc8 b ≤ 127 := by
  have := b.isLt
  unfold tc8
  split <;> omega

/-- An unsigned value that fits is read back from its register. -/
theorem unsigned_toNat {v : Nat} (h : v < 2 ^ 32) : (unsigned v).toNat = v := by
  rw [unsigned, BitVec.toNat_ofNat, Nat.mod_eq_of_lt h]

/-- A signed value that fits is read back from its register. -/
theorem signed_toInt {v : Int} (lo : -2 ^ 31 ≤ v) (hi : v < 2 ^ 31) : (signed v).toInt = v := by
  rw [signed, BitVec.toInt_ofInt]
  exact Int.bmod_eq_of_le (by norm_num at lo ⊢; omega) (by norm_num at hi ⊢; omega)

/-- A byte in a register. -/
theorem unsigned_byte (b : Byte) : unsigned b.toNat = b.zeroExtend 32 := by
  apply BitVec.eq_of_toNat_eq
  simp [unsigned]

/-- A 16-bit value in a register. -/
theorem unsigned_half (h : Half) : unsigned h.toNat = h.zeroExtend 32 := by
  apply BitVec.eq_of_toNat_eq
  simp [unsigned]

/-! ### Sums -/

/-- The sum of a list of bytes, as the library writes it. -/
theorem total_eq_sum (bs : List Byte) : total bs = (bs.map BitVec.toNat).sum := by
  induction bs with
  | nil => rfl
  | cons b bs ih => simp [total, ih]

@[simp] theorem total_nil : total [] = 0 := rfl

@[simp] theorem total_cons (b : Byte) (bs : List Byte) : total (b :: bs) = b.toNat + total bs := rfl

@[simp] theorem total_append (bs cs : List Byte) : total (bs ++ cs) = total bs + total cs := by
  simp [total_eq_sum]

/-- The sum of a run of shown bytes. -/
theorem total_map_range (b : Nat → Byte) (lo n : Nat) : total ((List.range n).map fun j => b (lo + j)) = sumOf b lo n := by
  simp [total_eq_sum, sumOf, Function.comp_def]

/-- The check code as a number (R10). -/
theorem neg16_toNat (n : Nat) : (neg16 (BitVec.ofNat 16 n)).toNat = (65536 - n % 65536) % 65536 := by
  simp [neg16]

/-- A sum and its check code cancel (R10). -/
theorem add_neg16 (s : Half) : (s.toNat + (neg16 s).toNat) % 65536 = 0 := by
  have := s.isLt
  simp only [neg16, BitVec.toNat_ofNat]
  omega

/-- The check code is the two's-complement negation. -/
theorem neg16_eq_neg (s : Half) : neg16 s = -s := by
  apply BitVec.eq_of_toNat_eq
  simp [neg16, BitVec.toNat_neg]

/-- Feeding bytes one by one (R124). -/
theorem Fcd.foldl_feed (f : Fcd) (bs : List Byte) :
    bs.foldl Fcd.feed f =
      { f with sum8 := BitVec.ofNat 8 (f.sum8.toNat + total bs), sum16 := BitVec.ofNat 16 (f.sum16.toNat + total bs) } := by
  induction bs generalizing f with
  | nil => simp
  | cons b bs ih =>
    rw [List.foldl_cons, ih]
    have h8 : (BitVec.ofNat 8 ((f.sum8.toNat + b.toNat) % 256 + total bs)) =
        BitVec.ofNat 8 (f.sum8.toNat + (b.toNat + total bs)) := by
      apply BitVec.eq_of_toNat_eq
      simp only [BitVec.toNat_ofNat]
      omega
    have h16 : (BitVec.ofNat 16 ((f.sum16.toNat + b.toNat) % 65536 + total bs)) =
        BitVec.ofNat 16 (f.sum16.toNat + (b.toNat + total bs)) := by
      apply BitVec.eq_of_toNat_eq
      simp only [BitVec.toNat_ofNat]
      omega
    simp [h8, h16]

/-- The summing stage is a clear and then a feed of each byte (R124). -/
theorem Fcd.sumOver_eq_feed (f : Fcd) (bs : List Byte) : f.sumOver bs = bs.foldl Fcd.feed f.clearSums := by
  rw [Fcd.foldl_feed]
  simp [Fcd.sumOver, Fcd.clearSums, byteSum8, byteSum16]

/-! ### Array writes -/

/-- What an array holds after a write below a limit. -/
theorem writeBelow_getElem {α : Type} {n : Nat} (v : Vector α n) (limit i : Nat) (xs : List α) (j : Nat) (hj : j < n) :
    (writeBelow v limit i xs)[j] =
      if h : i ≤ j ∧ j < i + xs.length ∧ j < limit then xs[j - i]'(by omega) else v[j] := by
  induction xs generalizing v i with
  | nil =>
    rw [dif_neg (by simp only [List.length_nil]; omega)]
    rfl
  | cons x xs ih =>
    rw [writeBelow, ih]
    rcases Nat.lt_trichotomy j i with h | rfl | h
    · rw [dif_neg (by omega), dif_neg (by omega)]
      split
      · rw [Vector.getElem_setIfInBounds, if_neg (by omega)]
      · rfl
    · rw [dif_neg (by omega)]
      by_cases hl : j < limit
      · simp [hl]
      · simp [hl]
    · obtain ⟨k, rfl⟩ : ∃ k, j = i + 1 + k := ⟨j - (i + 1), by omega⟩
      simp only [show i + 1 + k - (i + 1) = k by omega, show i + 1 + k - i = k + 1 by omega, List.length_cons,
        List.getElem_cons_succ]
      by_cases hc : k < xs.length ∧ i + 1 + k < limit
      · rw [dif_pos (by omega), dif_pos (by omega)]
      · rw [dif_neg (by omega), dif_neg (by omega)]
        split
        · rw [Vector.getElem_setIfInBounds, if_neg (by omega)]
        · rfl

/-! ### Sums of runs of bytes -/

/-- A sum depends on its bytes only. -/
theorem sumOf_congr {b b' : Nat → Byte} {lo n : Nat} (h : ∀ j < n, b' (lo + j) = b (lo + j)) :
    sumOf b' lo n = sumOf b lo n := by
  unfold sumOf
  congr 1
  apply List.map_congr_left
  intro j hj
  rw [h j (List.mem_range.mp hj)]

/-- One byte more. -/
theorem sumOf_succ (b : Nat → Byte) (lo n : Nat) : sumOf b lo (n + 1) = sumOf b lo n + (b (lo + n)).toNat := by
  simp [sumOf, List.range_succ]

/-- Changing one byte changes the sum by the difference (R132, R135). -/
theorem sumOf_change {b b' : Nat → Byte} {lo n i : Nat} (hi : i < n) (h : ∀ j < n, j ≠ i → b' (lo + j) = b (lo + j)) :
    sumOf b' lo n + (b (lo + i)).toNat = sumOf b lo n + (b' (lo + i)).toNat := by
  induction n with
  | zero => omega
  | succ n ih =>
    rw [sumOf_succ, sumOf_succ]
    rcases Nat.lt_or_ge i n with h1 | h1
    · have := ih h1 (fun j hj => h j (by omega))
      rw [h n (by omega) (by omega)]
      omega
    · obtain rfl : i = n := by omega
      rw [sumOf_congr (fun j hj => h j (by omega) (by omega))]
      omega

/-- The sum of a run of bytes from index 0. -/
theorem total_map_range_zero (b : Nat → Byte) (n : Nat) : total ((List.range n).map b) = sumOf b 0 n := by
  simpa using total_map_range b 0 n

/-! ### Whole buffer, payload window, bits -/

/-- All the bytes of a buffer whose bytes are named. -/
theorem Fcd.Shows.all {f : Fcd} {b : Nat → Byte} (h : f.Shows 0 f.wp b) : f.bytes? 0 f.wp = some ((List.range f.wp).map b) := by
  simpa using h.bytes? (i := 0) (m := f.wp) (by omega)

/-- A byte of the payload window. -/
theorem Fcd.Shows.p8 {f : Fcd} {d : Nat → Byte} (h : f.Shows f.pbase f.plen d) {a : Nat} (ha : a + 1 ≤ f.plen) :
    f.p8 a = some (d a).toNat := h.u8 (by omega)

/-- A word of the payload window. -/
theorem Fcd.Shows.p16 {f : Fcd} {d : Nat → Byte} (h : f.Shows f.pbase f.plen d) {a : Nat} (ha : a + 2 ≤ f.plen) :
    f.p16 a = some (be16 d a) := h.u16be (by omega)

/-- A signed word of the payload window. -/
theorem Fcd.Shows.ps16 {f : Fcd} {d : Nat → Byte} (h : f.Shows f.pbase f.plen d) {a : Nat} (ha : a + 2 ≤ f.plen) :
    f.ps16 a = some (tc16 (be16 d a)) := h.s16be (by omega)

/-- Consecutive words of the payload window. -/
theorem Fcd.Shows.pwords? {f : Fcd} {d : Nat → Byte} (h : f.Shows f.pbase f.plen d) {a n : Nat} (ha : a + 2 * n ≤ f.plen) :
    f.pwords? a n = some ((List.range n).map fun j => be16 d (a + 2 * j)) := h.words? (by omega)

/-- Under the invariant the bytes of a validated window can be named (R31: `PBASE + PLEN ≤ WP`). -/
theorem Fcd.Inv.window {f : Fcd} (h : f.Inv) (hv : f.valid = true) : ∃ d, f.Shows f.pbase f.plen d := by
  obtain ⟨b, hb⟩ := h.shows
  have : f.pbase + f.plen ≤ f.wp := by
    rcases hk : f.vk with _ | _ | _
    · exact absurd hk (h.validated hv)
    · obtain ⟨h1, h2, h3, -⟩ := h.checkedA hv hk
      omega
    · obtain ⟨h1, -, -, h2, h3, -⟩ := h.checkedB hv hk
      omega
  exact ⟨_, by simpa using hb.sub (i := f.pbase) (m := f.plen) this⟩

/-- One bit of a byte, in a register (R7). -/
theorem unsigned_bit (x : Byte) (k : Nat) : unsigned (bit x.toNat k) = if x.getLsbD k then 1 else 0 := by
  have : x.getLsbD k = x.toNat.testBit k := rfl
  rw [this, Nat.testBit_eq_decide_div_mod_eq, bit]
  rcases Nat.mod_two_eq_zero_or_one (x.toNat / 2 ^ k) with h | h <;> simp [h, unsigned]

/-- The register map has a value exactly at the numbers R40 does not call undefined. -/
theorem Fcd.register_isSome (f : Fcd) (n : Nat) : (f.register n).isSome = !undefinedRegister n := by
  have low : ∀ m < 0x28, (f.scalarRegister m).isSome = !undefinedRegister m := by
    intro m hm
    interval_cases m <;> rfl
  unfold Fcd.register
  split
  · exact low n ‹_›
  · rw [Bool.eq_iff_iff]
    simp only [undefinedRegister, Bool.not_eq_true', decide_eq_false_iff_not]
    split
    · simp; omega
    · split
      · simp; omega
      · simp; omega

end Machine
end Sys2Proof
end

