-- ==== Sys2Proof/Laws/FrameCodec.lean ====
section
/-! SUPPORT. CHK.A, CHK.B, ENC.A and ENC.B case by case, on bytes that are there. -/

namespace Sys2Proof
namespace Machine

/-! ### CHK.A -/

/-- A buffer that is not 13 bytes long (R131). -/
theorem checkA_length {f : Fcd} (h : f.wp ≠ 13) : checkA f = f.unchecked.result .lengthMismatch := by
  unfold checkA
  exact if_pos h

/-- A 13-byte buffer: sum, then compare (R131). -/
theorem checkA_sum {f : Fcd} {body : List Byte} {checksum : Byte} (h : f.wp = 13)
    (hb : f.bytes? 0 12 = some body) (hc : f.byte? 12 = some checksum) :
    checkA f =
      if byteSum8 body ≠ checksum then (f.unchecked.sumOver body).result .checksumMismatch
      else ((f.unchecked.sumOver body).validate .vendorA 0 12).result .ok := by
  have hb' : f.invalidate.bytes? 0 Config.aSumLen = some body := (Fcd.bytes?_unchecked f 0 12).trans hb
  have hc' : f.invalidate.byte? 12 = some checksum := hc
  unfold checkA
  refine (if_neg (not_not.mpr h)).trans ?_
  rw [hb', reading_some, hc', reading_some]
  rfl

/-! ### CHK.B -/

/-- Fewer than 7 bytes (R133). -/
theorem checkB_short {f : Fcd} (h : f.wp < 7) : checkB f = f.unchecked.result .lengthMismatch := by
  unfold checkB
  exact if_pos h

/-- At least 7 bytes: start, end and length byte, in this order (R133, R134). -/
theorem checkB_long {f : Fcd} {start last len : Byte} (h : 7 ≤ f.wp) (hs : f.byte? 0 = some start)
    (he : f.byte? (f.wp - 1) = some last) (hl : f.byte? 3 = some len) :
    checkB f =
      if start ≠ 0xDD then f.unchecked.result .badStart
      else if last ≠ 0x77 then f.unchecked.result .badEnd
      else if len.toNat ≠ f.wp - 7 then f.unchecked.result .lengthMismatch
      else checkBCode f.unchecked len.toNat := by
  have hs' : f.invalidate.byte? 0 = some start := hs
  have he' : f.invalidate.byte? (f.invalidate.wp - 1) = some last := he
  have hl' : f.invalidate.byte? 3 = some len := hl
  unfold checkB
  refine (if_neg (Nat.not_lt.mpr h)).trans ?_
  rw [hs', reading_some, he', reading_some, hl', reading_some]
  rfl

/-- The check code of a frame whose length byte was accepted (R133). -/
theorem checkBCode_eq {f : Fcd} {len code : Nat} {reg : Byte} {body : List Byte} (hr : f.byte? 2 = some reg)
    (hb : f.bytes? 2 (len + 2) = some body) (hc : f.u16be (4 + len) = some code) :
    checkBCode f len =
      if (neg16 (byteSum16 body)).toNat ≠ code then (f.sumOver body).result .crcMismatch
      else { (f.sumOver body).validate .vendorB 4 len with freg := reg }.result .ok := by
  unfold checkBCode
  rw [hr, reading_some, hb, reading_some, hc, reading_some]
  rfl

/-! ### ENC.A and ENC.B -/

/-- A built frame is read back byte by byte. -/
theorem Fcd.byte?_loadFrame (f : Fcd) (bs : List Byte) (i : Nat) : (f.loadFrame bs).byte? i = bs[i]? := by
  simp only [Fcd.byte?, Fcd.loadFrame_wp, Fcd.loadFrame_fb, Memory.read_writeList]
  by_cases h : i < bs.length
  · simp [h]
  · simp [h]

/-- Beyond a built frame the buffer's bytes are as before. -/
theorem Fcd.read_loadFrame_beyond (f : Fcd) (bs : List Byte) {i : Nat} (h : bs.length ≤ i) :
    (f.loadFrame bs).fb.read i = f.fb.read i := by
  rw [Fcd.loadFrame_fb, Memory.read_writeList, if_neg (by omega)]

/-- A payload that is too long for ENC.A (R136). -/
theorem encodeA_long {f : Fcd} (p : Params) (addr cmd : Byte) (h : 8 < f.wp) :
    encodeA p addr cmd f = .raise .payloadTooLong := by
  unfold encodeA
  exact if_pos h

/-- ENC.A on a payload that fits (R136). -/
theorem encodeA_fits {f : Fcd} {payload : List Byte} (p : Params) (addr cmd : Byte) (h : f.wp ≤ 8)
    (hp : f.bytes? 0 f.wp = some payload) :
    encodeA p addr cmd f =
      ((f.loadFrame (frameBodyA p addr cmd payload ++ [byteSum8 (frameBodyA p addr cmd payload)])).sumOver
        (frameBodyA p addr cmd payload)).result .ok := by
  unfold encodeA
  refine (if_neg (Nat.not_lt.mpr h)).trans ?_
  rw [hp, reading_some]

/-- A payload that is too long for ENC.B (R138). -/
theorem encodeB_long {f : Fcd} (p : Params) (act : WireAction) (reg : Byte) (h : 255 < f.wp) :
    encodeB p act reg f = .raise .payloadTooLong := by
  unfold encodeB
  exact if_pos h

/-- ENC.B on a payload that fits (R138). -/
theorem encodeB_fits {f : Fcd} {payload : List Byte} (p : Params) (act : WireAction) (reg : Byte) (h : f.wp ≤ 255)
    (hp : f.bytes? 0 f.wp = some payload) :
    encodeB p act reg f =
      ((f.loadFrame (frameB p act reg payload)).sumOver (checkedBytesB reg payload)).result .ok := by
  unfold encodeB
  refine (if_neg (Nat.not_lt.mpr h)).trans ?_
  rw [hp, reading_some]

/-- The data bytes ENC.A writes, at the default offset: payload, then zeros (R136). -/
theorem dataBytesA_four (payload : List Byte) : dataBytesA 4 payload = (List.range 8).map fun j => payload.getD j 0 := by
  simp [dataBytesA]

/-- A vendor-A frame body has 12 bytes. -/
@[simp] theorem frameBodyA_length (p : Params) (addr cmd : Byte) (payload : List Byte) :
    (frameBodyA p addr cmd payload).length = 12 := by simp [frameBodyA, dataBytesA]

/-- A vendor-B frame has 7 bytes around its payload. -/
@[simp] theorem frameB_length (p : Params) (act : WireAction) (reg : Byte) (payload : List Byte) :
    (frameB p act reg payload).length = payload.length + 7 := by
  simp [frameB, checkedBytesB, codeBytes]

/-- The data bytes of a vendor-A frame sum to the payload bytes that fit (R136). -/
theorem total_dataBytesA (b : Nat → Byte) (n : Nat) {off : Nat} (lo : 4 ≤ off) (hi : off ≤ 12) :
    total (dataBytesA off ((List.range n).map b)) = sumOf b 0 (min n (12 - off)) := by
  have key : ∀ m, total ((List.range (off - 4 + m)).map fun j =>
      if off ≤ 4 + j then ((List.range n).map b).getD (4 + j - off) 0 else 0) = sumOf b 0 (min n m) := by
    intro m
    induction m with
    | zero =>
      rw [Nat.min_zero, total_eq_sum, List.map_map]
      apply List.sum_eq_zero
      intro x hx
      obtain ⟨j, hj, rfl⟩ := List.mem_map.mp hx
      have := List.mem_range.mp hj
      simp [show ¬off ≤ 4 + j by omega]
    | succ m ih =>
      rw [← Nat.add_assoc, List.range_succ, List.map_append, total_append, ih]
      have hoff : off ≤ 4 + (off - 4 + m) := by omega
      have hidx : 4 + (off - 4 + m) - off = m := by omega
      rcases Nat.lt_or_ge m n with h | h
      · rw [show min n (m + 1) = min n m + 1 by omega, sumOf_succ, show min n m = m by omega]
        simp [hoff, hidx, h]
      · rw [show min n (m + 1) = min n m by omega]
        simp [hoff, hidx, h]
  have := key (12 - off)
  rwa [show off - 4 + (12 - off) = 8 by omega] at this

end Machine
end Sys2Proof
end

