-- ==== Sys2Proof/Laws/Effects.lean ====
section
/-! SUPPORT. What an operation can do, said once: exec as one effect behind the common prelude, and for each effect everything it
can end with. -/

namespace Sys2Proof
namespace Machine

/-- The effect of each operation on the unit, its own pseudocode after the common prelude. -/
def effectOf (p : Params) : Instr → Fcd → Effect
  | .nop => fun f => .done f 0
  | .clr => clearBuffer
  | .push byte => pushByte byte
  | .rdb idx => readByte idx
  | .rdr n => readRegister n
  | .srst => fun _ => .done Fcd.reset 0
  | .aclr => fun f => .done f.clearSums 0
  | .aadd byte => fun f => .done (f.feed byte) 0
  | .chkA => checkA
  | .chkB => checkB
  | .encA addr cmd => encodeA p addr cmd
  | .encB act reg => encodeB p act reg
  | .daVis => fun f => whenValidated .vendorA f (decodeVis p f)
  | .daMmv => fun f => whenValidated .vendorA f (decodeMmv f)
  | .daMmt => fun f => whenValidated .vendorA f (decodeMmt f)
  | .daStat => fun f => whenValidated .vendorA f (decodeStat f)
  | .daCellv k => fun f => whenValidated .vendorA f (decodeCellv p k f)
  | .daCellt k => fun f => whenValidated .vendorA f (decodeCellt p k f)
  | .daBal => fun f => whenValidated .vendorA f (decodeBal p f)
  | .daFail => fun f => whenValidated .vendorA f (decodeFail p f)
  | .daMos => fun f => whenValidated .vendorA f (decodeMos f)
  | .dbHw => fun f => whenValidated .vendorB f (decodeHw p.layoutB f)
  | .dbCell => fun f => whenValidated .vendorB f (decodeCells f)
  | .xu8 off => extractField off 1 valueU8
  | .xs8 off => extractField off 1 valueS8
  | .xu16 off => extractField off 2 valueU16
  | .xs16 off => extractField off 2 valueS16
  | .xbit off k => extractField off 1 (valueBit k)
  | .xbit16 off k => extractField off 2 (valueBit16 k)
  | .xk16 off => extractField off 2 valueK16

/-- An operation that works while halted carries its effect out in any state (R227). -/
theorem exec_always {i : Instr} (h : worksHalted i = true) (s : State) : exec i s = s.settle (effectOf s.params i s.fcd) := by
  cases i <;> first | rfl | cases h

/-- Any other operation is its effect behind the halting test (R227). -/
theorem exec_perform {i : Instr} (h : worksHalted i = false) (s : State) : exec i s = s.perform (effectOf s.params i) := by
  cases i <;> first | rfl | cases h

/-- In a unit that is not halted every operation carries its effect out. -/
theorem exec_running (i : Instr) {s : State} (h : s.fcd.fault = false) : exec i s = s.settle (effectOf s.params i s.fcd) := by
  cases hw : worksHalted i with
  | true => exact exec_always hw s
  | false => rw [exec_perform hw, State.perform_running h]

/-- What a next state of an operation is: refused in a halted unit, its effect done, or a fault raised. -/
theorem exec_cases {i : Instr} {s t : State} (h : exec i s = .next t) :
    (s.fcd.fault = true ∧ worksHalted i = false ∧ t = s.answer s.fcd 0) ∨
    ((s.fcd.fault = true → worksHalted i = true) ∧ ∃ f d, effectOf s.params i s.fcd = .done f d ∧ t = s.answer f d) ∨
    ((s.fcd.fault = true → worksHalted i = true) ∧ ∃ c, effectOf s.params i s.fcd = .raise c ∧ t = s.raiseFault c) := by
  cases hf : s.fcd.fault with
  | true =>
    cases hw : worksHalted i with
    | true =>
      rw [exec_always hw] at h
      obtain ⟨f, d, he, ht⟩ | ⟨c, he, ht⟩ := State.settle_next h
      · exact .inr (.inl ⟨fun _ => rfl, f, d, he, ht⟩)
      · exact .inr (.inr ⟨fun _ => rfl, c, he, ht⟩)
    | false =>
      rw [exec_perform hw, State.perform_halted hf] at h
      exact .inl ⟨rfl, rfl, by simpa [eq_comm] using h⟩
  | false =>
    rw [exec_running i hf] at h
    obtain ⟨f, d, he, ht⟩ | ⟨c, he, ht⟩ := State.settle_next h
    · exact .inr (.inl ⟨fun h => (by cases h), f, d, he, ht⟩)
    · exact .inr (.inr ⟨fun h => (by cases h), c, he, ht⟩)

/-! ### Frames: which fields an effect may write -/

/-- Only ERR and the decoded registers differ. -/
def Fcd.DecodedFrom (g f : Fcd) : Prop := g = { f with err := g.err, res := g.res, alm := g.alm, cv := g.cv, t := g.t }

/-- CLR done (R102). -/
theorem clearBuffer_done {f g : Fcd} {d : Word} (h : clearBuffer f = .done g d) :
    d = 0 ∧ g = { f.unchecked with wp := 0, err := .ok } := by
  cases h
  exact ⟨rfl, rfl⟩

/-- PUSH done (R103). -/
theorem pushByte_done {byte : Byte} {f g : Fcd} {d : Word} (h : pushByte byte f = .done g d) :
    d = 0 ∧ f.wp ≠ 262 ∧ g = { f.unchecked with fb := f.fb.write f.wp byte, wp := f.wp + 1 } := by
  unfold pushByte at h
  split at h
  · cases h
  · next hw =>
    cases h
    exact ⟨rfl, hw, rfl⟩

/-- RDB done (R105). -/
theorem readByte_done {idx : Nat} {f g : Fcd} {d : Word} (h : readByte idx f = .done g d) :
    g = f ∧ ∃ b, f.byte? idx = some b ∧ d = b.zeroExtend 32 := by
  unfold readByte at h
  split at h
  · cases h
  · obtain ⟨v, hv, h⟩ := reading_done h
    cases h
    obtain ⟨b, hb, rfl⟩ := Option.map_eq_some_iff.mp hv
    exact ⟨rfl, b, hb, unsigned_byte b⟩

/-- RDR done (R106). -/
theorem readRegister_done {n : Byte} {f g : Fcd} {d : Word} (h : readRegister n f = .done g d) :
    g = f ∧ f.register n.toNat = some d := by
  unfold readRegister at h
  split at h
  · cases h
  · next hv =>
    cases h
    exact ⟨rfl, hv⟩

/-- CHK.A done: its three verdicts (R131). -/
theorem checkA_done {f g : Fcd} {d : Word} (h : checkA f = .done g d) :
    d = 0 ∧ (f.wp ≠ 13 ∧ g = { f.unchecked with err := .lengthMismatch } ∨
      ∃ body checksum, f.wp = 13 ∧ f.bytes? 0 12 = some body ∧ f.byte? 12 = some checksum ∧
        (byteSum8 body ≠ checksum ∧ g = { f.unchecked.sumOver body with err := .checksumMismatch } ∨
          byteSum8 body = checksum ∧ g = { (f.unchecked.sumOver body).validate .vendorA 0 12 with err := .ok })) := by
  by_cases hw : f.wp = 13
  · unfold checkA at h
    replace h := (if_neg (not_not.mpr hw)).symm.trans h
    obtain ⟨body, hb, h⟩ := reading_done h
    obtain ⟨checksum, hc, h⟩ := reading_done h
    have hb' : f.bytes? 0 12 = some body := (Fcd.bytes?_unchecked f 0 12).symm.trans hb
    by_cases hs : byteSum8 body = checksum
    · replace h := (if_neg (not_not.mpr hs)).symm.trans h
      cases h
      exact ⟨rfl, .inr ⟨body, checksum, hw, hb', hc, .inr ⟨hs, rfl⟩⟩⟩
    · replace h := (if_pos hs).symm.trans h
      cases h
      exact ⟨rfl, .inr ⟨body, checksum, hw, hb', hc, .inl ⟨hs, rfl⟩⟩⟩
  · rw [checkA_length hw] at h
    cases h
    exact ⟨rfl, .inl ⟨hw, rfl⟩⟩

/-- CHK.A never raises (R225). -/
theorem checkA_not_raise (f : Fcd) (c : Cause) : checkA f ≠ .raise c := by
  intro h
  by_cases hw : f.wp = 13
  · unfold checkA at h
    replace h := (if_neg (not_not.mpr hw)).symm.trans h
    obtain ⟨body, -, h⟩ := reading_raise h
    obtain ⟨checksum, -, h⟩ := reading_raise h
    simp only [Fcd.result_eq] at h
    split at h <;> cases h
  · rw [checkA_length hw] at h
    cases h

/-- CHK.B's last stage done (R133). -/
theorem checkBCode_done {f g : Fcd} {len : Nat} {d : Word} (h : checkBCode f len = .done g d) :
    d = 0 ∧ ∃ reg body code, f.byte? 2 = some reg ∧ f.bytes? 2 (len + 2) = some body ∧ f.u16be (4 + len) = some code ∧
      ((neg16 (byteSum16 body)).toNat ≠ code ∧ g = { f.sumOver body with err := .crcMismatch } ∨
        (neg16 (byteSum16 body)).toNat = code ∧
          g = { (f.sumOver body).validate .vendorB 4 len with freg := reg, err := .ok }) := by
  unfold checkBCode at h
  obtain ⟨reg, hr, h⟩ := reading_done h
  obtain ⟨body, hb, h⟩ := reading_done h
  obtain ⟨code, hc, h⟩ := reading_done h
  by_cases hs : (neg16 (byteSum16 body)).toNat = code
  · replace h := (if_neg (not_not.mpr hs)).symm.trans h
    cases h
    exact ⟨rfl, reg, body, code, hr, hb, hc, .inr ⟨hs, rfl⟩⟩
  · replace h := (if_pos hs).symm.trans h
    cases h
    exact ⟨rfl, reg, body, code, hr, hb, hc, .inl ⟨hs, rfl⟩⟩

/-- CHK.B ended before its summing stage, or all three of its first tests passed and the check code was compared (R133, R134). -/
theorem checkB_stages {f : Fcd} {e : Effect} (h : checkB f = e) :
    (∃ v, (v = .lengthMismatch ∨ v = .badStart ∨ v = .badEnd) ∧ e = f.unchecked.result v) ∨ e = .unreceived ∨
    ∃ len : Byte, 7 ≤ f.wp ∧ f.byte? 0 = some 0xDD ∧ f.byte? (f.wp - 1) = some 0x77 ∧ f.byte? 3 = some len ∧
      len.toNat = f.wp - 7 ∧ e = checkBCode f.unchecked len.toNat := by
  by_cases hw : f.wp < 7
  · exact .inl ⟨.lengthMismatch, .inl rfl, h.symm.trans (checkB_short hw)⟩
  unfold checkB at h
  replace h := (if_neg hw).symm.trans h
  obtain ⟨-, he⟩ | ⟨start, hs, h⟩ := reading_cases h
  · exact .inr (.inl he)
  by_cases c0 : start = 0xDD
  swap
  · exact .inl ⟨.badStart, .inr (.inl rfl), h.symm.trans (if_pos c0)⟩
  replace h := (if_neg (not_not.mpr c0)).symm.trans h
  obtain ⟨-, he⟩ | ⟨last, hl, h⟩ := reading_cases h
  · exact .inr (.inl he)
  by_cases c1 : last = 0x77
  swap
  · exact .inl ⟨.badEnd, .inr (.inr rfl), h.symm.trans (if_pos c1)⟩
  replace h := (if_neg (not_not.mpr c1)).symm.trans h
  obtain ⟨-, he⟩ | ⟨len, hn, h⟩ := reading_cases h
  · exact .inr (.inl he)
  by_cases c2 : len.toNat = f.wp - 7
  swap
  · exact .inl ⟨.lengthMismatch, .inl rfl, h.symm.trans (if_pos c2)⟩
  subst c0 c1
  exact .inr (.inr ⟨len, Nat.le_of_not_lt hw, hs, hl, hn, c2, h.symm.trans (if_neg (not_not.mpr c2))⟩)

/-- CHK.B's last stage never raises. -/
theorem checkBCode_not_raise (f : Fcd) (len : Nat) (c : Cause) : checkBCode f len ≠ .raise c := by
  intro h
  unfold checkBCode at h
  obtain ⟨reg, -, h⟩ := reading_raise h
  obtain ⟨body, -, h⟩ := reading_raise h
  obtain ⟨code, -, h⟩ := reading_raise h
  simp only [Fcd.result_eq] at h
  split at h <;> cases h

/-- CHK.B never raises (R225). -/
theorem checkB_not_raise (f : Fcd) (c : Cause) : checkB f ≠ .raise c := by
  intro h
  obtain ⟨v, -, he⟩ | he | ⟨len, -, -, -, -, -, he⟩ := checkB_stages h
  · cases he
  · cases he
  · exact checkBCode_not_raise _ _ _ he.symm

/-- ENC.A done (R136). -/
theorem encodeA_done {p : Params} {addr cmd : Byte} {f g : Fcd} {d : Word} (h : encodeA p addr cmd f = .done g d) :
    d = 0 ∧ f.wp ≤ 8 ∧ ∃ payload, f.bytes? 0 f.wp = some payload ∧
      g = { (f.loadFrame (frameBodyA p addr cmd payload ++ [byteSum8 (frameBodyA p addr cmd payload)])).sumOver
        (frameBodyA p addr cmd payload) with err := .ok } := by
  by_cases hw : 8 < f.wp
  · rw [encodeA_long p addr cmd hw] at h
    cases h
  · unfold encodeA at h
    replace h := (if_neg hw).symm.trans h
    obtain ⟨payload, hp, h⟩ := reading_done h
    cases h
    exact ⟨rfl, Nat.le_of_not_lt hw, payload, hp, rfl⟩

/-- ENC.B done (R138). -/
theorem encodeB_done {p : Params} {act : WireAction} {reg : Byte} {f g : Fcd} {d : Word}
    (h : encodeB p act reg f = .done g d) :
    d = 0 ∧ f.wp ≤ 255 ∧ ∃ payload, f.bytes? 0 f.wp = some payload ∧
      g = { (f.loadFrame (frameB p act reg payload)).sumOver (checkedBytesB reg payload) with err := .ok } := by
  by_cases hw : 255 < f.wp
  · rw [encodeB_long p act reg hw] at h
    cases h
  · unfold encodeB at h
    replace h := (if_neg hw).symm.trans h
    obtain ⟨payload, hp, h⟩ := reading_done h
    cases h
    exact ⟨rfl, Nat.le_of_not_lt hw, payload, hp, rfl⟩

/-- A run of bytes has the length asked for. -/
theorem Fcd.bytes?_length {f : Fcd} {i n : Nat} {bs : List Byte} (h : f.bytes? i n = some bs) : bs.length = n := by
  induction n generalizing i bs with
  | zero => cases h; rfl
  | succ n ih =>
    rw [Fcd.bytes?] at h
    split at h
    · next b cs hb hcs =>
      cases h
      rw [List.length_cons, ih hcs]
    · cases h

/-! ### The decoders -/

/-- A chain of readings that ends done. -/
theorem decodeVis_done {p : Params} {f g : Fcd} {d : Word} (h : decodeVis p f = .done g d) :
    d = 0 ∧ ∃ v i soc, f.u16be 4 = some v ∧ f.s16be 8 = some i ∧ f.u16be 10 = some soc ∧
      g = { f with err := .ok, res := { f.res with
        vpack := unsigned (v * 100), ipack := signed (i * 100), soc := unsigned (soc * p.socAMul) } } := by
  obtain ⟨v, hv, h⟩ := reading_done h
  obtain ⟨i, hi, h⟩ := reading_done h
  obtain ⟨soc, hs, h⟩ := reading_done h
  cases h
  exact ⟨rfl, v, i, soc, hv, hi, hs, rfl⟩

/-- DA.MMV done (R152). -/
theorem decodeMmv_done {f g : Fcd} {d : Word} (h : decodeMmv f = .done g d) :
    d = 0 ∧ ∃ mx imx mn imn, f.u16be 4 = some mx ∧ f.u8 6 = some imx ∧ f.u16be 7 = some mn ∧ f.u8 9 = some imn ∧
      g = { f with err := .ok, res := { f.res with
        vmax := unsigned mx, vmaxidx := unsigned imx, vmin := unsigned mn, vminidx := unsigned imn,
        vdelta := signed ((mx : Int) - (mn : Int)) } } := by
  obtain ⟨mx, h1, h⟩ := reading_done h
  obtain ⟨imx, h2, h⟩ := reading_done h
  obtain ⟨mn, h3, h⟩ := reading_done h
  obtain ⟨imn, h4, h⟩ := reading_done h
  cases h
  exact ⟨rfl, mx, imx, mn, imn, h1, h2, h3, h4, rfl⟩

/-- DA.MMT done (R154). -/
theorem decodeMmt_done {f g : Fcd} {d : Word} (h : decodeMmt f = .done g d) :
    d = 0 ∧ ∃ hi lo, f.s8 4 = some hi ∧ f.s8 6 = some lo ∧
      g = { f with err := .ok, res := { f.res with tmax := signed (hi * 10), tmin := signed (lo * 10) } } := by
  obtain ⟨hi, h1, h⟩ := reading_done h
  obtain ⟨lo, h2, h⟩ := reading_done h
  cases h
  exact ⟨rfl, hi, lo, h1, h2, rfl⟩

/-- DA.STAT done (R156). -/
theorem decodeStat_done {f g : Fcd} {d : Word} (h : decodeStat f = .done g d) :
    d = 0 ∧ ∃ cells sensors charge load cycles, f.u8 4 = some cells ∧ f.u8 5 = some sensors ∧ f.u8 6 = some charge ∧
      f.u8 7 = some load ∧ f.u16be 10 = some cycles ∧
      g = { f with err := .ok, res := { f.res with
        cellcnt := unsigned (min cells 48), tempcnt := unsigned (min sensors 16), chgstate := unsigned charge,
        loadstate := unsigned load, cycles := unsigned cycles } } := by
  obtain ⟨cells, h1, h⟩ := reading_done h
  obtain ⟨sensors, h2, h⟩ := reading_done h
  obtain ⟨charge, h3, h⟩ := reading_done h
  obtain ⟨load, h4, h⟩ := reading_done h
  obtain ⟨cycles, h5, h⟩ := reading_done h
  cases h
  exact ⟨rfl, cells, sensors, charge, load, cycles, h1, h2, h3, h4, h5, rfl⟩

/-- DA.CELLV done (R158). -/
theorem decodeCellv_done {p : Params} {k : Nat} {f g : Fcd} {d : Word} (h : decodeCellv p k f = .done g d) :
    d = 0 ∧ g = { f with err := .ok, cv := g.cv } := by
  obtain ⟨ws, -, h⟩ := reading_done h
  cases h
  exact ⟨rfl, rfl⟩

/-- DA.CELLT done (R160). -/
theorem decodeCellt_done {p : Params} {k : Nat} {f g : Fcd} {d : Word} (h : decodeCellt p k f = .done g d) :
    d = 0 ∧ g = { f with err := .ok, t := g.t } := by
  obtain ⟨bs, -, h⟩ := reading_done h
  cases h
  exact ⟨rfl, rfl⟩

/-- DA.BAL done (R162). -/
theorem decodeBal_done {p : Params} {f g : Fcd} {d : Word} (h : decodeBal p f = .done g d) :
    d = 0 ∧ g = { f with err := .ok, res := { f.res with balmask := g.res.balmask } } := by
  obtain ⟨bs, -, h⟩ := reading_done h
  cases h
  exact ⟨rfl, rfl⟩

/-- DA.FAIL done (R164). -/
theorem decodeFail_done {p : Params} {f g : Fcd} {d : Word} (h : decodeFail p f = .done g d) :
    d = 0 ∧ g = { f with err := .ok, alm := g.alm } := by
  obtain ⟨bs, -, h⟩ := reading_done h
  cases h
  exact ⟨rfl, rfl⟩

/-- DA.MOS done (R166). -/
theorem decodeMos_done {f g : Fcd} {d : Word} (h : decodeMos f = .done g d) :
    d = 0 ∧ ∃ chg dsg beat resid, f.u8 4 = some chg ∧ f.u8 5 = some dsg ∧ f.u8 6 = some beat ∧ f.u16be 8 = some resid ∧
      g = { f with err := .ok, res := { f.res with
        chgfet := unsigned (if chg ≠ 0 then 1 else 0), dsgfet := unsigned (if dsg ≠ 0 then 1 else 0),
        heartbeat := unsigned beat, resid := unsigned resid } } := by
  obtain ⟨chg, h1, h⟩ := reading_done h
  obtain ⟨dsg, h2, h⟩ := reading_done h
  obtain ⟨beat, h3, h⟩ := reading_done h
  obtain ⟨resid, h4, h⟩ := reading_done h
  cases h
  exact ⟨rfl, chg, dsg, beat, resid, h1, h2, h3, h4, rfl⟩

/-- DB.HW done: Truncated with ERR alone written, or every field (R181, R182, R186). -/
theorem decodeHw_done {l : LayoutB} {f g : Fcd} {d : Word} (h : decodeHw l f = .done g d) :
    d = 0 ∧ (g = { f with err := .truncated } ∨
      ∃ sensors v i cap soc balLo balHi prot fet cells, f.p8 l.offNtc = some sensors ∧
        f.p16 l.offV = some v ∧ f.ps16 l.offI = some i ∧ f.p16 l.offCap = some cap ∧ f.p8 l.offSoc = some soc ∧
        f.p16 l.offBalLo = some balLo ∧ f.p16 l.offBalHi = some balHi ∧ f.p16 l.offProt = some prot ∧
        f.p8 l.offFet = some fet ∧ f.p8 l.offCells = some cells ∧
        g = { f with
          err := .ok
          t := g.t
          res := { f.res with
            vpack := unsigned (v * 10), ipack := signed (i * 10), cap := unsigned (cap * 10), soc := unsigned (soc * 100),
            balmask := unsigned (balLo + balHi * 2 ^ 16), prot := unsigned (prot % 2 ^ 13),
            chgfet := unsigned (bit fet l.fetChgBit), dsgfet := unsigned (bit fet l.fetDsgBit),
            cellcnt := unsigned (min cells 48), tempcnt := unsigned (min sensors 16) } }) := by
  unfold decodeHw at h
  split at h
  · cases h
    exact ⟨rfl, .inl rfl⟩
  obtain ⟨sensors, hn, h⟩ := reading_done h
  by_cases hp : f.plen < l.offTemps + 2 * clip sensors Config.maxTempSensors
  · replace h := (if_pos hp).symm.trans h
    cases h
    exact ⟨rfl, .inl rfl⟩
  replace h := (if_neg hp).symm.trans h
  obtain ⟨v, h1, h⟩ := reading_done h
  obtain ⟨i, h2, h⟩ := reading_done h
  obtain ⟨cap, h3, h⟩ := reading_done h
  obtain ⟨soc, h4, h⟩ := reading_done h
  obtain ⟨balLo, h5, h⟩ := reading_done h
  obtain ⟨balHi, h6, h⟩ := reading_done h
  obtain ⟨prot, h7, h⟩ := reading_done h
  obtain ⟨fet, h8, h⟩ := reading_done h
  obtain ⟨cells, h9, h⟩ := reading_done h
  obtain ⟨temps, -, h⟩ := reading_done h
  cases h
  exact ⟨rfl, .inr ⟨sensors, v, i, cap, soc, balLo, balHi, prot, fet, cells, hn, h1, h2, h3, h4, h5, h6, h7, h8, h9, rfl⟩⟩

/-- DB.CELL done: Truncated with ERR alone written, or the cells and their extremes (R184, R186). -/
theorem decodeCells_done {f g : Fcd} {d : Word} (h : decodeCells f = .done g d) :
    d = 0 ∧ (g = { f with err := .truncated } ∨
      ∃ vs, f.pwords? 0 f.res.cellcnt.toNat = some vs ∧
        g = { f with
          err := .ok
          cv := writeBelow f.cv f.res.cellcnt.toNat 0 (vs.map (BitVec.ofNat 16))
          res := { f.res with
            vmax := unsigned (Extremes.start.over 0 vs).mx, vmaxidx := unsigned (Extremes.start.over 0 vs).imx,
            vmin := unsigned (Extremes.start.over 0 vs).mn, vminidx := unsigned (Extremes.start.over 0 vs).imn,
            vdelta := signed (((Extremes.start.over 0 vs).mx : Int) - ((Extremes.start.over 0 vs).mn : Int)) } }) := by
  unfold decodeCells at h
  by_cases hp : f.plen < 2 * f.res.cellcnt.toNat
  · replace h := (if_pos hp).symm.trans h
    cases h
    exact ⟨rfl, .inl rfl⟩
  replace h := (if_neg hp).symm.trans h
  obtain ⟨vs, hv, h⟩ := reading_done h
  cases h
  exact ⟨rfl, .inr ⟨vs, hv, rfl⟩⟩

/-- An extract operation done: Truncated with ERR alone written, or XR and the response's data (R200). -/
theorem extractField_done {off : Byte} {width : Nat} {value : Fcd → Nat → Option Int} {f g : Fcd} {d : Word}
    (h : extractField off width value f = .done g d) :
    f.valid = true ∧ (g = { f with err := .truncated } ∧ d = 0 ∨ g = { f with xr := d, err := .ok }) := by
  obtain ⟨hv, h⟩ := whenValid_done h
  split at h
  · cases h
    exact ⟨hv, .inl ⟨rfl, rfl⟩⟩
  · obtain ⟨v, -, h⟩ := reading_done h
    cases h
    exact ⟨hv, .inr rfl⟩

/-! ### One frame for every operation -/

/-- What each operation may write when its effect is done; `g` is the unit after it. -/
def DoneFrame (i : Instr) (f g : Fcd) : Prop :=
  match i with
  | .nop | .rdb _ | .rdr _ => g = f
  | .srst => g = Fcd.reset
  | .clr => g = { f.unchecked with wp := 0, err := .ok }
  | .push byte => g = { f.unchecked with fb := f.fb.write f.wp byte, wp := f.wp + 1 }
  | .aclr | .aadd _ => g = { f with sum8 := g.sum8, sum16 := g.sum16 }
  | .chkA | .chkB =>
    g = { f with
      valid := g.valid, vk := g.vk, pbase := g.pbase, plen := g.plen, freg := g.freg, err := g.err, sum8 := g.sum8,
      sum16 := g.sum16 }
  | .encA _ _ | .encB _ _ =>
    g = { f.unchecked with fb := g.fb, wp := g.wp, err := .ok, sum8 := g.sum8, sum16 := g.sum16 }
  | .daVis | .daMmv | .daMmt | .daStat | .daCellv _ | .daCellt _ | .daBal | .daFail | .daMos | .dbHw | .dbCell =>
    g.DecodedFrom f
  | .xu8 _ | .xs8 _ | .xu16 _ | .xs16 _ | .xbit _ _ | .xbit16 _ _ | .xk16 _ => g = { f with xr := g.xr, err := g.err }

/-- Every done effect stays inside its frame. -/
theorem effectOf_done_frame {p : Params} {i : Instr} {f g : Fcd} {d : Word} (he : effectOf p i f = .done g d) :
    DoneFrame i f g := by
  have extract : ∀ {off width value}, extractField off width value f = .done g d → g = { f with xr := g.xr, err := g.err } := by
    intro off width value he
    obtain ⟨-, ⟨rfl, -⟩ | rfl⟩ := extractField_done he <;> rfl
  cases i <;> simp only [effectOf] at he
  case nop => cases he; rfl
  case srst => cases he; rfl
  case clr => exact (clearBuffer_done he).2
  case push => exact (pushByte_done he).2.2
  case rdb => exact (readByte_done he).1
  case rdr => exact (readRegister_done he).1
  case aclr => cases he; rfl
  case aadd => cases he; rfl
  case chkA =>
    obtain ⟨-, ⟨-, rfl⟩ | ⟨body, checksum, -, -, -, ⟨-, rfl⟩ | ⟨-, rfl⟩⟩⟩ := checkA_done he <;> rfl
  case chkB =>
    obtain ⟨v, -, he'⟩ | he' | ⟨len, -, -, -, -, -, he'⟩ := checkB_stages he
    · cases he'; rfl
    · cases he'
    · obtain ⟨-, reg, body, code, -, -, -, ⟨-, rfl⟩ | ⟨-, rfl⟩⟩ := checkBCode_done he'.symm <;> rfl
  case encA => obtain ⟨-, -, payload, -, rfl⟩ := encodeA_done he; rfl
  case encB => obtain ⟨-, -, payload, -, rfl⟩ := encodeB_done he; rfl
  case daVis =>
    obtain ⟨-, v, i, soc, -, -, -, rfl⟩ := decodeVis_done (whenValidated_done he).2.2
    rfl
  case daMmv =>
    obtain ⟨-, mx, imx, mn, imn, -, -, -, -, rfl⟩ := decodeMmv_done (whenValidated_done he).2.2
    rfl
  case daMmt =>
    obtain ⟨-, hi, lo, -, -, rfl⟩ := decodeMmt_done (whenValidated_done he).2.2
    rfl
  case daStat =>
    obtain ⟨-, cells, sensors, charge, load, cycles, -, -, -, -, -, rfl⟩ := decodeStat_done (whenValidated_done he).2.2
    rfl
  case daCellv =>
    obtain ⟨ws, -, he⟩ := reading_done (whenValidated_done he).2.2
    cases he; rfl
  case daCellt =>
    obtain ⟨bs, -, he⟩ := reading_done (whenValidated_done he).2.2
    cases he; rfl
  case daBal =>
    obtain ⟨bs, -, he⟩ := reading_done (whenValidated_done he).2.2
    cases he; rfl
  case daFail =>
    obtain ⟨bs, -, he⟩ := reading_done (whenValidated_done he).2.2
    cases he; rfl
  case daMos =>
    obtain ⟨-, chg, dsg, beat, resid, -, -, -, -, rfl⟩ := decodeMos_done (whenValidated_done he).2.2
    rfl
  case dbHw =>
    obtain ⟨-, rfl | ⟨n, v, i, cap, soc, lo, hi, prot, fet, cells, -, -, -, -, -, -, -, -, -, -, hg⟩⟩ :=
      decodeHw_done (whenValidated_done he).2.2
    · rfl
    · refine Fcd.ext ?_ ?_ ?_ ?_ ?_ ?_ ?_ rfl ?_ ?_ ?_ ?_ ?_ rfl rfl rfl rfl <;> rw [hg]
  case dbCell =>
    obtain ⟨-, rfl | ⟨vs, -, rfl⟩⟩ := decodeCells_done (whenValidated_done he).2.2 <;> rfl
  all_goals exact extract he

/-- An operation outside R32's list keeps the accumulator. -/
theorem DoneFrame.sums {i : Instr} {f g : Fcd} (h : DoneFrame i f g) (hi : writesSums i = false) :
    g.sum8 = f.sum8 ∧ g.sum16 = f.sum16 := by
  cases i <;> first
    | (cases hi; done)
    | exact ⟨(congrArg Fcd.sum8 h :), (congrArg Fcd.sum16 h :)⟩

/-- An operation outside R43's list keeps VALID, VK and the window. -/
theorem DoneFrame.window {i : Instr} {f g : Fcd} (h : DoneFrame i f g) (hi : clearsValid i = false) :
    g.valid = f.valid ∧ g.vk = f.vk ∧ g.pbase = f.pbase ∧ g.plen = f.plen := by
  cases i <;> first
    | (cases hi; done)
    | exact ⟨(congrArg Fcd.valid h :), (congrArg Fcd.vk h :), (congrArg Fcd.pbase h :), (congrArg Fcd.plen h :)⟩

/-- The operations that write the buffer or WP: CLR, PUSH, ENC.A, ENC.B and SRST. -/
def writesBuffer : Instr → Bool
  | .clr | .push _ | .encA _ _ | .encB _ _ | .srst => true
  | _ => false

/-- Any other operation keeps the buffer and WP (R63). -/
theorem DoneFrame.buffer {i : Instr} {f g : Fcd} (h : DoneFrame i f g) (hi : writesBuffer i = false) :
    g.fb = f.fb ∧ g.wp = f.wp := by
  cases i <;> first
    | (cases hi; done)
    | exact ⟨(congrArg Fcd.fb h :), (congrArg Fcd.wp h :)⟩

/-- An operation that writes the buffer ends with VALID = 0 (R43). -/
theorem DoneFrame.invalid {i : Instr} {f g : Fcd} (h : DoneFrame i f g) (hi : writesBuffer i = true) : g.valid = false := by
  cases i <;> first
    | (cases hi; done)
    | exact (congrArg Fcd.valid h :)

/-- An operation whose effect is done keeps the fault fields, SRST apart (R226, R229). -/
theorem DoneFrame.faults {i : Instr} {f g : Fcd} (h : DoneFrame i f g) (hi : i ≠ .srst) :
    g.fault = f.fault ∧ g.fcode = f.fcode := by
  cases i <;> first
    | exact absurd rfl hi
    | exact ⟨(congrArg Fcd.fault h :), (congrArg Fcd.fcode h :)⟩

/-- A raised fault writes the two fault fields at most (R226). -/
theorem Fcd.raise_eq (f : Fcd) (c : Cause) : f.raise c = { f with fault := (f.raise c).fault, fcode := (f.raise c).fcode } := by
  cases hf : f.fault with
  | true => rw [Fcd.raise_of_halted hf]
  | false => rw [Fcd.raise_of_running hf]; rfl

/-! ### Decoders and extract operations that find their operands -/

/-- A DA.* operation on a validated vendor-A frame carries its effect out (R170). -/
theorem State.performA_ready {s : State} {b : Nat → Byte} (h : s.ReadyA b) (op : Fcd → Effect) :
    s.performA op = s.settle (op s.fcd) := by
  obtain ⟨hf, hv, hk, -⟩ := h
  rw [State.performA, State.perform_running hf, whenValidated_met hv hk]

/-- A DB.* operation on a validated vendor-B frame carries its effect out (R180). -/
theorem State.performB_ready {s : State} {d : Nat → Byte} (h : s.ReadyB d) (op : Fcd → Effect) :
    s.performB op = s.settle (op s.fcd) := by
  obtain ⟨⟨hf, hv, -⟩, hk⟩ := h
  rw [State.performB, State.perform_running hf, whenValidated_met hv hk]

/-- An extract operation inside the window (R200). -/
theorem perform_extract_inside {s : State} {d : Nat → Byte} {off : Byte} {width : Nat} (h : s.ReadyWindow d)
    (hw : off.toNat + width ≤ s.fcd.plen) {value : Fcd → Nat → Option Int} {v : Int} (hv : value s.fcd off.toNat = some v) :
    s.perform (extractField off width value) = .next (s.answer { s.fcd with xr := signed v, err := .ok } (signed v)) := by
  rw [State.perform_running h.1, extractField, whenValid_valid h.2.1, if_neg (by omega), hv, reading_some]
  rfl

/-- An extract operation whose bytes are not all inside the window (R200). -/
theorem perform_extract_outside {s : State} {off : Byte} {width : Nat} (h : s.fcd.fault = false) (hv : s.fcd.valid = true)
    (hw : ¬off.toNat + width ≤ s.fcd.plen) (value : Fcd → Nat → Option Int) :
    s.perform (extractField off width value) = .next (s.answer { s.fcd with err := .truncated } 0) := by
  rw [State.perform_running h, extractField, whenValid_valid hv, if_pos (by omega)]
  rfl

/-- A list of AADD words in a unit that is not halted feeds its bytes (R122, R124). -/
theorem runAll_aadd {s : State} (bs : List Byte) (h : s.fcd.fault = false) :
    runAll (bs.map Instr.aadd) s = some (if bs = [] then s else s.answer (bs.foldl Fcd.feed s.fcd) 0) := by
  induction bs generalizing s with
  | nil => rfl
  | cons b bs ih =>
    simp only [List.map_cons, runAll, exec, execAadd, State.perform_running h, State.settle_done]
    rw [ih (by simpa using h)]
    by_cases hb : bs = []
    · subst hb
      simp
    · simp only [hb, if_false, List.foldl_cons, reduceCtorEq]
      rfl

end Machine
end Sys2Proof
end

