-- ==== Sys2Proof/Laws/PerInstr.lean ====
section
/-! SUPPORT. One lemma per constructor: the opcode byte of each instruction is the one spec/30_encoding.md R86 gives its
mnemonic. -/

namespace Sys2Proof
namespace Laws

/-- R86's `op` column, by mnemonic. -/
def opcodeOf : String → Option Nat
  | "NOP" => some 0x00
  | "CLR" => some 0x01
  | "PUSH" => some 0x02
  | "RDB" => some 0x03
  | "RDR" => some 0x04
  | "SRST" => some 0x05
  | "ACLR" => some 0x10
  | "AADD" => some 0x11
  | "CHK.A" => some 0x20
  | "CHK.B" => some 0x21
  | "ENC.A" => some 0x22
  | "ENC.B" => some 0x23
  | "DA.VIS" => some 0x30
  | "DA.MMV" => some 0x31
  | "DA.MMT" => some 0x32
  | "DA.STAT" => some 0x33
  | "DA.CELLV" => some 0x34
  | "DA.CELLT" => some 0x35
  | "DA.BAL" => some 0x36
  | "DA.FAIL" => some 0x37
  | "DA.MOS" => some 0x38
  | "DB.HW" => some 0x40
  | "DB.CELL" => some 0x41
  | "XU8" => some 0x50
  | "XS8" => some 0x51
  | "XU16" => some 0x52
  | "XS16" => some 0x53
  | "XBIT" => some 0x54
  | "XBIT16" => some 0x55
  | "XK16" => some 0x56
  | _ => none

namespace OpcodeByte

/-- Bits 31:24 of the instruction's word are the opcode R86 gives its mnemonic. -/
def Statement (i : Instr) : Prop := opcodeOf i.mnemonic = some ((encode i).toNat / 2 ^ 24)

/-- It is enough to look at the fields. -/
theorem of_fields {i : Instr} (h : opcodeOf i.mnemonic = some (encodeFields i).op.toNat) : Statement i := by
  rw [Statement, encode, ← Fields.split_op_toNat, Fields.split_join, h]

theorem nop : Statement (.nop) := of_fields rfl
theorem clr : Statement (.clr) := of_fields rfl
theorem push (x : Byte) : Statement (.push x) := of_fields rfl
theorem rdb (x : Nat) : Statement (.rdb x) := of_fields rfl
theorem rdr (x : Byte) : Statement (.rdr x) := of_fields rfl
theorem srst : Statement (.srst) := of_fields rfl
theorem aclr : Statement (.aclr) := of_fields rfl
theorem aadd (x : Byte) : Statement (.aadd x) := of_fields rfl
theorem chkA : Statement (.chkA) := of_fields rfl
theorem chkB : Statement (.chkB) := of_fields rfl
theorem encA (x : Byte) (y : Byte) : Statement (.encA x y) := of_fields rfl
theorem encB (x : WireAction) (y : Byte) : Statement (.encB x y) := of_fields (by cases x <;> rfl)
theorem daVis : Statement (.daVis) := of_fields rfl
theorem daMmv : Statement (.daMmv) := of_fields rfl
theorem daMmt : Statement (.daMmt) := of_fields rfl
theorem daStat : Statement (.daStat) := of_fields rfl
theorem daCellv (x : Nat) : Statement (.daCellv x) := of_fields rfl
theorem daCellt (x : Nat) : Statement (.daCellt x) := of_fields rfl
theorem daBal : Statement (.daBal) := of_fields rfl
theorem daFail : Statement (.daFail) := of_fields rfl
theorem daMos : Statement (.daMos) := of_fields rfl
theorem dbHw : Statement (.dbHw) := of_fields rfl
theorem dbCell : Statement (.dbCell) := of_fields rfl
theorem xu8 (x : Byte) : Statement (.xu8 x) := of_fields rfl
theorem xs8 (x : Byte) : Statement (.xs8 x) := of_fields rfl
theorem xu16 (x : Byte) : Statement (.xu16 x) := of_fields rfl
theorem xs16 (x : Byte) : Statement (.xs16 x) := of_fields rfl
theorem xbit (x : Byte) (y : Nat) : Statement (.xbit x y) := of_fields rfl
theorem xbit16 (x : Byte) (y : Nat) : Statement (.xbit16 x y) := of_fields rfl
theorem xk16 (x : Byte) : Statement (.xk16 x) := of_fields rfl

end OpcodeByte
end Laws
end Sys2Proof
end

