-- ==== Sys2Proof/Machine/Assembly.lean ====
section
/-! DEFINITION. The textual form of spec/30_encoding.md R91 and the pseudo-instructions of R92, read as operations (log entry 12).
The word of a line is `encode` of its operation; the unit itself never sees text. -/

namespace Sys2Proof
namespace Machine

/-- The part of a line before its comment: "A `;` starts a comment to the end of the line". -/
def beforeComment : List Char → List Char
  | [] => []
  | c :: cs => if c = ';' then [] else c :: beforeComment cs

/-- The pieces of a line between separators, empty pieces dropped. -/
def pieces (isSeparator : Char → Bool) : List Char → List (List Char)
  | [] => []
  | c :: cs =>
    let rest := pieces isSeparator cs
    if isSeparator c then rest
    else
      match cs, rest with
      | [], _ => [[c]]
      | d :: _, p :: ps => if isSeparator d then [c] :: p :: ps else (c :: p) :: ps
      | _ :: _, [] => [[c]]

/-- The value of a digit in a base up to 16. -/
def digitValue (base : Nat) (c : Char) : Option Nat :=
  let v :=
    if '0' ≤ c ∧ c ≤ '9' then c.toNat - '0'.toNat
    else if 'A' ≤ c ∧ c ≤ 'F' then c.toNat - 'A'.toNat + 10
    else if 'a' ≤ c ∧ c ≤ 'f' then c.toNat - 'a'.toNat + 10
    else base
  if v < base then some v else none

/-- The value of a digit sequence, `acc` the value of the digits before it. -/
def digitsValue (base : Nat) (acc : Nat) : List Char → Option Nat
  | [] => some acc
  | c :: cs =>
    match digitValue base c with
    | some v => digitsValue base (acc * base + v) cs
    | none => none

/-- "Operands are numbers in decimal or in hexadecimal with `0x`." A number without `0x` is read in base `bare`. -/
def readNumber (bare : Nat) : List Char → Option Nat
  | [] => none
  | '0' :: 'x' :: c :: cs => digitsValue 16 0 (c :: cs)
  | cs => digitsValue bare 0 cs

/-- A number that fits a byte. -/
def readByteOperand (bare : Nat) (cs : List Char) : Option Byte :=
  match readNumber bare cs with
  | some n => if n < 256 then some (BitVec.ofNat 8 n) else none
  | none => none

/-- An element of an array of R40, `NAME[i]`, as its register number. -/
def readElement (cs : List Char) : Option Nat :=
  match pieces (fun c => c = '[' || c = ']') cs with
  | [name, index] =>
    match readNumber 10 index with
    | some i =>
      if name = ['A', 'L', 'M'] ∧ i < 7 then some (almNumber i)
      else if name = ['C', 'V'] ∧ i < 48 then some (cvNumber i)
      else if name = ['T'] ∧ i < 16 then some (tNumber i)
      else none
    | none => none
  | _ => none

/-- RDR's operand: a number, or a register name "in place of its number". -/
def readRegisterOperand (cs : List Char) : Option Byte :=
  match readByteOperand 10 cs with
  | some n => some n
  | none => ((scalarRegisterNames.find? fun p => p.1.toList == cs).map Prod.snd |>.or (readElement cs)).map (BitVec.ofNat 8)

/-- ENC.B's act: "`0`, `1`, `READ` or `WRITE`". -/
def readAction (cs : List Char) : Option WireAction :=
  if cs = ['0'] ∨ cs = ['R', 'E', 'A', 'D'] then some .read
  else if cs = ['1'] ∨ cs = ['W', 'R', 'I', 'T', 'E'] then some .write
  else none

/-- The operation of a mnemonic and its operands, in R91's order; operands still unchecked against their fields. -/
def readOperation (mnemonic : String) (operands : List (List Char)) : Option Instr :=
  match mnemonic, operands with
  | "NOP", [] => some .nop
  | "CLR", [] => some .clr
  | "PUSH", [b] => (readByteOperand 10 b).map .push
  | "RDB", [idx] => (readNumber 10 idx).map .rdb
  | "RDR", [n] => (readRegisterOperand n).map .rdr
  | "SRST", [] => some .srst
  | "ACLR", [] => some .aclr
  | "AADD", [b] => (readByteOperand 10 b).map .aadd
  | "CHK.A", [] => some .chkA
  | "CHK.B", [] => some .chkB
  | "ENC.A", [addr, cmd] => (readByteOperand 10 addr).bind fun a => (readByteOperand 10 cmd).map (.encA a)
  | "ENC.B", [act, reg] => (readAction act).bind fun a => (readByteOperand 10 reg).map (.encB a)
  | "DA.VIS", [] => some .daVis
  | "DA.MMV", [] => some .daMmv
  | "DA.MMT", [] => some .daMmt
  | "DA.STAT", [] => some .daStat
  | "DA.CELLV", [k] => (readNumber 10 k).map .daCellv
  | "DA.CELLT", [k] => (readNumber 10 k).map .daCellt
  | "DA.BAL", [] => some .daBal
  | "DA.FAIL", [] => some .daFail
  | "DA.MOS", [] => some .daMos
  | "DB.HW", [] => some .dbHw
  | "DB.CELL", [] => some .dbCell
  | "XU8", [off] => (readByteOperand 10 off).map .xu8
  | "XS8", [off] => (readByteOperand 10 off).map .xs8
  | "XU16", [off] => (readByteOperand 10 off).map .xu16
  | "XS16", [off] => (readByteOperand 10 off).map .xs16
  | "XBIT", [off, k] => (readByteOperand 10 off).bind fun a => (readNumber 10 k).map (.xbit a)
  | "XBIT16", [off, k] => (readByteOperand 10 off).bind fun a => (readNumber 10 k).map (.xbit16 a)
  | "XK16", [off] => (readByteOperand 10 off).map .xk16
  | _, _ => none

/-- The operation, if a command word can express it. -/
def expressible (i : Instr) : Option Instr := if i.wellFormed then some i else none

/-- One line: an operation (R91), a pseudo-instruction's expansion (R92), or nothing where the line holds only a comment. FRAME's
bytes stand without `0x` in the spec's examples and are read as hexadecimal (log entry 12). -/
def readLine (line : List Char) : Option (List Instr) :=
  match pieces (fun c => c = ' ' || c = ',') (beforeComment line) with
  | [] => some []
  | name :: operands =>
    if name = "FRAME".toList then (operands.mapM (readByteOperand 16)).map pseudoFrame
    else if name = "ACC".toList then (operands.mapM (readByteOperand 10)).map pseudoAcc
    else if name = "RESET".toList ∧ operands = [] then some pseudoReset
    else (readOperation (String.ofList name) operands).bind fun i => (expressible i).map fun i => [i]

end Machine
end Sys2Proof
end

