-- ==== Sys2Proof/Tests/Slice0.lean ====
section
/-! SUPPORT. Tests whose expected results are the spec's own (spec/95_test_vectors.md V1 to V147 and the words of
spec/30_encoding.md R85, R86, R91), and for each obligation with hypotheses a concrete case that meets them. -/

namespace Sys2Proof
namespace Tests
open Machine

/-! ### States to test on -/

/-- The buffer's list for a byte sequence from index 0 on. -/
def buffer (bytes : List Byte) : Memory := bytes.zipIdx.map fun p => (p.2, p.1)

/-- The byte of a sequence at a position. -/
def at0 (bytes : List Byte) (i : Nat) : Byte := bytes.getD i 0

/-- A unit just after reset, but with these bytes in its buffer. -/
def holding (bytes : List Byte) : State :=
  { State.reset with fcd := { Fcd.reset with fb := buffer bytes, wp := bytes.length } }

/-- The same, the bytes a vendor-A frame that passed CHK.A (R131). -/
def checkedA (bytes : List Byte) : State :=
  { State.reset with fcd := { (holding bytes).fcd with valid := true, vk := some .vendorA, plen := 12 } }

/-- The same, the bytes a vendor-B frame that passed CHK.B (R133). -/
def checkedB (bytes : List Byte) : State :=
  { State.reset with fcd := { (holding bytes).fcd with
      valid := true, vk := some .vendorB, pbase := 4, plen := bytes.length - 7 } }

/-- A state with the two count registers set. -/
def counting (cells sensors : Word) (s : State) : State :=
  { s with fcd := { s.fcd with res := { s.fcd.res with cellcnt := cells, tempcnt := sensors } } }

/-- A halted unit with first cause NotValidated, as in V143 to V146. -/
def halted : State := { State.reset with fcd := { Fcd.reset with fault := true, fcode := some .notValidated } }

/-- What a view of the state after an operation shows. -/
def shows {α : Type} (i : Instr) (s : State) (view : State → α) : Option α :=
  match exec i s with
  | .next t => some (view t)
  | .fault _ => none
  | .refused _ => none

/-- What a view of the state after one step on a command word shows. -/
def showsWord {α : Type} (w : Word) (s : State) (view : State → α) : Option α :=
  match step { s with inbox := [.command w] } with
  | .next t => some (view t)
  | .fault _ => none
  | .refused _ => none

/-- V1's response. -/
def v1 : List Byte := [0xA5, 0x90, 0x00, 0x00, 0x01, 0xF4, 0x00, 0x00, 0x00, 0x32, 0x01, 0xF4, 0x51]

/-- V30's HWINFO frame. -/
def v30 : List Byte :=
  [0xDD, 0xA5, 0x03, 0x1B, 0x14, 0x82, 0xFB, 0x32, 0x1F, 0x40, 0x27, 0x10, 0x00, 0x2A, 0x2C, 0x8F, 0x80, 0x05]
    ++ [0x00, 0x01, 0x28, 0x02, 0x20, 0x50, 0x02, 0x04, 0x02, 0x0B, 0xA5, 0x0A, 0x79, 0xFA, 0x49, 0x77]

/-- V31: V30's payload cut to 26 bytes. -/
def v31 : List Byte :=
  [0xDD, 0xA5, 0x03, 0x1A, 0x14, 0x82, 0xFB, 0x32, 0x1F, 0x40, 0x27, 0x10, 0x00, 0x2A, 0x2C, 0x8F, 0x80, 0x05]
    ++ [0x00, 0x01, 0x28, 0x02, 0x20, 0x50, 0x02, 0x04, 0x02, 0x0B, 0xA5, 0x0A, 0xFA, 0xC3, 0x77]

/-- V32's CELLINFO frame. -/
def v32 : List Byte :=
  [0xDD, 0xA5, 0x04, 0x08, 0x0C, 0xE4, 0x0D, 0x2F, 0x0C, 0xE4, 0x0D, 0x2F, 0xFD, 0x9C, 0x77]

/-- V33: V32's payload cut to 6 bytes. -/
def v33 : List Byte := [0xDD, 0xA5, 0x04, 0x06, 0x0C, 0xE4, 0x0D, 0x2F, 0x0C, 0xE4, 0xFD, 0xDA, 0x77]

/-- V50: the vendor-B frame without data. -/
def v50 : List Byte := [0xDD, 0xA5, 0x03, 0x00, 0xFF, 0xFD, 0x77]

/-! ### Decoding (R85, R86, R91): a word of every row -/

theorem test_decode_buffer :
    decode 0x00000000 = .ok .nop ∧ decode 0x01000000 = .ok .clr ∧ decode 0x020000DD = .ok (.push 0xDD) ∧
    decode 0x0300000C = .ok (.rdb 12) ∧ decode 0x030001FF = .ok (.rdb 511) ∧ decode 0x04000010 = .ok (.rdr 0x10) ∧
    decode 0x05000000 = .ok .srst := by decide

theorem test_decode_accumulator :
    decode 0x10000000 = .ok .aclr ∧ decode 0x110000FF = .ok (.aadd 0xFF) := by decide

theorem test_decode_frame :
    decode 0x20000000 = .ok .chkA ∧ decode 0x21000000 = .ok .chkB ∧ decode 0x2201DA00 = .ok (.encA 0x01 0xDA) ∧
    decode 0x23000300 = .ok (.encB .read 0x03) ∧ decode 0x2301E100 = .ok (.encB .write 0xE1) := by decide

theorem test_decode_vendorA :
    decode 0x30000000 = .ok .daVis ∧ decode 0x31000000 = .ok .daMmv ∧ decode 0x32000000 = .ok .daMmt ∧
    decode 0x33000000 = .ok .daStat ∧ decode 0x3400000F = .ok (.daCellv 15) ∧ decode 0x35000003 = .ok (.daCellt 3) ∧
    decode 0x36000000 = .ok .daBal ∧ decode 0x37000000 = .ok .daFail ∧ decode 0x38000000 = .ok .daMos := by decide

theorem test_decode_vendorB : decode 0x40000000 = .ok .dbHw ∧ decode 0x41000000 = .ok .dbCell := by decide

theorem test_decode_extract :
    decode 0x50130000 = .ok (.xu8 19) ∧ decode 0x51020000 = .ok (.xs8 2) ∧ decode 0x52190000 = .ok (.xu16 25) ∧
    decode 0x53020000 = .ok (.xs16 2) ∧ decode 0x54140001 = .ok (.xbit 20 1) ∧
    decode 0x5510000D = .ok (.xbit16 16 13) ∧ decode 0x56170000 = .ok (.xk16 23) := by decide

/-- V142: the unassigned op values next to each family; V140. -/
theorem test_decode_unassigned :
    [0x06000000, 0x12000000, 0x24000000, 0x39000000, 0x42000000, 0x57000000, 0xFF000000].all
      (fun w : Word => !legalWord w && (decode w).toOption == none) = true := by decide

/-- R88's examples of bits that must be zero, V80, V102, V136, V141, and the first values past each operand's range. -/
theorem test_decode_must_be_zero :
    [0x01000001, 0x02010000, 0x03000200, 0x03010000, 0x23020300, 0x23000301, 0x34000010, 0x35000004, 0x50010001,
      0x54140008, 0x55100010].all
      (fun w : Word => !legalWord w && (decode w).toOption == none) = true := by decide

/-- The reason a rejection carries. -/
theorem test_decode_reasons :
    decode 0x57000000 = .error (.unassignedOp 0x57) ∧ decode 0x34000010 = .error (.mustBeZero 0x34) := by decide

theorem test_encode_words :
    encode (.encB .write 0xE1) = 0x2301E100 ∧ encode (.rdb 268) = 0x0300010C ∧ encode (.xbit16 16 11) = 0x5510000B := by
  decide

/-- The host's two questions of one table word: decoding it, and running it as the first instruction after reset. -/
theorem test_table_word :
    decodeTableWord 32 0x020000DD = some (.push 0xDD) ∧ decodeTableWord 32 0xFF000000 = none ∧
    (match step (State.reset.withFetchWord 32 0x020000DD) with
      | .next t => some (t.fcd.fb, t.fcd.wp, t.inbox)
      | .fault _ => none
      | .refused _ => none) = some ([(0, 0xDD)], 1, []) := by decide

/-! ### Ill-formed terms the checks refuse -/

theorem test_illformed_rdb : (Instr.rdb 512).wellFormed = false := by decide
theorem test_illformed_daCellv : (Instr.daCellv 16).wellFormed = false := by decide
theorem test_illformed_daCellt : (Instr.daCellt 4).wellFormed = false := by decide
theorem test_illformed_xbit : (Instr.xbit 0 8).wellFormed = false := by decide
theorem test_illformed_xbit16 : (Instr.xbit16 0 16).wellFormed = false := by decide

/-- R5's condition on LayoutB, each part broken once. -/
theorem test_illformed_layoutB :
    [{ LayoutB.default with offProt := 22 }, { LayoutB.default with offNtc := 23 }, { LayoutB.default with offTemps := 22 },
      { LayoutB.default with offTemps := 224 }, { LayoutB.default with fetChgBit := 8 },
      { LayoutB.default with fetDsgBit := 8 }].all (fun l => !l.wellFormed) = true := by decide

/-- Offsets that leave vendor A's data bytes, and an SOC_A_MUL outside 1..10. -/
theorem test_illformed_params :
    [{ Params.default.toParamValues with aPayloadOff := 12 }, { Params.default.toParamValues with cellvAOff := 7 },
      { Params.default.toParamValues with celltAOff := 6 }, { Params.default.toParamValues with balAOff := 9 },
      { Params.default.toParamValues with almAOff := 3 }, { Params.default.toParamValues with socAMul := 11 },
      { Params.default.toParamValues with socAMul := 0 }].all (fun p => !p.wellFormed) = true := by decide

/-! ### R91's text form -/

theorem test_text :
    Instr.text .chkA = "CHK.A" ∧ Instr.text (.encB .write 0xE1) = "ENC.B 1, 225" ∧ Instr.text (.xbit16 16 11) = "XBIT16 16, 11" ∧
    registerNumber "VPACK" = some 0x10 ∧ cvNumber 3 = 0x43 ∧ tNumber 1 = 0x71 ∧ almNumber 2 = 0x2A := by decide

theorem test_pseudo : pseudoFrame [0xDD] = [.clr, .push 0xDD] ∧ pseudoAcc [3, 0] = [.aclr, .aadd 3, .aadd 0] := by decide

/-- R91's own examples, and a comment. -/
theorem test_readLine :
    readLine "RDR VPACK".toList = some [.rdr 0x10] ∧ readLine "RDR CV[3]".toList = some [.rdr 0x43] ∧
    readLine "RDR T[1]".toList = some [.rdr 0x71] ∧ readLine "RDR ALM[2]  ; severity".toList = some [.rdr 0x2A] ∧
    readLine "ENC.B WRITE, 0xE1".toList = some [.encB .write 0xE1] ∧ readLine "; nothing".toList = some [] := by decide

/-- R92, and lines no word expresses. -/
theorem test_readLine_pseudo :
    readLine "FRAME DD A5".toList = some [.clr, .push 0xDD, .push 0xA5] ∧
    readLine "ACC 0x03 0x00".toList = some [.aclr, .aadd 3, .aadd 0] ∧ readLine "RESET".toList = some [.srst] ∧
    readLine "XBIT 20, 8".toList = none ∧ readLine "RDB 512".toList = none ∧ readLine "PUSH 256".toList = none := by decide

/-- The line of an operation is read back as the operation. -/
theorem test_readLine_text :
    [Instr.encB .write 0xE1, .xbit16 16 11, .daCellv 15, .rdb 268, .dbHw].all
      (fun i => readLine i.text.toList == some [i]) = true := by decide

/-! ### Buffer, register access, reset (V10 to V23) -/

/-- V22. -/
theorem test_nop : exec .nop halted = .next { halted with rsp := some ⟨true, .ok, 0⟩ } := rfl

/-- V20. -/
theorem test_clr :
    shows .clr (checkedA v1) (fun t => ([t.fcd.wp, t.fcd.pbase, t.fcd.plen], t.fcd.valid, t.fcd.vk, t.fcd.byte? 0))
      = some ([0, 0, 0], false, none, none) := by decide

/-- V10, V23. -/
theorem test_push :
    shows (.push 0xDD) State.reset (fun t => (t.fcd.byte? 0, t.fcd.wp, t.rsp)) = some (some 0xDD, 1, some ⟨false, .ok, 0⟩) ∧
    shows (.push 0) (checkedA v1) (fun t => (t.fcd.valid, t.fcd.vk)) = some (false, none) := by decide

/-- V12. -/
theorem test_push_overflow :
    shows (.push 0xFF) { State.reset with fcd := { Fcd.reset with wp := 262 } }
      (fun t => (t.fcd.fault, t.fcd.fcode, t.fcd.wp, t.fcd.fb)) = some (true, some .bufferOverflow, 262, []) := by decide

/-- V13. -/
theorem test_rdb : shows (.rdb 4) (holding v50) (·.rsp) = some (some ⟨false, .ok, 0xFF⟩) := by decide

/-- V14, V15. -/
theorem test_rdb_beyond :
    shows (.rdb 7) (holding v50) (·.fcd.fcode) = some (some .badIndex) ∧
    shows (.rdb 0) State.reset (·.fcd.fcode) = some (some .badIndex) := by decide

/-- V19 with VK = B and with VK = A, and halted. -/
theorem test_rdr_status :
    shows (.rdr 0) (checkedB v50) (fun t => t.rsp.map Response.data) = some (some 5) ∧
    shows (.rdr 0) (checkedA v1) (fun t => t.rsp.map Response.data) = some (some 3) ∧
    shows (.rdr 0) halted (fun t => t.rsp.map Response.data) = some (some 8) := by decide

/-- V17, V18, V16, V145. -/
theorem test_rdr_values :
    shows (.rdr 0x11) { State.reset with fcd := { Fcd.reset with res := { Results.reset with ipack := BitVec.ofInt 32 (-12300) } } }
      (fun t => t.rsp.map Response.data) = some (some 0xFFFFCFF4) ∧
    shows (.rdr 0x71) { State.reset with fcd := { Fcd.reset with t := Fcd.reset.t.set 1 (BitVec.ofInt 32 (-50)) } }
      (fun t => t.rsp.map Response.data) = some (some 0xFFFFFFCE) ∧
    shows (.rdr 0x0B) State.reset (fun t => (t.fcd.fcode, t.rsp)) = some (some .badRegister, some ⟨true, .ok, 0⟩) ∧
    shows (.rdr 0x0B) halted (fun t => (t.fcd.fcode, t.rsp)) = some (some .notValidated, some ⟨true, .ok, 0⟩) := by decide

/-- V21, V147. -/
theorem test_srst : shows .srst (counting 4 2 halted) (fun t => (t.fcd, t.rsp)) = some (Fcd.reset, some ⟨false, .ok, 0⟩) := by
  decide

/-! ### Accumulator (V24 to V29) -/

/-- R121's example. -/
theorem test_aclr :
    shows .aclr { State.reset with fcd := { Fcd.reset with sum8 := 0x51, sum16 := 0x0351 } }
      (fun t => (t.fcd.sum8, t.fcd.sum16, t.fcd.ncrc)) = some (0, 0, 0) := by decide

/-- V27: both halves wrap. -/
theorem test_aadd_wraps :
    shows (.aadd 1) { State.reset with fcd := { Fcd.reset with sum8 := 0xFF, sum16 := 0xFFFF } }
      (fun t => (t.fcd.sum8, t.fcd.sum16, t.fcd.ncrc)) = some (0, 0, 0) := by decide

/-- V26: the byte is zero-extended. -/
theorem test_aadd_zero_extends :
    shows (.aadd 0xFF) { State.reset with fcd := { Fcd.reset with sum8 := 3, sum16 := 3 } }
      (fun t => (t.fcd.sum8, t.fcd.sum16, t.fcd.ncrc)) = some (0x02, 0x0102, 0xFEFE) := by decide

/-! ### Frame check and build (V40 to V80) -/

/-- V40. -/
theorem test_chkA :
    shows .chkA (holding v1)
      (fun t => ((t.fcd.err, t.fcd.valid, t.fcd.vk), (t.fcd.sum8, t.fcd.sum16), [t.fcd.pbase, t.fcd.plen]))
      = some ((.ok, true, some .vendorA), (0x51, 0x0351), [0, 12]) := by decide

/-- V41, V46, and V3's changed start byte: no start-byte test. -/
theorem test_chkA_rejects :
    shows .chkA (holding (v1.take 12)) (fun t => (t.fcd.err, t.fcd.sum8)) = some (.lengthMismatch, 0) ∧
    shows .chkA (holding (List.replicate 12 0 ++ [1])) (fun t => (t.fcd.err, t.fcd.valid)) = some (.checksumMismatch, false) ∧
    shows .chkA (holding (v1.set 0 0xA6)) (·.fcd.err) = some .checksumMismatch := by decide

/-- V30, V60. -/
theorem test_chkB :
    shows .chkB (holding v30)
      (fun t => ((t.fcd.err, t.fcd.vk, t.fcd.freg), [t.fcd.sum16, t.fcd.ncrc], [t.fcd.pbase, t.fcd.plen]))
      = some ((.ok, some .vendorB, 3), [0x05B7, 0xFA49], [4, 27]) ∧
    shows .chkB (holding (v50.set 1 0)) (·.fcd.err) = some .ok := by decide

/-- V51, V57, V58, V59, V56: in the order of the tests. -/
theorem test_chkB_rejects :
    shows .chkB (holding (v50.take 6)) (·.fcd.err) = some .lengthMismatch ∧
    shows .chkB (holding [0xDC, 0xA5, 0x03, 0x01, 0xFF, 0xFD, 0x76]) (·.fcd.err) = some .badStart ∧
    shows .chkB (holding [0xDD, 0xA5, 0x03, 0x01, 0xFF, 0xFD, 0x76]) (·.fcd.err) = some .badEnd ∧
    shows .chkB (holding [0xDD, 0xA5, 0x03, 0x01, 0xFF, 0xFC, 0x77]) (·.fcd.err) = some .lengthMismatch ∧
    shows .chkB (holding (v50.set 5 0xFC)) (fun t => (t.fcd.err, t.fcd.ncrc)) = some (.crcMismatch, 0xFFFD) := by decide

/-- V70. -/
theorem test_encA :
    shows (.encA 0x01 0x90) State.reset (fun t => (t.fcd.bytes? 0 13, t.fcd.wp, t.fcd.sum8, t.fcd.sum16))
      = some (some [0xA5, 0x01, 0x90, 0, 0, 0, 0, 0, 0, 0, 0, 0, 0x36], 13, 0x36, 0x0136) := by decide

/-- V72, V73. -/
theorem test_encA_payload :
    shows (.encA 0x40 0x90) (holding [1, 2, 3, 4, 5, 6, 7, 8]) (·.fcd.bytes? 0 13)
      = some (some [0xA5, 0x40, 0x90, 0, 1, 2, 3, 4, 5, 6, 7, 8, 0x99]) ∧
    shows (.encA 0x01 0x90) (holding (List.replicate 9 7)) (fun t => (t.fcd.fcode, t.fcd.wp, t.fcd.fb))
      = some (some .payloadTooLong, 9, buffer (List.replicate 9 7)) := by decide

/-- V74. -/
theorem test_encB :
    shows (.encB .read 0x03) State.reset (fun t => (t.fcd.bytes? 0 7, t.fcd.wp, t.fcd.sum16)) = some (some v50, 7, 3) := by decide

/-- V76. -/
theorem test_encB_payload :
    shows (.encB .write 0xE1) (holding [1, 2, 3]) (fun t => (t.fcd.bytes? 0 10, t.fcd.sum16))
      = some (some [0xDD, 0x5A, 0xE1, 0x03, 1, 2, 3, 0xFF, 0x16, 0x77], 0x00EA) := by decide

/-! ### Vendor-A decode (V90 to V108) -/

/-- V90. -/
theorem test_daVis :
    shows .daVis (checkedA [0xA5, 0x01, 0x90, 0, 0x02, 0x0D, 0, 0, 0xFF, 0x85, 0x03, 0xE7, 0xB3])
      (fun t => (t.fcd.res.vpack, t.fcd.res.ipack, t.fcd.res.soc)) = some (52500, 0xFFFFCFF4, 999) := by decide

/-- V107, V108, V143. -/
theorem test_daVis_refused :
    shows .daVis (holding v1) (·.fcd.fcode) = some (some .notValidated) ∧
    shows .daVis (checkedB v50) (·.fcd.fcode) = some (some .vendorMismatch) ∧
    shows .daVis halted (fun t => (t.fcd, t.rsp)) = some (halted.fcd, some ⟨true, .ok, 0⟩) := by decide

/-- V93, V94. -/
theorem test_daMmv :
    shows .daMmv (checkedA [0xA5, 0x01, 0x91, 0, 0x0D, 0x2F, 0x03, 0x0C, 0xE4, 0x07, 0, 0, 0x6D])
      (fun t => (t.fcd.res.vmax, t.fcd.res.vmaxidx, t.fcd.res.vmin, t.fcd.res.vminidx, t.fcd.res.vdelta))
      = some (3375, 3, 3300, 7, 75) ∧
    shows .daMmv (checkedA [0xA5, 0x01, 0x91, 0, 0x0C, 0xE4, 0x03, 0x0D, 0x2F, 0x07, 0, 0, 0x6D]) (·.fcd.res.vdelta)
      = some 0xFFFFFFB5 := by decide

/-- V95. -/
theorem test_daMmt :
    shows .daMmt (checkedA [0xA5, 0x01, 0x92, 0, 0x19, 0x01, 0xFB, 0x02, 0, 0, 0, 0, 0x4F])
      (fun t => (t.fcd.res.tmax.toInt, t.fcd.res.tmin.toInt)) = some (250, -50) := by decide

/-- V98. -/
theorem test_daStat :
    shows .daStat (checkedA [0xA5, 0x01, 0x94, 0, 0x40, 0xFF, 0x02, 0x01, 0, 0, 0xFF, 0xFF, 0x7A])
      (fun t => (t.fcd.res.cellcnt, t.fcd.res.tempcnt, t.fcd.res.chgstate, t.fcd.res.loadstate, t.fcd.res.cycles))
      = some (48, 16, 2, 1, 65535) := by decide

/-- V101: cells 16 and 17 are at or above CELLCNT. -/
theorem test_daCellv :
    shows (.daCellv 5) (counting 16 0 (checkedA [0xA5, 0x01, 0x95, 0, 0x06, 0x0D, 0, 0x0D, 0x01, 0x0D, 0x02, 0, 0x6B]))
      (fun t => (t.fcd.cv[14], t.fcd.cv[15], t.fcd.cv[16], t.fcd.cv[17])) = some (0, 3328, 0, 0) := by decide

/-- V100. -/
theorem test_daCellv_no_cells :
    shows (.daCellv 0) (checkedA [0xA5, 0x01, 0x95, 0, 0x01, 0x0C, 0xE4, 0x0C, 0xE5, 0x0C, 0xE6, 0, 0x0F])
      (fun t => (t.fcd.err, t.fcd.cv)) = some (.ok, Fcd.reset.cv) := by decide

/-- V103. -/
theorem test_daCellt :
    shows (.daCellt 0) (counting 0 2 (checkedA [0xA5, 0x01, 0x96, 0, 0x01, 0x19, 0xFB, 0x1A, 0x1B, 0x1C, 0x1D, 0x1E, 0xDD]))
      (fun t => (t.fcd.t[0].toInt, t.fcd.t[1].toInt, t.fcd.t[2].toInt)) = some (250, -50, 0) := by decide

/-- V104. -/
theorem test_daBal :
    shows .daBal (checkedA [0xA5, 0x01, 0x97, 0, 0x05, 0x80, 0, 0x01, 0, 0, 0, 0, 0xC3]) (·.fcd.res.balmask)
      = some 0x01008005 := by decide

/-- V105. -/
theorem test_daFail :
    shows .daFail (checkedA [0xA5, 0x01, 0x98, 0, 0x01, 0, 0x80, 0, 0, 0, 0x42, 0xEE, 0xEF]) (·.fcd.alm.toList)
      = some [0x01, 0, 0x80, 0, 0, 0, 0x42] := by decide

/-- V106. -/
theorem test_daMos :
    shows .daMos (checkedA [0xA5, 0x01, 0x93, 0, 0x01, 0, 0x2C, 0, 0x4E, 0x20, 0, 0, 0xD4])
      (fun t => (t.fcd.res.chgfet, t.fcd.res.dsgfet, t.fcd.res.heartbeat, t.fcd.res.resid)) = some (1, 0, 44, 20000) := by decide

/-! ### Vendor-B decode (V30 to V39, V109, V110) -/

/-- V30. -/
theorem test_dbHw :
    shows .dbHw (checkedB v30)
      (fun t => ([t.fcd.res.vpack, t.fcd.res.cap, t.fcd.res.balmask, t.fcd.res.prot, t.fcd.res.soc, t.fcd.res.chgfet,
        t.fcd.res.dsgfet, t.fcd.res.cellcnt, t.fcd.res.tempcnt], [t.fcd.res.ipack.toInt, t.fcd.t[0].toInt, t.fcd.t[1].toInt]))
      = some ([52500, 100000, 0x00018005, 0x0802, 8000, 0, 1, 4, 2], [-12300, 250, -50]) := by decide

/-- V31: too short for its two sensors; V110. -/
theorem test_dbHw_truncated :
    shows .dbHw (checkedB v31) (fun t => (t.fcd.err, t.fcd.res)) = some (.truncated, Results.reset) ∧
    shows .dbHw (checkedA v1) (·.fcd.fcode) = some (some .vendorMismatch) := by decide

/-- V32: the lowest index wins each tie. -/
theorem test_dbCell :
    shows .dbCell (counting 4 0 (checkedB v32))
      (fun t => ([t.fcd.cv[0], t.fcd.cv[1], t.fcd.cv[2], t.fcd.cv[3], t.fcd.cv[4]],
        [t.fcd.res.vmax, t.fcd.res.vmaxidx, t.fcd.res.vmin, t.fcd.res.vminidx, t.fcd.res.vdelta]))
      = some ([3300, 3375, 3300, 3375, 0], [3375, 2, 3300, 1, 75]) := by decide

/-- V33, V109. -/
theorem test_dbCell_short_or_empty :
    shows .dbCell (counting 4 0 (checkedB v33)) (fun t => (t.fcd.err, t.fcd.cv, t.fcd.res.vmax))
      = some (.truncated, Fcd.reset.cv, 0) ∧
    shows .dbCell (checkedB v32) (fun t => (t.fcd.err, t.fcd.cv, t.fcd.res)) = some (.ok, Fcd.reset.cv, Results.reset) := by
  decide

/-! ### Extract operations (V120 to V135), on V30 -/

/-- What an extract operation leaves in ERR and XR, and its response's data. -/
def extracted (i : Instr) : Option (Err × Int × Option Word) :=
  shows i (checkedB v30) fun t => (t.fcd.err, t.fcd.xr.toInt, t.rsp.map Response.data)

/-- V120, V131, V132, V135. -/
theorem test_xu8 :
    extracted (.xu8 19) = some (.ok, 80, some 0x50) ∧ extracted (.xu8 26) = some (.ok, 121, some 121) ∧
    extracted (.xu8 27) = some (.truncated, 0, some 0) ∧ extracted (.xu8 255) = some (.truncated, 0, some 0) := by decide

/-- V121. -/
theorem test_xs8 : extracted (.xs8 2) = some (.ok, -5, some 0xFFFFFFFB) := by decide

/-- V122, V133, V134. -/
theorem test_xu16 :
    extracted (.xu16 0) = some (.ok, 5250, some 5250) ∧ extracted (.xu16 26) = some (.truncated, 0, some 0) ∧
    extracted (.xu16 25) = some (.ok, 2681, some 2681) := by decide

/-- V123. -/
theorem test_xs16 : extracted (.xs16 2) = some (.ok, -1230, some 0xFFFFFB32) := by decide

/-- V124, V125. -/
theorem test_xbit : extracted (.xbit 20 1) = some (.ok, 1, some 1) ∧ extracted (.xbit 20 0) = some (.ok, 0, some 0) := by decide

/-- V126, V127, V128. -/
theorem test_xbit16 :
    extracted (.xbit16 16 11) = some (.ok, 1, some 1) ∧ extracted (.xbit16 16 13) = some (.ok, 1, some 1) ∧
    extracted (.xbit16 16 0) = some (.ok, 0, some 0) := by decide

/-- V129, V130. -/
theorem test_xk16 :
    extracted (.xk16 23) = some (.ok, 250, some 250) ∧ extracted (.xk16 25) = some (.ok, -50, some 0xFFFFFFCE) := by decide

/-! ### Faults, halting, reset (V140 to V147) -/

/-- V140, V144. -/
theorem test_illegal_word :
    showsWord 0xFF000000 State.reset (fun t => (t.fcd.fault, t.fcd.fcode, t.rsp))
      = some (true, some .illegalOp, some ⟨true, .ok, 0⟩) ∧
    showsWord 0xFF000000 halted (·.fcd) = some halted.fcd := by decide

/-- V143, V146. -/
theorem test_halted :
    showsWord 0x02000000 halted (fun t => (t.fcd, t.rsp)) = some (halted.fcd, some ⟨true, .ok, 0⟩) ∧
    showsWord 0x04000002 halted (·.rsp) = some (some ⟨true, .ok, 2⟩) := by decide

/-- R42 and R5's value column. -/
theorem test_reset :
    State.reset.fcd = Fcd.reset ∧ State.reset.inbox = [] ∧ State.reset.rsp = none ∧
    State.reset.params.layoutB.offTemps = 23 ∧ State.reset.params.bActWrite = 0x5A := by decide

/-! ### Hypotheses met: for each obligation with hypotheses, states and operands that meet all of them -/

theorem read_buffer (bytes : List Byte) (k i : Nat) :
    Memory.read ((bytes.zipIdx k).map fun p => (p.2, p.1)) (k + i) = bytes[i]? := by
  induction bytes generalizing k i with
  | nil => rfl
  | cons b bs ih =>
    simp only [List.zipIdx_cons, List.map_cons, Memory.read]
    cases i with
    | zero => simp
    | succ i =>
      rw [if_neg (by omega), show k + (i + 1) = k + 1 + i from by omega, ih]
      rfl

theorem byte_holding (bytes : List Byte) {i : Nat} (h : i < bytes.length) :
    (holding bytes).fcd.byte? i = some (at0 bytes i) := by
  have := read_buffer bytes 0 i
  rw [Nat.zero_add] at this
  simp only [holding, Fcd.byte?, buffer, if_pos h, this, at0, List.getElem?_eq_getElem h, List.getD_eq_getElem?_getD,
    Option.getD_some]

/-- Every byte sequence can stand in the buffer: the hypothesis `Loaded`. -/
theorem holding_loaded (bytes : List Byte) : (holding bytes).Loaded (at0 bytes) :=
  ⟨rfl, fun i hi => by rw [Nat.zero_add]; exact byte_holding bytes hi⟩

/-- The hypothesis `ReadyA`. -/
theorem checkedA_ready {bytes : List Byte} (h : 12 ≤ bytes.length) : (checkedA bytes).ReadyA (at0 bytes) :=
  ⟨rfl, rfl, rfl, fun i hi => by rw [Nat.zero_add]; exact byte_holding bytes (by omega)⟩

/-- The hypothesis `ReadyB`, and in it `ReadyWindow`. -/
theorem checkedB_ready (bytes : List Byte) : (checkedB bytes).ReadyB fun i => at0 bytes (4 + i) := by
  refine ⟨⟨rfl, rfl, fun i hi => ?_⟩, rfl⟩
  have hi' : i < bytes.length - 7 := hi
  exact byte_holding bytes (show 4 + i < bytes.length by omega)

theorem wf_buffer (bytes : List Byte) {k : Nat} (h : k + bytes.length ≤ 262) :
    Memory.wfFrom k ((bytes.zipIdx k).map fun p => (p.2, p.1)) = true := by
  induction bytes generalizing k with
  | nil => rfl
  | cons b bs ih =>
    rw [List.length_cons] at h
    simp only [List.zipIdx_cons, List.map_cons, Memory.wfFrom]
    rw [ih (by omega), decide_eq_true (Nat.le_refl k), decide_eq_true (show k < Config.bufCap from (by omega : k < 262))]
    rfl

/-- The hypothesis `Inv`, in a unit that has received up to 262 bytes and checked none. -/
theorem holding_inv {bytes : List Byte} (h : bytes.length ≤ 262) : (holding bytes).Inv where
  wpBound := h
  canonical := wf_buffer bytes (by omega)
  received := fun i hi => by
    have hi' : i < bytes.length := hi
    have := read_buffer bytes 0 i
    rw [Nat.zero_add] at this
    exact (congrArg Option.isSome this).trans (by simp [hi'])
  unvalidated := fun _ => ⟨rfl, rfl, rfl⟩
  validated := fun h => by cases h
  checkedA := fun h => by cases h
  checkedB := fun h => by cases h
  cells := Nat.zero_le _
  sensors := Nat.zero_le _
  sums := rfl
  faultCode := ⟨fun _ => rfl, fun _ => rfl⟩
  prot := Nat.zero_le _
  chgfet := Nat.zero_le _
  dsgfet := Nat.zero_le _
  errCode := Nat.zero_le _

/-- The hypothesis `Inv`, in a unit that has checked V1's response. -/
theorem checkedA_v1_inv : (checkedA v1).Inv where
  wpBound := by decide
  canonical := by decide
  received := by decide
  unvalidated := by decide
  validated := by decide
  checkedA := fun _ _ => ⟨by decide, by decide, by decide, v1.take 12, by decide, by decide⟩
  checkedB := by decide
  cells := by decide
  sensors := by decide
  sums := by decide
  faultCode := by decide
  prot := by decide
  chgfet := by decide
  dsgfet := by decide
  errCode := by decide

/-- The hypothesis `Inv`, in a unit that has checked V32's frame and knows of four cells. -/
theorem checkedB_v32_inv : (counting 4 2 (checkedB v32)).Inv where
  wpBound := by decide
  canonical := by decide
  received := by decide
  unvalidated := by decide
  validated := by decide
  checkedA := by decide
  checkedB := fun _ _ =>
    ⟨by decide, by decide, by decide, by decide, by decide, by decide, by decide, (v32.drop 2).take 10, by decide, by decide⟩
  cells := by decide
  sensors := by decide
  sums := by decide
  faultCode := by decide
  prot := by decide
  chgfet := by decide
  dsgfet := by decide
  errCode := by decide

/-- The hypothesis `Inv`, in a unit that has checked V30's frame. -/
theorem checkedB_v30_inv : (checkedB v30).Inv where
  wpBound := by decide
  canonical := by decide
  received := by decide
  unvalidated := by decide
  validated := by decide
  checkedA := by decide
  checkedB := fun _ _ =>
    ⟨by decide, by decide, by decide, by decide, by decide, by decide, by decide, (v30.drop 2).take 29, by decide, by decide⟩
  cells := by decide
  sensors := by decide
  sums := by decide
  faultCode := by decide
  prot := by decide
  chgfet := by decide
  dsgfet := by decide
  errCode := by decide

/-- An outcome that is a next state. -/
def goesOn (o : Answer) : Bool :=
  match o with
  | .next _ => true
  | .fault _ => false
  | .refused _ => false

/-- The state of an outcome, for statements about `exec i s = .next t`. -/
theorem goesOn_next {o : Answer} (h : goesOn o = true) : ∃ t, o = .next t := by
  cases o with
  | next t => exact ⟨t, rfl⟩
  | fault _ => cases h
  | refused _ => cases h

/-- DecodeInvertsEncode: the greatest operand of each bounded field. -/
theorem test_witness_DecodeInvertsEncode :
    [Instr.rdb 511, .daCellv 15, .daCellt 3, .xbit 0xFF 7, .xbit16 0xFF 15].all Instr.wellFormed = true := by decide

/-- EncodeInvertsDecode, and DecodeFollowsOpcodeMap's last clause. -/
theorem test_witness_EncodeInvertsDecode :
    decode 0x030001FF = .ok (.rdb 511) ∧
    (⟨"RDB", 0x03000000, 0xFFFFFE00⟩ : OpcodeRow) ∈ opcodeMap ∧ (0x030001FF : Word) &&& 0xFFFFFE00 = 0x03000000 := by decide

/-- IllegalWordRaisesIllegalOp, running and halted. -/
theorem test_witness_IllegalWordRaisesIllegalOp :
    ({ State.reset with inbox := [.command 0x57000000] } : State).inbox = .command 0x57000000 :: [] ∧
    legalWord 0x57000000 = false ∧ State.reset.fcd.fault = false ∧ halted.fcd.fault = true := by decide

/-- StepRunsDecodedWord. -/
theorem test_witness_StepRunsDecodedWord :
    ({ State.reset with inbox := [.command 0x020000DD, .resetPin] } : State).inbox = .command 0x020000DD :: [.resetPin] ∧
    decode 0x020000DD = .ok (.push 0xDD) := by decide

/-- QuietStepAndPinReset, both clauses. -/
theorem test_witness_QuietStepAndPinReset :
    halted.inbox = [] ∧ ({ halted with inbox := [.resetPin] } : State).inbox = .resetPin :: [] := by decide

/-- EveryWordIsAnswered, StepKeepsInvariant, StepKeepsRegisterRanges. -/
theorem test_witness_StepKeepsInvariant :
    ∃ s t : State, s.Inv ∧ s.fcd.res.InRange ∧ s.inbox = [.command 0x30000000] ∧ step s = .next t := by
  obtain ⟨t, ht⟩ := goesOn_next (o := step { checkedA v1 with inbox := [.command 0x30000000] }) (by decide)
  exact ⟨{ checkedA v1 with inbox := [.command 0x30000000] }, t, checkedA_v1_inv, by constructor <;> decide, rfl, ht⟩

/-- ReachableStatesMeetInvariant: a run that receives one byte and is reset. -/
theorem test_witness_ReachableStatesMeetInvariant :
    ∃ t, core.run 2 { State.resetWith Params.default with inbox := [.command 0x020000DD, .resetPin] } = .next t := ⟨_, rfl⟩

/-- ResponseReportsStateAfter: RDB, RDR, an extract operation and any other end in a next state. -/
theorem test_witness_ResponseReportsStateAfter :
    [Instr.rdb 4, .rdr 0, .xu8 0, .clr].all (fun i => goesOn (exec i (checkedB v30))) = true := by decide

/-- HaltedUnitRefusesOperations. -/
theorem test_witness_HaltedUnitRefusesOperations :
    halted.fcd.fault = true ∧ [Instr.clr, .chkA, .daVis, .xu8 0].all (fun i => !worksHalted i) = true := by decide

/-- OnlyResetLeavesHaltedState: `rst_n`, SRST, and a word that does neither. -/
theorem test_witness_OnlyResetLeavesHaltedState :
    halted.fcd.fault = true ∧
    [HostEvent.resetPin, .command 0x05000000, .command 0x01000000].all
      (fun e => goesOn (step { halted with inbox := [e] })) = true := by decide

/-- FaultsArePrecise: a first fault, and a word in a halted unit. -/
theorem test_witness_FaultsArePrecise :
    showsWord 0x30000000 State.reset (·.fcd.fault) = some true ∧ State.reset.fcd.fault = false ∧
    showsWord 0x30000000 halted (·.fcd.fault) = some true ∧ halted.fcd.fault = true := by decide

/-- FaultCausesAreExact: states that meet the invariant, with a word for NotValidated, BadIndex, BadRegister, IllegalOp,
VendorMismatch (both ways), PayloadTooLong (both ways), BufferOverflow, and with none. -/
theorem test_witness_FaultCausesAreExact :
    (holding [1]).Inv ∧ (checkedA v1).Inv ∧ (checkedB v30).Inv ∧
    (holding (List.replicate 262 0xFF)).Inv ∧ (holding (List.replicate 262 0xFF)).fcd.wp = 262 ∧
    faultCause .daVis (holding [1]).fcd = some .notValidated ∧ faultCause (.rdb 1) (holding [1]).fcd = some .badIndex ∧
    faultCause (.rdr 0xFF) (holding [1]).fcd = some .badRegister ∧ faultCause (.rdb 0) (holding [1]).fcd = none ∧
    faultCause .dbHw (checkedA v1).fcd = some .vendorMismatch ∧ faultCause .daVis (checkedB v30).fcd = some .vendorMismatch ∧
    faultCause (.encA 0 0) (checkedA v1).fcd = some .payloadTooLong ∧ faultCause .daVis (checkedA v1).fcd = none ∧
    legalWord 0x24000000 = false := by
  refine ⟨holding_inv (by decide), checkedA_v1_inv, checkedB_v30_inv, holding_inv (by rw [List.length_replicate]),
    List.length_replicate, ?_⟩
  decide

/-- ClrEmptiesBuffer, AclrAaddDriveAccumulator, AccumulatorSumsBytes: a unit that is not halted, and bytes in another order. -/
theorem test_witness_AccumulatorSumsBytes : State.reset.fcd.fault = false ∧ List.Perm [(3 : Byte), 0] [0, 3] := by decide

/-- PushAppendsByte at its boundary: the 262nd PUSH and the 263rd. -/
theorem test_witness_PushAppendsByte :
    (holding (List.replicate 261 0xFF)).fcd.fault = false ∧ (holding (List.replicate 261 0xFF)).fcd.wp = 261 ∧
    (holding (List.replicate 262 0xFF)).fcd.fault = false ∧ (holding (List.replicate 262 0xFF)).fcd.wp = 262 := by
  refine ⟨rfl, List.length_replicate, rfl, List.length_replicate⟩

/-- RdbReadsReceivedByte: the last byte and the first index beyond. -/
theorem test_witness_RdbReadsReceivedByte :
    (holding v50).Loaded (at0 v50) ∧ 6 < (holding v50).fcd.wp ∧ ¬ 7 < (holding v50).fcd.wp :=
  ⟨holding_loaded v50, by decide, by decide⟩

/-- RdrUndefinedNumberFaults: both ends of each undefined range of R40, and the defined numbers beside them. -/
theorem test_witness_RdrUndefinedNumberFaults :
    [0x0B, 0x0F, 0x26, 0x27, 0x2F, 0x3F, 0x80, 0xFF].all undefinedRegister = true ∧
    [0x0A, 0x10, 0x25, 0x28, 0x2E, 0x40, 0x6F, 0x70, 0x7F].all (fun n => !undefinedRegister n) = true := by decide

/-- AccumulatorWriters: an operation that keeps the sums, and CHK.A and CHK.B ending before the summing stage. -/
theorem test_witness_AccumulatorWriters :
    writesSums .clr = false ∧ shows .clr (holding v50) (·.fcd.err) = some .ok ∧
    shows .chkA (holding v50) (·.fcd.err) = some .lengthMismatch ∧
    shows .chkB (holding v1) (·.fcd.err) = some .badStart := by decide

/-- HandSumAgreesWithCheck, ChkAVerdicts, ChkBVerdicts: a frame for each verdict. -/
theorem test_witness_ChkBVerdicts :
    (holding v1).Loaded (at0 v1) ∧ (holding v1).fcd.wp = 13 ∧ (holding v50).Loaded (at0 v50) ∧ 7 ≤ (holding v50).fcd.wp ∧
    at0 v50 0 = 0xDD ∧ at0 v50 ((holding v50).fcd.wp - 1) = 0x77 ∧ (at0 v50 3).toNat = (holding v50).fcd.wp - 7 ∧
    (holding (v50.take 6)).Loaded (at0 (v50.take 6)) ∧ (holding (v50.take 6)).fcd.wp = 6 ∧
    (holding (v50.set 6 0)).Loaded (at0 (v50.set 6 0)) ∧ (holding (v50.set 3 1)).Loaded (at0 (v50.set 3 1)) ∧
    (holding (v50.set 5 0)).Loaded (at0 (v50.set 5 0)) :=
  ⟨holding_loaded _, rfl, holding_loaded _, by decide, by decide, by decide, by decide, holding_loaded _, rfl, holding_loaded _,
    holding_loaded _, holding_loaded _⟩

/-- ChkACatchesOneByte: the first byte changed, and the checksum byte. -/
theorem test_witness_ChkACatchesOneByte :
    (holding v1).Loaded (at0 v1) ∧ shows .chkA (holding v1) (·.fcd.err) = some .ok ∧
    ∀ i ∈ [0, 12], (holding (v1.set i 0x50)).Loaded (at0 (v1.set i 0x50)) ∧ (holding (v1.set i 0x50)).fcd.wp = 13 ∧
      at0 (v1.set i 0x50) i ≠ at0 v1 i ∧ ∀ j < 13, j ≠ i → at0 (v1.set i 0x50) j = at0 v1 j := by
  refine ⟨holding_loaded _, by decide, fun i hi => ⟨holding_loaded _, ?_⟩⟩
  revert i
  decide

/-- ChkBCatchesOneByte: start, action, register, length, data, check code and end byte of V32's frame changed. -/
theorem test_witness_ChkBCatchesOneByte :
    (holding v32).Loaded (at0 v32) ∧ (holding v32).fcd.wp ≤ 262 ∧ shows .chkB (holding v32) (·.fcd.err) = some .ok ∧
    ∀ i ∈ [0, 1, 2, 3, 4, 13, 14], (holding (v32.set i 0x50)).Loaded (at0 (v32.set i 0x50)) ∧
      (holding (v32.set i 0x50)).fcd.wp = (holding v32).fcd.wp ∧ i < (holding v32).fcd.wp ∧
      at0 (v32.set i 0x50) i ≠ at0 v32 i ∧ ∀ j < (holding v32).fcd.wp, j ≠ i → at0 (v32.set i 0x50) j = at0 v32 j := by
  refine ⟨holding_loaded _, by decide, by decide, fun i hi => ⟨holding_loaded _, ?_⟩⟩
  revert i
  decide

/-- EncABuildsFrame and EncAThenChkAPasses at their boundary: 8 and 9 payload bytes. -/
theorem test_witness_EncABuildsFrame :
    (holding (List.replicate 8 7)).Loaded (at0 (List.replicate 8 7)) ∧ (holding (List.replicate 8 7)).fcd.wp ≤ 8 ∧
    (holding (List.replicate 9 7)).Loaded (at0 (List.replicate 9 7)) ∧ 8 < (holding (List.replicate 9 7)).fcd.wp :=
  ⟨holding_loaded _, by decide, holding_loaded _, by decide⟩

/-- EncBBuildsFrame and EncBThenChkBReturnsPayload at their boundary: 255 and 256 payload bytes. -/
theorem test_witness_EncBBuildsFrame :
    (holding (List.replicate 255 7)).Loaded (at0 (List.replicate 255 7)) ∧ (holding (List.replicate 255 7)).fcd.wp = 255 ∧
    (holding (List.replicate 256 7)).Loaded (at0 (List.replicate 256 7)) ∧ (holding (List.replicate 256 7)).fcd.wp = 256 :=
  ⟨holding_loaded _, List.length_replicate, holding_loaded _, List.length_replicate⟩

/-- BufferWriters: an index PUSH stores to, one it does not, and an operation that stores nowhere. -/
theorem test_witness_BufferWriters :
    goesOn (exec (.push 7) (holding [1])) = true ∧ storesTo (.push 7) (holding [1]).fcd 1 ∧
    ¬ storesTo (.push 7) (holding [1]).fcd 0 ∧ (∀ a, ¬ storesTo .daVis (holding [1]).fcd a) ∧
    goesOn (exec .daVis (holding [1])) = true :=
  ⟨by decide, rfl, by simp [storesTo, holding], fun _ h => h, by decide⟩

/-- FlagWriters: an operation that leaves VALID, the two checks that set it, and a halted unit that SRST releases. -/
theorem test_witness_FlagWriters :
    clearsValid .daVis = false ∧ goesOn (exec .daVis (checkedA v1)) = true ∧
    shows .chkA (holding v1) (fun t => (t.fcd.fault, t.fcd.valid)) = some (false, true) ∧
    shows .chkB (holding v50) (fun t => (t.fcd.fault, t.fcd.valid)) = some (false, true) ∧
    shows .srst halted (·.fcd.fault) = some false := by decide

/-- The DA.* statements (DaVisDecodes to DaMosDecodes): a checked frame, with cells and sensors counted. -/
theorem test_witness_vendorA_ready : (counting 16 2 (checkedA v1)).ReadyA (at0 v1) := checkedA_ready (bytes := v1) (by decide)

/-- VendorADecodersFrame: the frame is of the right vendor, of the other, and none is checked. -/
theorem test_witness_VendorADecodersFrame :
    isVendorA .daVis = true ∧ (checkedA v1).Inv ∧ (checkedA v1).fcd.valid = true ∧ (checkedA v1).fcd.vk = some .vendorA ∧
    (checkedB v30).Inv ∧ (holding [1]).Inv :=
  ⟨rfl, checkedA_v1_inv, rfl, rfl, checkedB_v30_inv, holding_inv (by decide)⟩

/-- DbHwDecodes: the payload exactly long enough, one byte short of its sensors, one byte short of the fixed part. -/
theorem test_witness_DbHwDecodes :
    (checkedB v30).ReadyB (fun i => at0 v30 (4 + i)) ∧
    (checkedB v30).fcd.plen = LayoutB.default.offTemps + 2 * min (at0 v30 26).toNat 16 ∧
    (checkedB v31).ReadyB (fun i => at0 v31 (4 + i)) ∧ LayoutB.default.hwFixed ≤ (checkedB v31).fcd.plen ∧
    (checkedB v31).fcd.plen + 1 = LayoutB.default.offTemps + 2 * min (at0 v31 26).toNat 16 ∧
    (checkedB (v30.take 29)).ReadyB (fun i => at0 (v30.take 29) (4 + i)) ∧
    (checkedB (v30.take 29)).fcd.plen + 1 = LayoutB.default.hwFixed :=
  ⟨checkedB_ready _, by decide, checkedB_ready _, by decide, by decide, checkedB_ready _, by decide⟩

/-- DbCellDecodes: the payload exactly long enough, too short, and no cells. -/
theorem test_witness_DbCellDecodes :
    (counting 4 0 (checkedB v32)).ReadyB (fun i => at0 v32 (4 + i)) ∧ (counting 4 0 (checkedB v32)).fcd.plen = 2 * 4 ∧
    (counting 4 0 (checkedB v33)).ReadyB (fun i => at0 v33 (4 + i)) ∧ (counting 4 0 (checkedB v33)).fcd.plen < 2 * 4 ∧
    (checkedB v32).fcd.res.cellcnt.toNat = 0 :=
  ⟨checkedB_ready _, by decide, checkedB_ready _, by decide, by decide⟩

/-- DbCellStatisticsAgreeWithArray. -/
theorem test_witness_DbCellStatisticsAgreeWithArray :
    (counting 4 2 (checkedB v32)).Inv ∧
    shows .dbCell (counting 4 2 (checkedB v32)) (fun t => (t.fcd.fault, t.fcd.err)) = some (false, .ok) ∧
    1 ≤ (counting 4 2 (checkedB v32)).fcd.res.cellcnt.toNat := ⟨checkedB_v32_inv, by decide, by decide⟩

/-- VendorBDecodersAllOrNothing: OK, Truncated, a fault. -/
theorem test_witness_VendorBDecodersAllOrNothing :
    isVendorB .dbHw = true ∧ shows .dbHw (checkedB v30) (fun t => (t.fcd.fault, t.fcd.err)) = some (false, .ok) ∧
    shows .dbHw (checkedB v31) (fun t => (t.fcd.fault, t.fcd.err)) = some (false, .truncated) ∧
    shows .dbHw (checkedA v1) (fun t => (t.fcd.fault, t.fcd.err)) = some (true, .ok) := by decide

/-- ExtractByteValues and ExtractWordValues: the last offset of each, both vendors' windows, both bytes of XBIT16. -/
theorem test_witness_ExtractByteValues :
    (checkedB v30).ReadyWindow (fun i => at0 v30 (4 + i)) ∧ (26 : Byte).toNat + 1 ≤ (checkedB v30).fcd.plen ∧
    (25 : Byte).toNat + 2 ≤ (checkedB v30).fcd.plen ∧ (checkedA v1).ReadyWindow (at0 v1) ∧
    (11 : Byte).toNat + 1 ≤ (checkedA v1).fcd.plen ∧ (7 < 8 ∧ 15 < 16) :=
  ⟨(checkedB_ready v30).1, by decide, by decide, ⟨rfl, rfl, (checkedA_ready (bytes := v1) (by decide)).2.2.2⟩, by decide,
    by decide⟩

/-- ExtractFamilyRule: not validated, inside the window, outside it. -/
theorem test_witness_ExtractFamilyRule :
    extractSite (.xbit16 26 0) = some (26, 2) ∧ extractSite (.xu8 26) = some (26, 1) ∧ (checkedB v30).Inv ∧
    (26 : Byte).toNat + 1 ≤ (checkedB v30).fcd.plen ∧ ¬ (26 : Byte).toNat + 2 ≤ (checkedB v30).fcd.plen ∧ (holding [1]).Inv :=
  ⟨rfl, rfl, checkedB_v30_inv, by decide, by decide, holding_inv (by decide)⟩

/-- DecodersComposeExtracts: both vendors' decoders and the extract operations beside them. -/
theorem test_witness_DecodersComposeExtracts :
    (checkedA v1).Inv ∧ (checkedB v30).Inv ∧
    [Instr.daVis, .xu16 4, .xs16 8, .xu16 10].all (fun i => goesOn (exec i (checkedA v1))) = true ∧
    shows .dbHw (checkedB v30) (·.fcd.err) = some .ok ∧
    [Instr.xk16 23, .xbit 20 0, .xbit 20 1, .xbit16 16 12].all (fun i => goesOn (exec i (checkedB v30))) = true :=
  ⟨checkedA_v1_inv, checkedB_v30_inv, by decide, by decide, by decide⟩

end Tests
end Sys2Proof
end

section
/-! Invariants of the unit's state (spec/10_state.md R46): the parts of `Fcd.Inv`, and that each is kept by every operation. -/

namespace Sys2Proof
namespace Machine

/-! ### The invariant by the registers it speaks of -/

/-- Clause (a) of R46 with R22 and R23: what the invariant says of FB and WP. -/
structure Fcd.BufferInv (f : Fcd) : Prop where
  wpBound : f.wp ≤ 262
  canonical : f.fb.wf = true
  received : ∀ i < f.wp, (f.fb.read i).isSome = true

/-- No frame is checked (R46 (b)). -/
structure Fcd.Unvalidated (f : Fcd) : Prop where
  valid : f.valid = false
  vk : f.vk = none
  pbase : f.pbase = 0
  plen : f.plen = 0

/-- The buffer holds a vendor-A frame, and the window covers its first 12 bytes (R46 (c)). -/
def Fcd.HoldsFrameA (f : Fcd) : Prop :=
  f.wp = 13 ∧ f.pbase = 0 ∧ f.plen = 12 ∧
  ∃ body, f.bytes? 0 12 = some body ∧ f.byte? 12 = some (BitVec.ofNat 8 (total body))

/-- The buffer holds a vendor-B frame, and the window covers its payload (R46 (d)). -/
def Fcd.HoldsFrameB (f : Fcd) : Prop :=
  7 ≤ f.wp ∧ f.byte? 0 = some 0xDD ∧ f.byte? (f.wp - 1) = some 0x77 ∧ f.pbase = 4 ∧ f.plen = f.wp - 7 ∧
  f.byte? 3 = some (BitVec.ofNat 8 f.plen) ∧ f.plen ≤ 255 ∧
  ∃ body, f.bytes? 2 (2 + f.plen) = some body ∧ f.u16be (4 + f.plen) = some ((65536 - total body % 65536) % 65536)

/-- What VALID and VK may say: no frame, or a frame of the vendor VK names that is in the buffer. -/
inductive Fcd.WindowInv (f : Fcd) : Prop where
  | unvalidated (h : f.Unvalidated)
  | checkedA (valid : f.valid = true) (vk : f.vk = some .vendorA) (frame : f.HoldsFrameA)
  | checkedB (valid : f.valid = true) (vk : f.vk = some .vendorB) (frame : f.HoldsFrameB)

/-- Clauses (e) and (h) of R46: the result registers the invariant bounds. -/
structure Results.Limits (r : Results) : Prop where
  cells : r.cellcnt.toNat ≤ 48
  sensors : r.tempcnt.toNat ≤ 16
  prot : r.prot.toNat ≤ 0x1FFF
  chgfet : r.chgfet.toNat ≤ 1
  dsgfet : r.dsgfet.toNat ≤ 1

/-- SUM8 is the low byte of SUM16 (R46 (f)). -/
def Fcd.SumsAgree (f : Fcd) : Prop := f.sum8.toNat = f.sum16.toNat % 256

/-- FAULT and FCODE agree (R46 (g)). -/
def Fcd.FaultInv (f : Fcd) : Prop := f.fault = false ↔ f.fcode = none

/-- Every value of ERR has one of R28's codes (R46 (i)). -/
theorem Err.code_le (e : Err) : e.code ≤ 6 := by cases e <;> decide

theorem Fcd.Inv.buffer {f : Fcd} (h : f.Inv) : f.BufferInv := ⟨h.wpBound, h.canonical, h.received⟩

theorem Fcd.Inv.windowInv {f : Fcd} (h : f.Inv) : f.WindowInv := by
  cases hv : f.valid with
  | false =>
    obtain ⟨hk, hb, hl⟩ := h.unvalidated hv
    exact .unvalidated ⟨hv, hk, hb, hl⟩
  | true =>
    rcases hk : f.vk with _ | _ | _
    · exact absurd hk (h.validated hv)
    · exact .checkedA hv hk (h.checkedA hv hk)
    · exact .checkedB hv hk (h.checkedB hv hk)

theorem Fcd.Inv.limits {f : Fcd} (h : f.Inv) : f.res.Limits := ⟨h.cells, h.sensors, h.prot, h.chgfet, h.dsgfet⟩

/-- The invariant from its parts; clause (i) holds of every unit. -/
theorem Fcd.Inv.of_parts {f : Fcd} (hb : f.BufferInv) (hw : f.WindowInv) (hl : f.res.Limits) (hs : f.SumsAgree)
    (hf : f.FaultInv) : f.Inv where
  wpBound := hb.wpBound
  canonical := hb.canonical
  received := hb.received
  unvalidated := by
    intro hv
    cases hw with
    | unvalidated h => exact ⟨h.vk, h.pbase, h.plen⟩
    | checkedA h => simp [hv] at h
    | checkedB h => simp [hv] at h
  validated := by
    intro hv
    cases hw with
    | unvalidated h => exact absurd hv (by simp [h.valid])
    | checkedA _ hk => simp [hk]
    | checkedB _ hk => simp [hk]
  checkedA := by
    intro _ hk
    cases hw with
    | unvalidated h => exact absurd hk (by simp [h.vk])
    | checkedA _ _ frame => exact frame
    | checkedB _ hk' => simp [hk] at hk'
  checkedB := by
    intro _ hk
    cases hw with
    | unvalidated h => exact absurd hk (by simp [h.vk])
    | checkedA _ hk' => simp [hk] at hk'
    | checkedB _ _ frame => exact frame
  cells := hl.cells
  sensors := hl.sensors
  sums := hs
  faultCode := hf
  prot := hl.prot
  chgfet := hl.chgfet
  dsgfet := hl.dsgfet
  errCode := f.err.code_le

/-! ### What each part depends on -/

theorem Fcd.BufferInv.congr {f g : Fcd} (h : f.BufferInv) (hb : g.fb = f.fb) (hw : g.wp = f.wp) : g.BufferInv where
  wpBound := hw ▸ h.wpBound
  canonical := hb ▸ h.canonical
  received := by rw [hb, hw]; exact h.received

theorem Fcd.HoldsFrameA.congr {f g : Fcd} (h : f.HoldsFrameA) (hb : g.fb = f.fb) (hw : g.wp = f.wp)
    (hbase : g.pbase = f.pbase) (hlen : g.plen = f.plen) : g.HoldsFrameA := by
  simpa only [Fcd.HoldsFrameA, hw, hbase, hlen, Fcd.byte?_congr hb hw, Fcd.bytes?_congr hb hw] using h

theorem Fcd.HoldsFrameB.congr {f g : Fcd} (h : f.HoldsFrameB) (hb : g.fb = f.fb) (hw : g.wp = f.wp)
    (hbase : g.pbase = f.pbase) (hlen : g.plen = f.plen) : g.HoldsFrameB := by
  simpa only [Fcd.HoldsFrameB, hw, hbase, hlen, Fcd.byte?_congr hb hw, Fcd.bytes?_congr hb hw, Fcd.u16be_congr hb hw] using h

theorem Fcd.WindowInv.congr {f g : Fcd} (h : f.WindowInv) (hb : g.fb = f.fb) (hw : g.wp = f.wp) (hv : g.valid = f.valid)
    (hk : g.vk = f.vk) (hbase : g.pbase = f.pbase) (hlen : g.plen = f.plen) : g.WindowInv := by
  cases h with
  | unvalidated h => exact .unvalidated ⟨hv.trans h.valid, hk.trans h.vk, hbase.trans h.pbase, hlen.trans h.plen⟩
  | checkedA valid vk frame => exact .checkedA (hv.trans valid) (hk.trans vk) (frame.congr hb hw hbase hlen)
  | checkedB valid vk frame => exact .checkedB (hv.trans valid) (hk.trans vk) (frame.congr hb hw hbase hlen)

/-- A fault writes none of the registers the invariant ties together but its own two (R226). -/
theorem Fcd.Inv.raise {f : Fcd} (h : f.Inv) (c : Cause) : (f.raise c).Inv := by
  cases hf : f.fault with
  | true => rwa [Fcd.raise_of_halted hf]
  | false =>
    rw [Fcd.raise_of_running hf]
    exact .of_parts (h.buffer.congr rfl rfl) (h.windowInv.congr rfl rfl rfl rfl rfl rfl) h.limits h.sums
      (by simp [Fcd.FaultInv])

/-! ### The buffer -/

/-- Storing a whole frame that fits (R63). -/
theorem Fcd.BufferInv.loadFrame {f : Fcd} {bytes : List Byte} (h : f.BufferInv) (hl : bytes.length ≤ 262) :
    (f.loadFrame bytes).BufferInv where
  wpBound := hl
  canonical := Memory.wf_writeList (by rw [Nat.zero_add]; exact hl) h.canonical
  received := by
    intro i hi
    replace hi : i < bytes.length := hi
    simp [Memory.read_writeList, hi]

/-- Appending one byte where there is room (R103). -/
theorem Fcd.BufferInv.push {f g : Fcd} {byte : Byte} (h : f.BufferInv) (hroom : f.wp ≠ 262)
    (hb : g.fb = f.fb.write f.wp byte) (hw : g.wp = f.wp + 1) : g.BufferInv where
  wpBound := by have := h.wpBound; omega
  canonical := hb ▸ Memory.wf_write byte (Nat.lt_of_le_of_ne h.wpBound hroom) h.canonical
  received := by
    intro i hi
    rw [hb, Memory.read_write]
    split
    · rfl
    · exact h.received i (by omega)

/-- A unit that has received no byte yet: its buffer's invariant is the canonical form alone. -/
theorem Fcd.BufferInv.of_empty {f : Fcd} (hw : f.wp = 0) (hc : f.fb.wf = true) : f.BufferInv where
  wpBound := by omega
  canonical := hc
  received := by intro i hi; omega

theorem effectOf_done_bufferInv {p : Params} {i : Instr} {f g : Fcd} {d : Word} (h : f.BufferInv)
    (he : effectOf p i f = .done g d) : g.BufferInv := by
  cases hi : writesBuffer i with
  | false =>
    obtain ⟨hb, hw⟩ := (effectOf_done_frame he).buffer hi
    exact h.congr hb hw
  | true =>
    cases i
    case clr =>
      obtain ⟨-, rfl⟩ := clearBuffer_done he
      exact .of_empty rfl h.canonical
    case push =>
      obtain ⟨-, hroom, rfl⟩ := pushByte_done he
      exact h.push hroom rfl rfl
    case encA =>
      obtain ⟨-, -, payload, -, rfl⟩ := encodeA_done he
      exact (h.loadFrame (by simp)).congr rfl rfl
    case encB =>
      obtain ⟨-, hw, payload, hp, rfl⟩ := encodeB_done he
      have := Fcd.bytes?_length hp
      exact (h.loadFrame (by rw [frameB_length]; omega)).congr rfl rfl
    case srst =>
      cases he
      exact .of_empty rfl Memory.wf_reset
    all_goals cases hi

/-! ### VALID, VK and the window -/

/-- CHK.A leaves no checked frame, or the frame it has just found in the buffer (R131). -/
theorem checkA_done_window {f g : Fcd} {d : Word} (h : checkA f = .done g d) :
    g.Unvalidated ∨ g.valid = true ∧ g.vk = some .vendorA ∧ g.err = .ok ∧ g.HoldsFrameA := by
  obtain ⟨-, ⟨-, rfl⟩ | ⟨body, checksum, hw, hb, hc, ⟨-, rfl⟩ | ⟨hs, rfl⟩⟩⟩ := checkA_done h
  · exact .inl ⟨rfl, rfl, rfl, rfl⟩
  · exact .inl ⟨rfl, rfl, rfl, rfl⟩
  · subst hs
    exact .inr ⟨rfl, rfl, rfl, hw, rfl, rfl, body, (Fcd.bytes?_congr (g := f) rfl rfl 0 12).trans hb, hc⟩

/-- CHK.B likewise (R133). -/
theorem checkB_done_window {f g : Fcd} {d : Word} (h : checkB f = .done g d) :
    g.Unvalidated ∨ g.valid = true ∧ g.vk = some .vendorB ∧ g.err = .ok ∧ g.HoldsFrameB := by
  obtain ⟨v, -, he⟩ | he | ⟨len, hw, hstart, hend, hlen, hplen, he⟩ := checkB_stages h
  · cases he
    exact .inl ⟨rfl, rfl, rfl, rfl⟩
  · cases he
  obtain ⟨-, reg, body, code, -, hb, hcode, ⟨-, rfl⟩ | ⟨hs, rfl⟩⟩ := checkBCode_done he.symm
  · exact .inl ⟨rfl, rfl, rfl, rfl⟩
  · refine .inr ⟨rfl, rfl, rfl, hw, hstart, hend, rfl, hplen, ?_, Nat.le_of_lt_succ len.isLt, body, ?_, ?_⟩
    · exact hlen.trans (by simp)
    · exact (congrArg (Fcd.bytes? _ 2) (Nat.add_comm 2 len.toNat)).trans
        ((Fcd.bytes?_congr (by rfl) (by rfl) 2 (len.toNat + 2)).trans hb)
    · rw [← neg16_toNat]
      exact hcode.trans (congrArg some hs.symm)

/-- An operation that writes the buffer leaves no checked frame (R43). -/
theorem DoneFrame.unvalidated {i : Instr} {f g : Fcd} (h : DoneFrame i f g) (hi : writesBuffer i = true) :
    g.Unvalidated := by
  cases i
  case clr | push | encA | encB | srst =>
    exact ⟨(congrArg Fcd.valid h :), (congrArg Fcd.vk h :), (congrArg Fcd.pbase h :), (congrArg Fcd.plen h :)⟩
  all_goals cases hi

/-- R43's list is the operations that write the buffer, and the two checks. -/
theorem clearsValid_cases {i : Instr} (h : clearsValid i = true) : writesBuffer i = true ∨ i = .chkA ∨ i = .chkB := by
  cases i
  case chkA => exact .inr (.inl rfl)
  case chkB => exact .inr (.inr rfl)
  all_goals exact .inl h

/-- An operation outside R43's list does not write the buffer. -/
theorem writesBuffer_of_clearsValid {i : Instr} (h : clearsValid i = false) : writesBuffer i = false := by
  cases i
  case chkA | chkB => rfl
  all_goals exact h

theorem effectOf_done_windowInv {p : Params} {i : Instr} {f g : Fcd} {d : Word} (h : f.WindowInv)
    (he : effectOf p i f = .done g d) : g.WindowInv := by
  have frame := effectOf_done_frame he
  cases hi : clearsValid i with
  | false =>
    obtain ⟨hv, hk, hbase, hlen⟩ := frame.window hi
    obtain ⟨hb, hw⟩ := frame.buffer (writesBuffer_of_clearsValid hi)
    exact h.congr hb hw hv hk hbase hlen
  | true =>
    obtain hb | rfl | rfl := clearsValid_cases hi
    · exact .unvalidated (frame.unvalidated hb)
    · obtain hu | ⟨hv, hk, -, hf⟩ := checkA_done_window he
      · exact .unvalidated hu
      · exact .checkedA hv hk hf
    · obtain hu | ⟨hv, hk, -, hf⟩ := checkB_done_window he
      · exact .unvalidated hu
      · exact .checkedB hv hk hf

/-! ### The accumulator and the fault fields -/

/-- The two sums of the same bytes agree (R9, R10). -/
theorem Fcd.SumsAgree.of_bytes {g : Fcd} (bytes : List Byte) (h8 : g.sum8 = byteSum8 bytes)
    (h16 : g.sum16 = byteSum16 bytes) : g.SumsAgree := by
  simp only [Fcd.SumsAgree, h8, h16, byteSum8, byteSum16, BitVec.toNat_ofNat]
  omega

/-- One byte more keeps the two halves in step (R122). -/
theorem Fcd.SumsAgree.feed {f : Fcd} (h : f.SumsAgree) (b : Byte) : (f.feed b).SumsAgree := by
  simp only [Fcd.SumsAgree, Fcd.feed_sum8, Fcd.feed_sum16, BitVec.toNat_ofNat] at h ⊢
  omega

theorem effectOf_done_sumsAgree {p : Params} {i : Instr} {f g : Fcd} {d : Word} (h : f.SumsAgree)
    (he : effectOf p i f = .done g d) : g.SumsAgree := by
  have kept : g.sum8 = f.sum8 → g.sum16 = f.sum16 → g.SumsAgree := by
    intro h8 h16
    rw [Fcd.SumsAgree, h8, h16]
    exact h
  cases hi : writesSums i with
  | false =>
    obtain ⟨h8, h16⟩ := (effectOf_done_frame he).sums hi
    exact kept h8 h16
  | true =>
    cases i
    case aclr | srst => cases he; rfl
    case aadd => cases he; exact h.feed _
    case chkA =>
      obtain ⟨-, ⟨-, rfl⟩ | ⟨body, -, -, -, -, ⟨-, rfl⟩ | ⟨-, rfl⟩⟩⟩ := checkA_done he
      · exact kept rfl rfl
      · exact .of_bytes body rfl rfl
      · exact .of_bytes body rfl rfl
    case chkB =>
      obtain ⟨v, -, he'⟩ | he' | ⟨len, -, -, -, -, -, he'⟩ := checkB_stages he
      · cases he'; exact kept rfl rfl
      · cases he'
      · obtain ⟨-, -, body, -, -, -, -, ⟨-, rfl⟩ | ⟨-, rfl⟩⟩ := checkBCode_done he'.symm
        · exact .of_bytes body rfl rfl
        · exact .of_bytes body rfl rfl
    case encA =>
      obtain ⟨-, -, payload, -, rfl⟩ := encodeA_done he
      exact .of_bytes _ rfl rfl
    case encB =>
      obtain ⟨-, -, payload, -, rfl⟩ := encodeB_done he
      exact .of_bytes _ rfl rfl
    all_goals cases hi

theorem effectOf_done_faultInv {p : Params} {i : Instr} {f g : Fcd} {d : Word} (h : f.FaultInv)
    (he : effectOf p i f = .done g d) : g.FaultInv := by
  by_cases hi : i = .srst
  · subst hi
    cases he
    exact ⟨fun _ => rfl, fun _ => rfl⟩
  · obtain ⟨hf, hc⟩ := (effectOf_done_frame he).faults hi
    rwa [Fcd.FaultInv, hf, hc]

end Machine
end Sys2Proof
end

section
/-! The ranges of the result registers (spec/10_state.md R37): what every operation writes to them. -/

namespace Sys2Proof
namespace Machine

/-! ### Bounds of what the reads give -/

theorem Fcd.u8_lt {f : Fcd} {i v : Nat} (h : f.u8 i = some v) : v < 256 := by
  obtain ⟨b, -, rfl⟩ := Option.map_eq_some_iff.mp h
  exact b.isLt

theorem Fcd.u16be_lt {f : Fcd} {i v : Nat} (h : f.u16be i = some v) : v < 65536 := by
  unfold Fcd.u16be at h
  split at h
  · next hi lo _ _ =>
    cases h
    have := hi.isLt
    have := lo.isLt
    omega
  · cases h

theorem Fcd.s8_bounds {f : Fcd} {i : Nat} {v : Int} (h : f.s8 i = some v) : -128 ≤ v ∧ v ≤ 127 := by
  obtain ⟨n, hn, rfl⟩ := Option.map_eq_some_iff.mp h
  obtain ⟨b, -, rfl⟩ := Option.map_eq_some_iff.mp hn
  rw [sext_8]
  exact tc8_bounds b

theorem Fcd.s16be_bounds {f : Fcd} {i : Nat} {v : Int} (h : f.s16be i = some v) : -32768 ≤ v ∧ v ≤ 32767 := by
  obtain ⟨n, hn, rfl⟩ := Option.map_eq_some_iff.mp h
  rw [sext_16]
  exact tc16_bounds (Fcd.u16be_lt hn)

/-- A run of words: as many as asked for, each of 16 bits. -/
theorem Fcd.words?_bounds {f : Fcd} {i n : Nat} {ws : List Nat} (h : f.words? i n = some ws) :
    ws.length = n ∧ ∀ w ∈ ws, w < 65536 := by
  induction n generalizing i ws with
  | zero => cases h; simp
  | succ n ih =>
    rw [Fcd.words?] at h
    split at h
    · next w ws hw hws =>
      cases h
      obtain ⟨hlen, hlt⟩ := ih hws
      exact ⟨by rw [List.length_cons, hlen], List.forall_mem_cons.mpr ⟨Fcd.u16be_lt hw, hlt⟩⟩
    · cases h

theorem bit_le (v k : Nat) : bit v k ≤ 1 := by
  unfold bit
  omega

/-- A number that is in range is in range in its register. -/
theorem unsigned_upTo {hi v : Nat} (h : v ≤ hi) : UnsignedUpTo hi (unsigned v) := by
  rw [UnsignedUpTo, unsigned, BitVec.toNat_ofNat]
  exact (Nat.mod_le _ _).trans h

/-- An integer within bounds a register can hold is within them in its register. -/
theorem signed_within {lo hi v : Int} (h : lo ≤ v ∧ v ≤ hi) (hlo : -2 ^ 31 ≤ lo := by decide)
    (hhi : hi < 2 ^ 31 := by decide) : SignedWithin lo hi (signed v) := by
  rwa [SignedWithin, signed_toInt (hlo.trans h.1) (h.2.trans_lt hhi)]

/-! ### DB.CELL's extremes -/

/-- The extremes are 16-bit words, and their cell numbers at most `n`. -/
structure Extremes.Within (e : Extremes) (n : Nat) : Prop where
  mx : e.mx ≤ 65535
  imx : e.imx ≤ n
  mn : e.mn ≤ 65535
  imn : e.imn ≤ n

theorem Extremes.start_within : Extremes.start.Within 0 := ⟨by decide, by decide, by decide, by decide⟩

/-- One turn of the loop (R184). -/
theorem Extremes.Within.see {e : Extremes} {i v : Nat} (h : e.Within i) (hv : v < 65536) : (e.see i v).Within (i + 1) := by
  obtain ⟨h1, h2, h3, h4⟩ := h
  constructor <;> simp only [Extremes.see] <;> split <;> omega

/-- The whole loop (R184). -/
theorem Extremes.Within.over {e : Extremes} {i : Nat} {vs : List Nat} (h : e.Within i) (hv : ∀ v ∈ vs, v < 65536) :
    (e.over i vs).Within (i + vs.length) := by
  induction vs generalizing e i with
  | nil => exact h
  | cons v vs ih =>
    obtain ⟨hv0, hvs⟩ := List.forall_mem_cons.mp hv
    have := ih (h.see hv0) hvs
    rwa [List.length_cons, Nat.add_comm vs.length, ← Nat.add_assoc]

/-! ### Each register keeps its value or takes one in range -/

/-- The register keeps its value or takes one of which `P` holds. -/
abbrev KeptOr (P : Word → Prop) (old new : Word) : Prop := new = old ∨ P new

theorem KeptOr.holds {P : Word → Prop} {old new : Word} (h : KeptOr P old new) (ho : P old) : P new :=
  h.elim (fun e => e ▸ ho) id

/-- Every result register keeps its value or takes one in the range of R37; a field left out says that it is kept. -/
structure Results.StepsTo (r r' : Results) : Prop where
  vpack : KeptOr (UnsignedUpTo 6553500) r.vpack r'.vpack := by exact .inl rfl
  ipack : KeptOr (SignedWithin (-3276800) 3276700) r.ipack r'.ipack := by exact .inl rfl
  soc : KeptOr (UnsignedUpTo 655350) r.soc r'.soc := by exact .inl rfl
  cap : KeptOr (UnsignedUpTo 655350) r.cap r'.cap := by exact .inl rfl
  cellcnt : KeptOr (UnsignedUpTo 48) r.cellcnt r'.cellcnt := by exact .inl rfl
  tempcnt : KeptOr (UnsignedUpTo 16) r.tempcnt r'.tempcnt := by exact .inl rfl
  vmax : KeptOr (UnsignedUpTo 65535) r.vmax r'.vmax := by exact .inl rfl
  vmaxidx : KeptOr (UnsignedUpTo 255) r.vmaxidx r'.vmaxidx := by exact .inl rfl
  vmin : KeptOr (UnsignedUpTo 65535) r.vmin r'.vmin := by exact .inl rfl
  vminidx : KeptOr (UnsignedUpTo 255) r.vminidx r'.vminidx := by exact .inl rfl
  vdelta : KeptOr (SignedWithin (-65535) 65535) r.vdelta r'.vdelta := by exact .inl rfl
  tmax : KeptOr (SignedWithin (-1280) 1270) r.tmax r'.tmax := by exact .inl rfl
  tmin : KeptOr (SignedWithin (-1280) 1270) r.tmin r'.tmin := by exact .inl rfl
  chgfet : KeptOr (UnsignedUpTo 1) r.chgfet r'.chgfet := by exact .inl rfl
  dsgfet : KeptOr (UnsignedUpTo 1) r.dsgfet r'.dsgfet := by exact .inl rfl
  chgstate : KeptOr (UnsignedUpTo 255) r.chgstate r'.chgstate := by exact .inl rfl
  loadstate : KeptOr (UnsignedUpTo 255) r.loadstate r'.loadstate := by exact .inl rfl
  cycles : KeptOr (UnsignedUpTo 65535) r.cycles r'.cycles := by exact .inl rfl
  heartbeat : KeptOr (UnsignedUpTo 255) r.heartbeat r'.heartbeat := by exact .inl rfl
  resid : KeptOr (UnsignedUpTo 65535) r.resid r'.resid := by exact .inl rfl
  prot : KeptOr (UnsignedUpTo 0x1FFF) r.prot r'.prot := by exact .inl rfl

theorem Results.StepsTo.inRange {r r' : Results} (h : r.StepsTo r') (hr : r.InRange) : r'.InRange where
  vpack := h.vpack.holds hr.vpack
  ipack := h.ipack.holds hr.ipack
  soc := h.soc.holds hr.soc
  cap := h.cap.holds hr.cap
  cellcnt := h.cellcnt.holds hr.cellcnt
  tempcnt := h.tempcnt.holds hr.tempcnt
  vmax := h.vmax.holds hr.vmax
  vmaxidx := h.vmaxidx.holds hr.vmaxidx
  vmin := h.vmin.holds hr.vmin
  vminidx := h.vminidx.holds hr.vminidx
  vdelta := h.vdelta.holds hr.vdelta
  tmax := h.tmax.holds hr.tmax
  tmin := h.tmin.holds hr.tmin
  chgfet := h.chgfet.holds hr.chgfet
  dsgfet := h.dsgfet.holds hr.dsgfet
  chgstate := h.chgstate.holds hr.chgstate
  loadstate := h.loadstate.holds hr.loadstate
  cycles := h.cycles.holds hr.cycles
  heartbeat := h.heartbeat.holds hr.heartbeat
  resid := h.resid.holds hr.resid
  prot := h.prot.holds hr.prot

/-- A record equal to the one before steps from it. -/
theorem Results.StepsTo.of_eq {r r' : Results} (h : r' = r) : r.StepsTo r' := by
  subst h
  exact {}

/-- A record in range steps from any record. -/
theorem Results.InRange.stepsTo {r' : Results} (h : r'.InRange) (r : Results) : r.StepsTo r' where
  vpack := .inr h.vpack
  ipack := .inr h.ipack
  soc := .inr h.soc
  cap := .inr h.cap
  cellcnt := .inr h.cellcnt
  tempcnt := .inr h.tempcnt
  vmax := .inr h.vmax
  vmaxidx := .inr h.vmaxidx
  vmin := .inr h.vmin
  vminidx := .inr h.vminidx
  vdelta := .inr h.vdelta
  tmax := .inr h.tmax
  tmin := .inr h.tmin
  chgfet := .inr h.chgfet
  dsgfet := .inr h.dsgfet
  chgstate := .inr h.chgstate
  loadstate := .inr h.loadstate
  cycles := .inr h.cycles
  heartbeat := .inr h.heartbeat
  resid := .inr h.resid
  prot := .inr h.prot

/-! ### What each decoder writes -/

theorem decodeVis_done_stepsTo {p : Params} {f g : Fcd} {d : Word} (h : decodeVis p f = .done g d) :
    f.res.StepsTo g.res := by
  obtain ⟨-, v, i, soc, hv, hi, hsoc, rfl⟩ := decodeVis_done h
  have := Fcd.u16be_lt hv
  have := Fcd.s16be_bounds hi
  have hmul : soc * p.socAMul ≤ 65535 * 10 :=
    Nat.mul_le_mul (Nat.le_of_lt_succ (Fcd.u16be_lt hsoc)) p.vendorA.2.2.2.2.2.2.2
  exact {
    vpack := .inr (unsigned_upTo (by omega))
    ipack := .inr (signed_within (by omega))
    soc := .inr (unsigned_upTo hmul) }

theorem decodeMmv_done_stepsTo {f g : Fcd} {d : Word} (h : decodeMmv f = .done g d) : f.res.StepsTo g.res := by
  obtain ⟨-, mx, imx, mn, imn, hmx, himx, hmn, himn, rfl⟩ := decodeMmv_done h
  have hx := Fcd.u16be_lt hmx
  have hn := Fcd.u16be_lt hmn
  exact {
    vmax := .inr (unsigned_upTo (by omega))
    vmaxidx := .inr (unsigned_upTo (Nat.le_of_lt_succ (Fcd.u8_lt himx)))
    vmin := .inr (unsigned_upTo (by omega))
    vminidx := .inr (unsigned_upTo (Nat.le_of_lt_succ (Fcd.u8_lt himn)))
    vdelta := .inr (signed_within (by omega)) }

theorem decodeMmt_done_stepsTo {f g : Fcd} {d : Word} (h : decodeMmt f = .done g d) : f.res.StepsTo g.res := by
  obtain ⟨-, hi, lo, hhi, hlo, rfl⟩ := decodeMmt_done h
  have := Fcd.s8_bounds hhi
  have := Fcd.s8_bounds hlo
  exact {
    tmax := .inr (signed_within (by omega))
    tmin := .inr (signed_within (by omega)) }

theorem decodeStat_done_stepsTo {f g : Fcd} {d : Word} (h : decodeStat f = .done g d) : f.res.StepsTo g.res := by
  obtain ⟨-, cells, sensors, charge, load, cycles, -, -, hcharge, hload, hcycles, rfl⟩ := decodeStat_done h
  exact {
    cellcnt := .inr (unsigned_upTo (Nat.min_le_right _ _))
    tempcnt := .inr (unsigned_upTo (Nat.min_le_right _ _))
    chgstate := .inr (unsigned_upTo (Nat.le_of_lt_succ (Fcd.u8_lt hcharge)))
    loadstate := .inr (unsigned_upTo (Nat.le_of_lt_succ (Fcd.u8_lt hload)))
    cycles := .inr (unsigned_upTo (Nat.le_of_lt_succ (Fcd.u16be_lt hcycles))) }

theorem decodeMos_done_stepsTo {f g : Fcd} {d : Word} (h : decodeMos f = .done g d) : f.res.StepsTo g.res := by
  obtain ⟨-, chg, dsg, beat, resid, -, -, hbeat, hresid, rfl⟩ := decodeMos_done h
  exact {
    chgfet := .inr (unsigned_upTo (by split <;> omega))
    dsgfet := .inr (unsigned_upTo (by split <;> omega))
    heartbeat := .inr (unsigned_upTo (Nat.le_of_lt_succ (Fcd.u8_lt hbeat)))
    resid := .inr (unsigned_upTo (Nat.le_of_lt_succ (Fcd.u16be_lt hresid))) }

theorem decodeHw_done_stepsTo {l : LayoutB} {f g : Fcd} {d : Word} (h : decodeHw l f = .done g d) :
    f.res.StepsTo g.res := by
  obtain ⟨-, rfl | ⟨sensors, v, i, cap, soc, balLo, balHi, prot, fet, cells, -, hv, hi, hcap, hsoc, -, -, -, -, -, hg⟩⟩ :=
    decodeHw_done h
  · exact {}
  have := Fcd.u16be_lt hv
  have := Fcd.s16be_bounds hi
  have := Fcd.u16be_lt hcap
  have := Fcd.u8_lt hsoc
  rw [hg]
  exact {
    vpack := .inr (unsigned_upTo (by omega))
    ipack := .inr (signed_within (by omega))
    soc := .inr (unsigned_upTo (by omega))
    cap := .inr (unsigned_upTo (by omega))
    cellcnt := .inr (unsigned_upTo (Nat.min_le_right _ _))
    tempcnt := .inr (unsigned_upTo (Nat.min_le_right _ _))
    chgfet := .inr (unsigned_upTo (bit_le _ _))
    dsgfet := .inr (unsigned_upTo (bit_le _ _))
    prot := .inr (unsigned_upTo (by omega)) }

/-- DB.CELL numbers its cells from 1 to CELLCNT, so the bound on CELLCNT bounds VMAXIDX and VMINIDX. -/
theorem decodeCells_done_stepsTo {f g : Fcd} {d : Word} (hc : f.res.cellcnt.toNat ≤ 48) (h : decodeCells f = .done g d) :
    f.res.StepsTo g.res := by
  obtain ⟨-, rfl | ⟨vs, hvs, rfl⟩⟩ := decodeCells_done h
  · exact {}
  obtain ⟨hlen, hlt⟩ := Fcd.words?_bounds hvs
  obtain ⟨hmx, himx, hmn, himn⟩ := Extremes.start_within.over hlt
  rw [hlen] at himx himn
  exact {
    vmax := .inr (unsigned_upTo hmx)
    vmaxidx := .inr (unsigned_upTo (by omega))
    vmin := .inr (unsigned_upTo hmn)
    vminidx := .inr (unsigned_upTo (by omega))
    vdelta := .inr (signed_within (by omega)) }

theorem Results.reset_inRange : Results.reset.InRange := by
  constructor <;> decide

/-- Every operation that carries its effect out keeps each result register or writes a value in its range. -/
theorem effectOf_done_stepsTo {p : Params} {i : Instr} {f g : Fcd} {d : Word} (hc : f.res.cellcnt.toNat ≤ 48)
    (he : effectOf p i f = .done g d) : f.res.StepsTo g.res := by
  have frame := effectOf_done_frame he
  cases i
  case srst => cases he; exact Results.reset_inRange.stepsTo _
  case daVis => exact decodeVis_done_stepsTo (whenValidated_done he).2.2
  case daMmv => exact decodeMmv_done_stepsTo (whenValidated_done he).2.2
  case daMmt => exact decodeMmt_done_stepsTo (whenValidated_done he).2.2
  case daStat => exact decodeStat_done_stepsTo (whenValidated_done he).2.2
  case daMos => exact decodeMos_done_stepsTo (whenValidated_done he).2.2
  case dbHw => exact decodeHw_done_stepsTo (whenValidated_done he).2.2
  case dbCell => exact decodeCells_done_stepsTo hc (whenValidated_done he).2.2
  case daCellv =>
    obtain ⟨-, hg⟩ := decodeCellv_done (whenValidated_done he).2.2
    exact .of_eq (congrArg Fcd.res hg :)
  case daCellt =>
    obtain ⟨-, hg⟩ := decodeCellt_done (whenValidated_done he).2.2
    exact .of_eq (congrArg Fcd.res hg :)
  case daBal =>
    obtain ⟨-, hg⟩ := decodeBal_done (whenValidated_done he).2.2
    rw [hg]
    exact {}
  case daFail =>
    obtain ⟨-, hg⟩ := decodeFail_done (whenValidated_done he).2.2
    exact .of_eq (congrArg Fcd.res hg :)
  all_goals exact .of_eq (congrArg Fcd.res frame :)

end Machine
end Sys2Proof
end

section
/-! The obligations about the invariant and the register ranges (spec/10_state.md R37, R42, R46). -/

namespace Sys2Proof
namespace Machine

/-- The limits of the invariant are ranges of R37, so what keeps the ranges keeps the limits. -/
theorem Results.StepsTo.limits {r r' : Results} (h : r.StepsTo r') (hr : r.Limits) : r'.Limits where
  cells := h.cellcnt.holds hr.cells
  sensors := h.tempcnt.holds hr.sensors
  prot := h.prot.holds hr.prot
  chgfet := h.chgfet.holds hr.chgfet
  dsgfet := h.dsgfet.holds hr.dsgfet

theorem Fcd.reset_inv : Fcd.reset.Inv :=
  .of_parts (.of_empty rfl Memory.wf_reset) (.unvalidated ⟨rfl, rfl, rfl, rfl⟩)
    ⟨by decide, by decide, by decide, by decide, by decide⟩ rfl ⟨fun _ => rfl, fun _ => rfl⟩

theorem effectOf_done_inv {p : Params} {i : Instr} {f g : Fcd} {d : Word} (h : f.Inv) (he : effectOf p i f = .done g d) :
    g.Inv :=
  .of_parts (effectOf_done_bufferInv h.buffer he) (effectOf_done_windowInv h.windowInv he)
    ((effectOf_done_stepsTo h.cells he).limits h.limits) (effectOf_done_sumsAgree h.sums he)
    (effectOf_done_faultInv h.faultCode he)

theorem Fcd.raise_res (f : Fcd) (c : Cause) : (f.raise c).res = f.res := by rw [Fcd.raise_eq]

/-! ### From effects to steps and runs -/

/-- A property of the unit that a raised fault and every operation's effect keep is kept by exec. -/
theorem exec_keeps {P : Fcd → Prop} (hraise : ∀ f c, P f → P (f.raise c))
    (hdone : ∀ p i f g d, P f → effectOf p i f = .done g d → P g) {i : Instr} {s t : State} (hs : P s.fcd)
    (h : exec i s = .next t) : P t.fcd := by
  obtain ⟨-, -, rfl⟩ | ⟨-, f, d, he, rfl⟩ | ⟨-, c, -, rfl⟩ := exec_cases h
  · exact hs
  · exact hdone _ _ _ _ _ hs he
  · exact hraise _ _ hs

/-- One that holds of the reset unit too is kept by every step, whatever the host's next event is. -/
theorem step_keeps {P : Fcd → Prop} (hreset : P Fcd.reset) (hraise : ∀ f c, P f → P (f.raise c))
    (hdone : ∀ p i f g d, P f → effectOf p i f = .done g d → P g) {s t : State} (hs : P s.fcd)
    (h : step s = .next t) : P t.fcd := by
  obtain ⟨-, ht⟩ | ⟨rest, -, ht⟩ | ⟨w, rest, e, -, -, ht⟩ | ⟨w, rest, i, -, -, ht⟩ := step_cases h
  · cases ht; exact hs
  · cases ht; exact hreset
  · cases ht; exact hraise _ _ hs
  · exact exec_keeps hraise hdone (s := { s with inbox := rest }) hs ht.symm

/-- What every step keeps, every run keeps. -/
theorem run_keeps {M : Host.Core} {P : M.State → Prop} (hstep : ∀ s t, P s → M.step s = .next t → P t) {k : Nat}
    {s t : M.State} (hs : P s) (h : M.run k s = .next t) : P t := by
  induction k generalizing s with
  | zero => cases h; exact hs
  | succ k ih =>
    obtain ⟨u, hu, hrun⟩ := run_next h
    exact ih (hstep s u hs hu) hrun

end Machine
end Sys2Proof

open Sys2Proof Sys2Proof.Machine

/-- Settles O11: each part of the invariant is kept by every operation's effect, and by a raised fault. -/
theorem stepKeepsInvariant : Obligations.StepKeepsInvariant := by
  intro s t hs h
  exact step_keeps Fcd.reset_inv (fun _ c hf => hf.raise c) (fun _ _ _ _ _ hf he => effectOf_done_inv hf he) hs h

/-- Settles O12, by induction on the number of steps. -/
theorem reachableStatesMeetInvariant : Obligations.ReachableStatesMeetInvariant := by
  intro p events k t h
  have start : State.Inv { State.resetWith p with inbox := events } := Fcd.reset_inv
  exact run_keeps (M := core) stepKeepsInvariant start h

/-- Settles O13: every operation keeps each result register or writes a value in its range. The invariant goes along for
its bound on CELLCNT, which bounds the cell numbers of DB.CELL. -/
theorem stepKeepsRegisterRanges : Obligations.StepKeepsRegisterRanges := by
  intro s t hs hr h
  refine (step_keeps (P := fun f => f.Inv ∧ f.res.InRange) ⟨Fcd.reset_inv, Results.reset_inRange⟩ ?_ ?_ ⟨hs, hr⟩ h).2
  · rintro f c ⟨hf, hres⟩
    exact ⟨hf.raise c, by rwa [Fcd.raise_res]⟩
  · rintro p i f g d ⟨hf, hres⟩ he
    exact ⟨effectOf_done_inv hf he, (effectOf_done_stepsTo hf.cells he).inRange hres⟩

/-- Settles O10. -/
theorem resetMeetsInvariant : Obligations.ResetMeetsInvariant := ⟨Fcd.reset_inv, Results.reset_inRange⟩

end

section
/-! RDR on every register number (spec/10_state.md R40), and who writes VALID, VK, the window and FAULT (R43). -/

namespace Sys2Proof
namespace Machine

/-- RDR of a number the register map defines answers the register, halted or not (R106). -/
theorem exec_rdr_defined {s : State} {n : Byte} {v : Word} (h : s.fcd.register n.toNat = some v) :
    exec (.rdr n) s = .next (s.answer s.fcd v) := by
  rw [exec_always rfl, effectOf, readRegister, h]
  rfl

/-- RDR of an undefined number raises (R106). -/
theorem exec_rdr_undefined {s : State} {n : Byte} (h : s.fcd.register n.toNat = none) :
    exec (.rdr n) s = .next (s.raiseFault .badRegister) := by
  rw [exec_always rfl, effectOf, readRegister, h]
  rfl

/-- The register map at the three arrays (R40). -/
theorem Fcd.register_alm (f : Fcd) (g : Fin 7) : f.register (0x28 + g) = some (f.alm[g].zeroExtend 32) := by
  have : ¬ 0x28 + g.val < 0x28 := by omega
  have : 0x28 + g.val < 0x40 := by omega
  simp [Fcd.register, *, unsigned_byte]

theorem Fcd.register_cv (f : Fcd) (i : Fin 48) : f.register (0x40 + i) = some (f.cv[i].zeroExtend 32) := by
  have : ¬ 0x40 + i.val < 0x28 := by omega
  have : ¬ 0x40 + i.val < 0x40 := by omega
  have : 0x40 + i.val < 0x70 := by omega
  simp [Fcd.register, *, unsigned_half]

theorem Fcd.register_t (f : Fcd) (i : Fin 16) : f.register (0x70 + i) = some f.t[i] := by
  have : ¬ 0x70 + i.val < 0x28 := by omega
  have : ¬ 0x70 + i.val < 0x40 := by omega
  have : ¬ 0x70 + i.val < 0x70 := by omega
  simp [Fcd.register, *]

/-- NCRC as R34 derives it. -/
theorem Fcd.ncrc_register (f : Fcd) : unsigned f.ncrc.toNat = (-f.sum16).zeroExtend 32 := by
  rw [unsigned_half, Fcd.ncrc, neg16_eq_neg]

/-! ### VALID, the window and FAULT -/

/-- An operation of R43's list that leaves VALID = 1 is a check that ended with OK. -/
theorem effectOf_done_validates {p : Params} {i : Instr} {f g : Fcd} {d : Word} (hi : clearsValid i = true)
    (he : effectOf p i f = .done g d) (hv : g.valid = true) :
    (i = .chkA ∧ g.vk = some .vendorA ∨ i = .chkB ∧ g.vk = some .vendorB) ∧ g.err = .ok := by
  have checked : ¬ g.Unvalidated := fun h => by simp [h.valid] at hv
  obtain hb | rfl | rfl := clearsValid_cases hi
  · exact absurd ((effectOf_done_frame he).unvalidated hb) checked
  · obtain ⟨-, hk, herr, -⟩ := (checkA_done_window he).resolve_left checked
    exact ⟨.inl ⟨rfl, hk⟩, herr⟩
  · obtain ⟨-, hk, herr, -⟩ := (checkB_done_window he).resolve_left checked
    exact ⟨.inr ⟨rfl, hk⟩, herr⟩

/-- An operation that ends with VALID = 1 has written neither the buffer nor WP (R43). -/
theorem DoneFrame.buffer_of_valid {i : Instr} {f g : Fcd} (h : DoneFrame i f g) (hv : g.valid = true) :
    g.fb = f.fb ∧ g.wp = f.wp := by
  cases hi : writesBuffer i with
  | false => exact h.buffer hi
  | true => simp [h.invalid hi] at hv

/-- Only SRST takes FAULT from 1 to 0 (R229). -/
theorem DoneFrame.srst_of_unfaulted {i : Instr} {f g : Fcd} (h : DoneFrame i f g) (hf : f.fault = true)
    (hg : g.fault = false) : i = .srst := by
  by_contra hi
  simp [(h.faults hi).1, hf] at hg

/-- A raised fault leaves VALID, VK and the window. -/
theorem Fcd.raise_window (f : Fcd) (c : Cause) :
    (f.raise c).valid = f.valid ∧ (f.raise c).vk = f.vk ∧ (f.raise c).pbase = f.pbase ∧ (f.raise c).plen = f.plen := by
  rw [Fcd.raise_eq]
  exact ⟨rfl, rfl, rfl, rfl⟩

end Machine
end Sys2Proof

open Sys2Proof Sys2Proof.Machine

/-- Settles O23, register by register; STATUS, ERR and FCODE by the values of the fields they encode. -/
theorem rdrReadsStatusRegisters : Obligations.RdrReadsStatusRegisters := by
  intro s
  simp only [List.forall_mem_cons]
  refine ⟨exec_rdr_defined ?status, exec_rdr_defined ?err, exec_rdr_defined ?fcode, exec_rdr_defined rfl,
    exec_rdr_defined (congrArg some (unsigned_byte _)), exec_rdr_defined (congrArg some (unsigned_half _)),
    exec_rdr_defined (congrArg some s.fcd.ncrc_register), exec_rdr_defined rfl, exec_rdr_defined rfl,
    exec_rdr_defined (congrArg some (unsigned_byte _)), exec_rdr_defined rfl, by simp⟩
  case status =>
    show some (unsigned (s.fcd.valid.toNat + 2 * s.fcd.vkNumber + 8 * s.fcd.fault.toNat)) = _
    unfold Fcd.vkNumber
    cases s.fcd.valid <;> cases s.fcd.fault <;> rcases s.fcd.vk with _ | _ | _ <;> rfl
  case err =>
    show some (unsigned s.fcd.err.code) = _
    cases s.fcd.err <;> rfl
  case fcode =>
    show some (unsigned s.fcd.fcodeNumber) = _
    unfold Fcd.fcodeNumber
    rcases s.fcd.fcode with _ | c
    · rfl
    · cases c <;> rfl

/-- Settles O24. -/
theorem rdrReadsResultRegisters : Obligations.RdrReadsResultRegisters := by
  intro s
  refine ⟨?scalars, ?alm, ?cv, ?t⟩
  case scalars =>
    intro p hp
    apply exec_rdr_defined
    fin_cases hp <;> rfl
  all_goals
    intro i
    apply exec_rdr_defined
    rw [BitVec.toNat_ofNat, Nat.mod_eq_of_lt (by omega)]
  case alm => exact s.fcd.register_alm i
  case cv => exact s.fcd.register_cv i
  case t => exact s.fcd.register_t i

/-- Settles O25: the register map has no value exactly at R40's undefined numbers. -/
theorem rdrUndefinedNumberFaults : Obligations.RdrUndefinedNumberFaults := by
  intro s n h
  have hnone : s.fcd.register n.toNat = none := by
    rw [← Option.not_isSome_iff_eq_none, Fcd.register_isSome, h]
    decide
  rw [exec_rdr_undefined hnone]
  cases hf : s.fcd.fault with
  | true => exact congrArg _ (State.raiseFault_halted hf _)
  | false => exact congrArg _ (State.raiseFault_running hf _)

/-- Settles O39, by how the operation ended: refused in a halted unit, done, or with a raised fault. -/
theorem flagWriters : Obligations.FlagWriters := by
  intro i s t h
  obtain ⟨halted, -, rfl⟩ | ⟨-, g, d, he, rfl⟩ | ⟨-, c, -, rfl⟩ := exec_cases h
  · exact ⟨fun _ => ⟨rfl, rfl, rfl, rfl⟩, fun running => absurd halted (by simp [running]), fun _ _ _ => ⟨rfl, rfl⟩,
      fun _ unfaulted => absurd halted (by simpa using unfaulted)⟩
  · have frame := effectOf_done_frame he
    exact ⟨frame.window, fun _ hi _ hv => effectOf_done_validates hi he hv, fun _ _ hv => frame.buffer_of_valid hv,
      fun hf hg => frame.srst_of_unfaulted hf hg⟩
  · have faulted : (s.raiseFault c).fcd.fault ≠ false := by simp
    exact ⟨fun _ => s.fcd.raise_window c, fun _ _ hg => absurd hg faulted, fun _ hg => absurd hg faulted,
      fun _ hg => absurd hg faulted⟩

end

section
/-! Who writes the frame buffer and WP (spec/20_memory.md R63). -/

namespace Sys2Proof
namespace Machine

/-- A raised fault leaves the buffer and WP (R226). -/
theorem Fcd.raise_buffer (f : Fcd) (c : Cause) : (f.raise c).fb = f.fb ∧ (f.raise c).wp = f.wp := by
  rw [Fcd.raise_eq]
  exact ⟨rfl, rfl⟩

/-- A done operation stores nowhere but at its indices; CLR moves WP and leaves the bytes (R63, R102). -/
theorem effectOf_done_read {p : Params} {i : Instr} {f g : Fcd} {d : Word} {a : Nat} (he : effectOf p i f = .done g d)
    (hi : i ≠ .srst) (ha : ¬ storesTo i f a) : g.fb.read a = f.fb.read a := by
  cases hw : writesBuffer i with
  | false => rw [((effectOf_done_frame he).buffer hw).1]
  | true =>
    cases i
    case clr =>
      obtain ⟨-, rfl⟩ := clearBuffer_done he
      rfl
    case push =>
      obtain ⟨-, -, rfl⟩ := pushByte_done he
      exact Memory.read_write_other _ ha
    case encA =>
      obtain ⟨-, -, payload, -, rfl⟩ := encodeA_done he
      exact f.read_loadFrame_beyond _ (by simpa using Nat.le_of_not_lt ha)
    case encB =>
      obtain ⟨-, -, payload, hp, rfl⟩ := encodeB_done he
      have hlen := Fcd.bytes?_length hp
      exact f.read_loadFrame_beyond _ (by rw [frameB_length, hlen]; exact Nat.le_of_not_lt ha)
    case srst => exact absurd rfl hi
    all_goals cases hw

/-- Of the operations that write the buffer or WP, all but CLR and SRST have an index to store to (R63). -/
theorem exists_storesTo_of_writesBuffer {i : Instr} (hw : writesBuffer i = true) (hclr : i ≠ .clr) (hsrst : i ≠ .srst)
    (f : Fcd) : ∃ a, storesTo i f a := by
  cases i
  case clr => exact absurd rfl hclr
  case srst => exact absurd rfl hsrst
  case push => exact ⟨f.wp, rfl⟩
  case encA => exact ⟨0, Nat.succ_pos 12⟩
  case encB => exact ⟨0, Nat.succ_pos (f.wp + 6)⟩
  all_goals cases hw

/-- An operation that stores nowhere, CLR and SRST apart, is not one that writes the buffer or WP. -/
theorem writesBuffer_of_storesNowhere {i : Instr} {f : Fcd} (hstores : ∀ a, ¬ storesTo i f a) (hclr : i ≠ .clr)
    (hsrst : i ≠ .srst) : writesBuffer i = false := by
  rw [← Bool.not_eq_true]
  intro hw
  obtain ⟨a, ha⟩ := exists_storesTo_of_writesBuffer hw hclr hsrst f
  exact hstores a ha

end Machine
end Sys2Proof

open Sys2Proof Sys2Proof.Machine

/-- Settles O38, by how the operation ended: only a done operation can have written the buffer. -/
theorem bufferWriters : Obligations.BufferWriters := by
  intro i s t h hsrst
  obtain ⟨-, -, rfl⟩ | ⟨-, g, d, he, rfl⟩ | ⟨-, c, -, rfl⟩ := exec_cases h
  · exact ⟨fun _ _ => rfl, fun _ _ => ⟨rfl, rfl⟩⟩
  · exact ⟨fun _ ha => effectOf_done_read he hsrst ha,
      fun hstores hclr => (effectOf_done_frame he).buffer (writesBuffer_of_storesNowhere hstores hclr hsrst)⟩
  · obtain ⟨hfb, hwp⟩ := s.fcd.raise_buffer c
    exact ⟨fun a _ => congrArg (Memory.read · a) hfb, fun _ _ => ⟨hfb, hwp⟩⟩

end

section
/-! The decoder and the encoder agree (spec/30_encoding.md R84 to R88): each format by what it accepts, then the operation map
row by row. -/

namespace Sys2Proof
open Machine

/-- What the answer to the fields `f` has to be: it accepts `f` exactly when `f` is `legal`, and what it accepts is well formed
and is encoded by these very fields. -/
structure Fields.Reads (f : Fields) (legal : Bool) (answer : Except Illegal Instr) : Prop where
  sound : ∀ i, answer = .ok i → i.wellFormed = true ∧ encodeFields i = f
  legal_iff : legal = true ↔ ∃ i, answer = .ok i

/-- Fields whose unused bits are zero are read, all others are refused (R88). -/
theorem Fields.require_reads {f : Fields} {legal unusedZero : Bool} {i : Instr} (hlegal : legal = unusedZero)
    (h : unusedZero = true → i.wellFormed = true ∧ encodeFields i = f) : f.Reads legal (f.require unusedZero i) where
  sound := by
    intro j hj
    obtain ⟨hz, rfl⟩ := Fields.require_ok hj
    exact h hz
  legal_iff := by cases unusedZero <;> simp [hlegal, Fields.require]

theorem Fields.error_reads {f : Fields} (e : Illegal) : f.Reads false (.error e) where
  sound := by intro i h; cases h
  legal_iff := by simp

/-! ### The formats of R85, under the opcode `n` -/

section
variable {f : Fields} {n : Nat} (hop : f.op.toNat = n)
include hop

theorem Fields.mk_opcode {a b c : Byte} (ha : f.a = a) (hb : f.b = b) (hc : f.c = c) : ⟨BitVec.ofNat 8 n, a, b, c⟩ = f := by
  subst hop ha hb hc
  simp

theorem Fields.formatN_reads {i : Instr} (henc : encodeFields i = ⟨BitVec.ofNat 8 n, 0, 0, 0⟩) (hwf : i.wellFormed = true) :
    f.Reads (decide (f.a.toNat = 0 ∧ f.b.toNat = 0 ∧ f.c.toNat = 0)) (f.formatN i) := by
  refine Fields.require_reads (by simp [BitVec.toNat_eq]) fun h => ⟨hwf, ?_⟩
  obtain ⟨ha, hb, hc⟩ := of_decide_eq_true h
  exact henc.trans (Fields.mk_opcode hop ha hb hc)

theorem Fields.formatC_reads {i : Byte → Instr} (henc : ∀ c, encodeFields (i c) = ⟨BitVec.ofNat 8 n, 0, 0, c⟩)
    (hwf : ∀ c, (i c).wellFormed = true) : f.Reads (decide (f.a.toNat = 0 ∧ f.b.toNat = 0)) (f.formatC i) := by
  refine Fields.require_reads (by simp [BitVec.toNat_eq]) fun h => ⟨hwf _, ?_⟩
  obtain ⟨ha, hb⟩ := of_decide_eq_true h
  exact (henc _).trans (Fields.mk_opcode hop ha hb rfl)

theorem Fields.formatSlot_reads {limit : Nat} {i : Nat → Instr}
    (henc : ∀ k, encodeFields (i k) = ⟨BitVec.ofNat 8 n, 0, 0, BitVec.ofNat 8 k⟩)
    (hwf : ∀ k < limit, (i k).wellFormed = true) :
    f.Reads (decide (f.a.toNat = 0 ∧ f.b.toNat = 0 ∧ f.c.toNat < limit)) (f.formatSlot limit i) := by
  refine Fields.require_reads (by simp [BitVec.toNat_eq]) fun h => ?_
  obtain ⟨ha, hb, hc⟩ := of_decide_eq_true h
  exact ⟨hwf _ hc, (henc _).trans (Fields.mk_opcode hop ha hb (by simp))⟩

theorem Fields.formatX_reads {i : Nat → Instr}
    (henc : ∀ k, encodeFields (i k) = ⟨BitVec.ofNat 8 n, 0, BitVec.ofNat 8 (k / 256), BitVec.ofNat 8 (k % 256)⟩)
    (hwf : ∀ k < 512, (i k).wellFormed = true) :
    f.Reads (decide (f.a.toNat = 0 ∧ f.b.toNat < 2)) (f.formatX i) := by
  refine Fields.require_reads (by simp [BitVec.toNat_eq]) fun h => ?_
  obtain ⟨ha, hb⟩ := of_decide_eq_true h
  exact ⟨hwf _ (by omega), (henc _).trans (Fields.mk_opcode hop ha (by bv_omega) (by bv_omega))⟩

theorem Fields.formatAB_reads {i : Byte → Byte → Instr}
    (henc : ∀ a b, encodeFields (i a b) = ⟨BitVec.ofNat 8 n, a, b, 0⟩)
    (hwf : ∀ a b, (i a b).wellFormed = true) : f.Reads (decide (f.c.toNat = 0)) (f.formatAB i) := by
  refine Fields.require_reads (by simp [BitVec.toNat_eq]) fun h => ⟨hwf _ _, ?_⟩
  exact (henc _ _).trans (Fields.mk_opcode hop rfl rfl (of_decide_eq_true h))

/-- The action bit: 0 Read, 1 Write (R87). -/
theorem Fields.formatActB_reads {i : WireAction → Byte → Instr}
    (hread : ∀ b, encodeFields (i .read b) = ⟨BitVec.ofNat 8 n, 0, b, 0⟩)
    (hwrite : ∀ b, encodeFields (i .write b) = ⟨BitVec.ofNat 8 n, 1, b, 0⟩) (hwf : ∀ act b, (i act b).wellFormed = true) :
    f.Reads (decide (f.a.toNat < 2 ∧ f.c.toNat = 0)) (f.formatActB i) := by
  refine Fields.require_reads (by simp [BitVec.toNat_eq, and_comm]) fun h => ⟨hwf _ _, ?_⟩
  obtain ⟨hc, ha⟩ := of_decide_eq_true h
  split
  · next h0 => exact (hread _).trans (Fields.mk_opcode hop h0 rfl hc)
  · next h0 => exact (hwrite _).trans (Fields.mk_opcode hop (by bv_omega) rfl hc)

theorem Fields.formatAO_reads {i : Byte → Instr} (henc : ∀ a, encodeFields (i a) = ⟨BitVec.ofNat 8 n, a, 0, 0⟩)
    (hwf : ∀ a, (i a).wellFormed = true) : f.Reads (decide (f.b.toNat = 0 ∧ f.c.toNat = 0)) (f.formatAO i) := by
  refine Fields.require_reads (by simp [BitVec.toNat_eq]) fun h => ⟨hwf _, ?_⟩
  obtain ⟨hb, hc⟩ := of_decide_eq_true h
  exact (henc _).trans (Fields.mk_opcode hop rfl hb hc)

theorem Fields.formatAOC_reads {limit : Nat} {i : Byte → Nat → Instr}
    (henc : ∀ a k, encodeFields (i a k) = ⟨BitVec.ofNat 8 n, a, 0, BitVec.ofNat 8 k⟩)
    (hwf : ∀ a, ∀ k < limit, (i a k).wellFormed = true) :
    f.Reads (decide (f.b.toNat = 0 ∧ f.c.toNat < limit)) (f.formatAOC limit i) := by
  refine Fields.require_reads (by simp [BitVec.toNat_eq]) fun h => ?_
  obtain ⟨hb, hc⟩ := of_decide_eq_true h
  exact ⟨hwf _ _ hc, (henc _ _).trans (Fields.mk_opcode hop rfl hb (by simp))⟩

end

/-! ### The operation map -/

/-- The decoder accepts exactly the fields R88 calls legal, and what it reads is encoded by them. The cases are the 30 rows of
R86 in their order, grouped by format, and the unassigned opcodes. -/
theorem Fields.decode_reads (f : Fields) :
    f.Reads (legalFields f.op.toNat f.a.toNat f.b.toNat f.c.toNat) f.decode := by
  unfold Fields.decode
  split
  case h_31 =>
    have illegal : legalFields f.op.toNat f.a.toNat f.b.toNat f.c.toNat = false := by simp_all [legalFields]
    rw [illegal]
    exact Fields.error_reads _
  all_goals rename_i hop; rw [hop]
  case h_3 | h_5 | h_8 => exact Fields.formatC_reads hop (fun _ => rfl) fun _ => rfl
  case h_4 => exact Fields.formatX_reads hop (fun _ => rfl) fun _ h => decide_eq_true h
  case h_11 => exact Fields.formatAB_reads hop (fun _ _ => rfl) fun _ _ => rfl
  case h_12 => exact Fields.formatActB_reads hop (fun _ => rfl) (fun _ => rfl) fun _ _ => rfl
  case h_17 | h_18 => exact Fields.formatSlot_reads hop (fun _ => rfl) fun _ h => decide_eq_true h
  case h_24 | h_25 | h_26 | h_27 | h_30 => exact Fields.formatAO_reads hop (fun _ => rfl) fun _ => rfl
  case h_28 | h_29 => exact Fields.formatAOC_reads hop (fun _ _ => rfl) fun _ _ h => decide_eq_true h
  all_goals exact Fields.formatN_reads hop rfl rfl

/-- Formats whose operand is a number read it back from its field, if it is in range (R87). -/
theorem Fields.formatSlot_ok {f : Fields} {limit k : Nat} {i : Nat → Instr} (ha : f.a = 0) (hb : f.b = 0)
    (hc : f.c.toNat = k) (hk : k < limit) : f.formatSlot limit i = .ok (i k) := by
  subst hc
  exact if_pos (decide_eq_true ⟨ha, hb, hk⟩)

theorem Fields.formatX_ok {f : Fields} {k : Nat} {i : Nat → Instr} (ha : f.a = 0) (hb : f.b.toNat = k / 256)
    (hc : f.c.toNat = k % 256) (hk : k < 512) : f.formatX i = .ok (i k) := by
  have hk' : f.b.toNat * 256 + f.c.toNat = k := by omega
  subst hk'
  exact if_pos (decide_eq_true ⟨ha, by omega⟩)

theorem Fields.formatAOC_ok {f : Fields} {limit k : Nat} {i : Byte → Nat → Instr} (hb : f.b = 0)
    (hc : f.c.toNat = k) (hk : k < limit) : f.formatAOC limit i = .ok (i f.a k) := by
  subst hc
  exact if_pos (decide_eq_true ⟨hb, hk⟩)

/-- Every well-formed instruction is read back from its fields. -/
theorem decode_encodeFields {i : Instr} (h : i.wellFormed = true) : (encodeFields i).decode = .ok i := by
  have bound {k limit : Nat} (hw : decide (k < limit) = true) : k < limit := of_decide_eq_true hw
  cases i
  case rdb idx =>
    have hidx := bound h
    exact Fields.formatX_ok rfl (Nat.mod_eq_of_lt (by omega)) (Nat.mod_eq_of_lt (by omega)) hidx
  case daCellv | daCellt =>
    have hk := bound h
    exact Fields.formatSlot_ok rfl rfl (Nat.mod_eq_of_lt (by omega)) hk
  case xbit | xbit16 =>
    have hk := bound h
    exact Fields.formatAOC_ok rfl (Nat.mod_eq_of_lt (by omega)) hk
  case encB act reg => cases act <;> rfl
  all_goals rfl

theorem legalWord_eq_legalFields (w : Word) :
    legalWord w = legalFields (Fields.split w).op.toNat (Fields.split w).a.toNat (Fields.split w).b.toNat
      (Fields.split w).c.toNat := by
  rw [legalWord, Fields.split_op_toNat, Fields.split_a_toNat, Fields.split_b_toNat, Fields.split_c_toNat]

theorem decode_reads (w : Word) : (Fields.split w).Reads (legalWord w) (decode w) := by
  rw [legalWord_eq_legalFields]
  exact Fields.decode_reads _

/-! ### The rows of R86 -/

/-- The row of the opcode map with a given `op` byte. -/
def rowAt (op : Byte) : Option OpcodeRow := opcodeMap.find? fun r => (Fields.split r.pattern).op == op

/-- No two rows share an `op` byte, and every row's mask covers it (R86). -/
theorem rowAt_pattern : ∀ r ∈ opcodeMap, rowAt (Fields.split r.pattern).op = some r := by decide

theorem row_mask_op : ∀ r ∈ opcodeMap, (Fields.split r.mask).op = 0xFF#8 := by decide

/-- A word matches no row but the one of its own `op` byte. -/
theorem rowAt_of_match {w : Word} {r : OpcodeRow} (hr : r ∈ opcodeMap) (h : w &&& r.mask = r.pattern) :
    rowAt (Fields.split w).op = some r := by
  obtain ⟨hop, -, -, -⟩ := (and_eq_iff_fields w r.mask r.pattern).mp h
  rw [row_mask_op r hr, byte_and_ff] at hop
  rw [hop, rowAt_pattern r hr]

/-- What a row has to say of an instruction to be its row: its `op` byte and mnemonic, and masks that leave the operands out. -/
theorem matches_row {i : Instr} {r : OpcodeRow} (hr : rowAt (encodeFields i).op = some r)
    (hm : r.mnemonic = i.mnemonic)
    (ha : (encodeFields i).a &&& (Fields.split r.mask).a = (Fields.split r.pattern).a)
    (hb : (encodeFields i).b &&& (Fields.split r.mask).b = (Fields.split r.pattern).b)
    (hc : (encodeFields i).c &&& (Fields.split r.mask).c = (Fields.split r.pattern).c) :
    ∃ r, rowAt (encodeFields i).op = some r ∧ r.mnemonic = i.mnemonic ∧ encode i &&& r.mask = r.pattern := by
  have hop : (Fields.split r.pattern).op = (encodeFields i).op := by simpa using List.find?_some hr
  refine ⟨r, hr, hm, (and_eq_iff_fields _ _ _).mpr ?_⟩
  rw [encode, Fields.split_join, row_mask_op r (List.mem_of_find?_eq_some hr), byte_and_ff]
  exact ⟨hop.symm, ha, hb, hc⟩

/-- Every well-formed instruction's word matches a row with its mnemonic, format by format. -/
theorem exists_row {i : Instr} (h : i.wellFormed = true) :
    ∃ r, rowAt (encodeFields i).op = some r ∧ r.mnemonic = i.mnemonic ∧ encode i &&& r.mask = r.pattern := by
  have below {k limit : Nat} (hk : decide (k < limit) = true) : (BitVec.ofNat 8 k).toNat < limit :=
    (Nat.mod_le _ _).trans_lt (of_decide_eq_true hk)
  cases i
  case push | rdr | aadd => exact matches_row rfl rfl BitVec.zero_and BitVec.zero_and BitVec.and_zero
  case rdb idx =>
    have hidx : idx < 512 := of_decide_eq_true h
    have hb : (BitVec.ofNat 8 (idx / 256)).toNat < 2 := (Nat.mod_le _ _).trans_lt (by omega)
    exact matches_row rfl rfl BitVec.zero_and ((byte_and_fe _).mpr hb) BitVec.and_zero
  case encA => exact matches_row rfl rfl BitVec.and_zero BitVec.and_zero BitVec.zero_and
  case encB act reg =>
    cases act <;> exact matches_row rfl rfl ((byte_and_fe _).mpr (by simp [encodeFields])) BitVec.and_zero BitVec.zero_and
  case daCellv =>
    exact matches_row rfl rfl BitVec.zero_and BitVec.zero_and ((byte_and_f0 _).mpr (below h))
  case daCellt =>
    exact matches_row rfl rfl BitVec.zero_and BitVec.zero_and ((byte_and_fc _).mpr (below h))
  case xu8 | xs8 | xu16 | xs16 | xk16 => exact matches_row rfl rfl BitVec.and_zero BitVec.zero_and BitVec.zero_and
  case xbit =>
    exact matches_row rfl rfl BitVec.and_zero BitVec.zero_and ((byte_and_f8 _).mpr (below h))
  case xbit16 =>
    exact matches_row rfl rfl BitVec.and_zero BitVec.zero_and ((byte_and_f0 _).mpr (below h))
  all_goals exact matches_row rfl rfl BitVec.zero_and BitVec.zero_and BitVec.zero_and

/-- A word that matches a row of the map is one of R88's legal words: row by row, the masks bound the fields as R88's numbers
do. -/
theorem legalWord_of_match {w : Word} {r : OpcodeRow} (hr : r ∈ opcodeMap) (h : w &&& r.mask = r.pattern) :
    legalWord w = true := by
  rw [and_eq_iff_fields] at h
  rw [legalWord_eq_legalFields]
  generalize Fields.split w = f at h ⊢
  fin_cases hr <;>
    simp [Fields.split, byte_and_ff, byte_and_fe, byte_and_fc, byte_and_f8, byte_and_f0] at h <;>
    simp [h, legalFields]

/-- A word that decodes does so by the row of its mnemonic. -/
theorem match_of_decode {w : Word} {i : Instr} (h : decode w = .ok i) :
    ∃ r, rowAt (Fields.split w).op = some r ∧ r.mnemonic = i.mnemonic ∧ w &&& r.mask = r.pattern := by
  obtain ⟨hwf, hf⟩ := (decode_reads w).sound i h
  have hrow := exists_row hwf
  rwa [encode, hf, Fields.join_split] at hrow

/-! ### A command word reaches the unit -/

namespace Machine

/-- A step on a command word, without the case split of `step`. -/
theorem step_command {s : State} {w : Word} {rest : List HostEvent} (h : s.inbox = .command w :: rest) :
    step s = present w { s with inbox := rest } := by
  rw [step, h]

theorem present_ok {w : Word} {i : Instr} (h : decode w = .ok i) (s : State) : present w s = exec i s := by
  rw [present, h]

theorem present_illegal {w : Word} (h : legalWord w = false) (s : State) : present w s = .next s.illegalWord := by
  cases hd : decode w with
  | ok i => simp [(decode_reads w).legal_iff.mpr ⟨i, hd⟩] at h
  | error e => rw [present, hd]

theorem State.illegalWord_eq (s : State) :
    s.illegalWord = s.answer (if s.fcd.fault then s.fcd else s.fcd.faulted .illegalOp) 0 := rfl

end Machine
end Sys2Proof

open Sys2Proof Sys2Proof.Machine

/-- Settles O1, format by format. -/
theorem decodeInvertsEncode : Obligations.DecodeInvertsEncode := by
  intro i h
  rw [decode_encode_fields, decode_encodeFields h]

/-- Settles O2: what the decoder accepts is encoded by the word's own fields. -/
theorem encodeInvertsDecode : Obligations.EncodeInvertsDecode := by
  intro w i h
  obtain ⟨hwf, hf⟩ := (decode_reads w).sound i h
  exact ⟨hwf, by rw [encode, hf, Fields.join_split]⟩

/-- Settles O3: a word's `op` byte picks the one row it can match, and that row accepts what the decoder does. -/
theorem decodeFollowsOpcodeMap : Obligations.DecodeFollowsOpcodeMap := by
  refine ⟨rfl, fun w m => ⟨?_, ?_⟩, ?_⟩
  · rintro ⟨i, hi, rfl⟩
    obtain ⟨r, hr, hm, hmatch⟩ := match_of_decode hi
    exact ⟨r, List.mem_of_find?_eq_some hr, hm, hmatch⟩
  · rintro ⟨r, hr, rfl, hmatch⟩
    obtain ⟨i, hi⟩ := (decode_reads w).legal_iff.mp (legalWord_of_match hr hmatch)
    obtain ⟨q, hq, hm, -⟩ := match_of_decode hi
    obtain rfl : r = q := Option.some.inj ((rowAt_of_match hr hmatch).symm.trans hq)
    exact ⟨i, hi, hm.symm⟩
  · intro w r hr q hq hmr hmq
    exact Option.some.inj ((rowAt_of_match hr hmr).symm.trans (rowAt_of_match hq hmq))

/-- Settles O4: the decoder accepts exactly the legal words, so the unit meets an illegal one with IllegalOp. -/
theorem illegalWordRaisesIllegalOp : Obligations.IllegalWordRaisesIllegalOp := by
  intro s w rest hs
  refine ⟨(decode_reads w).legal_iff, fun h => ?_⟩
  rw [step_command hs, present_illegal h, State.illegalWord_eq]

/-- Settles O5, by running the decoder on each word. -/
theorem sampleWordsDecode : Obligations.SampleWordsDecode :=
  ⟨rfl, rfl, rfl, rfl, rfl, rfl, rfl, rfl, rfl, rfl⟩

/-- Settles O6: a step presents the word, and a word that decodes is well formed. -/
theorem stepRunsDecodedWord : Obligations.StepRunsDecodedWord := by
  intro s w rest i hs hi
  refine ⟨((decode_reads w).sound i hi).1, ?_⟩
  rw [step_command hs, present_ok hi]

end

section
/-! Every operation is answered (spec/30_encoding.md R80, R82): under the invariant it finds every byte it reads, and what
its response reports. -/

namespace Sys2Proof
namespace Machine

/-! ### Effects that end done or raised -/

/-- The effect is not stopped by a byte that was never received. -/
def Effect.Completes (e : Effect) : Prop := e ≠ .unreceived

theorem Effect.completes_done (f : Fcd) (d : Word) : (Effect.done f d).Completes := Effect.noConfusion

theorem Effect.completes_raise (c : Cause) : (Effect.raise c).Completes := Effect.noConfusion

theorem Fcd.result_completes (f : Fcd) (e : Err) : (f.result e).Completes := Effect.noConfusion

theorem reading_completes {α : Type} {value : Option α} {next : α → Effect} {v : α} (hv : value = some v)
    (h : ∀ v, (next v).Completes) : (reading value next).Completes := by
  rw [hv]
  exact h v

theorem ite_completes {p : Prop} [Decidable p] {e e' : Effect} (h : p → e.Completes) (h' : ¬ p → e'.Completes) :
    (if p then e else e').Completes := by
  split
  · exact h ‹_›
  · exact h' ‹_›

theorem whenValid_completes {f : Fcd} {e : Effect} (h : f.valid = true → e.Completes) : (whenValid f e).Completes :=
  ite_completes h fun _ => Effect.completes_raise _

theorem whenValidated_completes {v : Vendor} {f : Fcd} {e : Effect}
    (h : f.valid = true → f.vk = some v → e.Completes) : (whenValidated v f e).Completes :=
  whenValid_completes fun hv => ite_completes (h hv) fun _ => Effect.completes_raise _

/-- A completed effect is settled by an answer. -/
theorem Effect.Completes.settle {e : Effect} (h : e.Completes) (s : State) : ∃ f d, s.settle e = .next (s.answer f d) := by
  cases e with
  | done f d => exact ⟨f, d, rfl⟩
  | raise c => exact ⟨s.fcd.raise c, 0, rfl⟩
  | unreceived => exact absurd rfl h

theorem readRegister_completes (n : Byte) (f : Fcd) : (readRegister n f).Completes := by
  rw [readRegister]
  split
  · exact Effect.completes_raise _
  · exact Effect.completes_done _ _

/-! ### Each operation finds its bytes -/

section
variable {f : Fcd} (h : f.Inv)
include h

theorem readByte_completes (idx : Nat) : (readByte idx f).Completes := by
  obtain ⟨b, hb⟩ := h.shows
  refine ite_completes (fun _ => Effect.completes_raise _) fun hi => ?_
  have hu8 := hb.u8 (i := idx) (by omega)
  rw [Nat.zero_add] at hu8
  exact reading_completes hu8 fun _ => Effect.completes_done _ _

theorem checkA_completes : (checkA f).Completes := by
  obtain ⟨b, hb⟩ := h.shows
  by_cases hw : f.wp = 13
  · rw [checkA_sum hw (hb.bytes? (i := 0) (by omega)) (hb.byte? (i := 12) (by omega))]
    exact ite_completes (fun _ => Fcd.result_completes _ _) fun _ => Fcd.result_completes _ _
  · rw [checkA_length hw]
    exact Fcd.result_completes _ _

theorem checkB_completes : (checkB f).Completes := by
  obtain ⟨b, hb⟩ := h.shows
  by_cases hw : f.wp < 7
  · rw [checkB_short hw]
    exact Fcd.result_completes _ _
  have hlast : 0 + (f.wp - 1) = f.wp - 1 := Nat.zero_add _
  rw [checkB_long (by omega) (hb.byte? (i := 0) (by omega)) (hlast ▸ hb.byte? (i := f.wp - 1) (by omega))
    (hb.byte? (i := 3) (by omega))]
  refine ite_completes (fun _ => Fcd.result_completes _ _) fun _ => ite_completes (fun _ => Fcd.result_completes _ _)
    fun _ => ite_completes (fun _ => Fcd.result_completes _ _) fun hlen => ?_
  have hunchecked : f.unchecked.Shows 0 f.wp b := hb
  have hcode := hunchecked.u16be (i := 4 + (b 3).toNat) (by omega)
  rw [Nat.zero_add] at hcode
  exact reading_completes (hunchecked.byte? (i := 2) (by omega)) fun _ =>
    reading_completes (hunchecked.bytes? (i := 2) (by omega)) fun _ =>
    reading_completes hcode fun _ => ite_completes (fun _ => Fcd.result_completes _ _) fun _ => Fcd.result_completes _ _

theorem encodeA_completes (p : Params) (addr cmd : Byte) : (encodeA p addr cmd f).Completes := by
  obtain ⟨b, hb⟩ := h.shows
  exact ite_completes (fun _ => Effect.completes_raise _)
    fun _ => reading_completes hb.all fun _ => Fcd.result_completes _ _

theorem encodeB_completes (p : Params) (act : WireAction) (reg : Byte) : (encodeB p act reg f).Completes := by
  obtain ⟨b, hb⟩ := h.shows
  exact ite_completes (fun _ => Effect.completes_raise _)
    fun _ => reading_completes hb.all fun _ => Fcd.result_completes _ _

theorem extractField_completes (off : Byte) {width : Nat} {value : Fcd → Nat → Option Int}
    (hvalue : ∀ d, f.Shows f.pbase f.plen d → off.toNat + width ≤ f.plen → ∃ v, value f off.toNat = some v) :
    (extractField off width value f).Completes := by
  refine whenValid_completes fun hv => ite_completes (fun _ => Fcd.result_completes _ _) fun hw => ?_
  obtain ⟨d, hd⟩ := h.window hv
  obtain ⟨v, hvalue⟩ := hvalue d hd (by omega)
  exact reading_completes hvalue fun _ => Effect.completes_done _ _

/-- The bytes of a validated vendor-A frame can be named (R46 (c)). -/
theorem Fcd.Inv.showsFrameA (hv : f.valid = true) (hk : f.vk = some .vendorA) : ∃ b, f.Shows 0 13 b := by
  obtain ⟨hw, -⟩ := h.checkedA hv hk
  obtain ⟨b, hb⟩ := h.shows
  exact ⟨b, hw ▸ hb⟩

end

section
variable {f : Fcd} {b : Nat → Byte} (hb : f.Shows 0 13 b)
include hb

theorem decodeVis_completes (p : Params) : (decodeVis p f).Completes :=
  reading_completes (hb.u16be (i := 4) (by omega)) fun _ =>
  reading_completes (hb.s16be (i := 8) (by omega)) fun _ =>
  reading_completes (hb.u16be (i := 10) (by omega)) fun _ => Fcd.result_completes _ _

theorem decodeMmv_completes : (decodeMmv f).Completes :=
  reading_completes (hb.u16be (i := 4) (by omega)) fun _ =>
  reading_completes (hb.u8 (i := 6) (by omega)) fun _ =>
  reading_completes (hb.u16be (i := 7) (by omega)) fun _ =>
  reading_completes (hb.u8 (i := 9) (by omega)) fun _ => Fcd.result_completes _ _

theorem decodeMmt_completes : (decodeMmt f).Completes :=
  reading_completes (hb.s8 (i := 4) (by omega)) fun _ =>
  reading_completes (hb.s8 (i := 6) (by omega)) fun _ => Fcd.result_completes _ _

theorem decodeStat_completes : (decodeStat f).Completes :=
  reading_completes (hb.u8 (i := 4) (by omega)) fun _ =>
  reading_completes (hb.u8 (i := 5) (by omega)) fun _ =>
  reading_completes (hb.u8 (i := 6) (by omega)) fun _ =>
  reading_completes (hb.u8 (i := 7) (by omega)) fun _ =>
  reading_completes (hb.u16be (i := 10) (by omega)) fun _ => Fcd.result_completes _ _

theorem decodeMos_completes : (decodeMos f).Completes :=
  reading_completes (hb.u8 (i := 4) (by omega)) fun _ =>
  reading_completes (hb.u8 (i := 5) (by omega)) fun _ =>
  reading_completes (hb.u8 (i := 6) (by omega)) fun _ =>
  reading_completes (hb.u16be (i := 8) (by omega)) fun _ => Fcd.result_completes _ _

/-- A run of bytes of the frame, at an offset that is a parameter. -/
theorem Fcd.Shows.frameBytes {off n : Nat} (hoff : off + n ≤ 13) : ∃ bs, f.bytes? off n = some bs := by
  have hbs := hb.bytes? hoff
  rw [Nat.zero_add] at hbs
  exact ⟨_, hbs⟩

theorem decodeCellv_completes (p : Params) (k : Nat) : (decodeCellv p k f).Completes := by
  obtain ⟨-, -, ⟨-, hoff⟩, -⟩ := p.vendorA
  have hws := hb.words? (i := p.cellvAOff) (m := 3) (by omega)
  rw [Nat.zero_add] at hws
  exact reading_completes hws fun _ => Fcd.result_completes _ _

theorem decodeCellt_completes (p : Params) (k : Nat) : (decodeCellt p k f).Completes := by
  obtain ⟨-, -, -, ⟨-, hoff⟩, -⟩ := p.vendorA
  obtain ⟨bs, hbs⟩ := hb.frameBytes (off := p.celltAOff) (n := 7) (by omega)
  exact reading_completes hbs fun _ => Fcd.result_completes _ _

theorem decodeBal_completes (p : Params) : (decodeBal p f).Completes := by
  obtain ⟨-, -, -, -, ⟨-, hoff⟩, -⟩ := p.vendorA
  obtain ⟨bs, hbs⟩ := hb.frameBytes (off := p.balAOff) (n := 4) (by omega)
  exact reading_completes hbs fun _ => Fcd.result_completes _ _

theorem decodeFail_completes (p : Params) : (decodeFail p f).Completes := by
  obtain ⟨-, -, -, -, -, ⟨-, hoff⟩, -⟩ := p.vendorA
  obtain ⟨bs, hbs⟩ := hb.frameBytes (off := p.almAOff) (n := 7) (by omega)
  exact reading_completes hbs fun _ => Fcd.result_completes _ _

end

section
variable {f : Fcd} {d : Nat → Byte} (hd : f.Shows f.pbase f.plen d)
include hd

theorem decodeHw_completes {l : LayoutB} (hl : l.wellFormed = true) : (decodeHw l f).Completes := by
  have bounds := l.bounds hl
  refine ite_completes (fun _ => Fcd.result_completes _ _) fun _ => reading_completes (hd.p8 (by omega)) fun sensors =>
    ite_completes (fun _ => Fcd.result_completes _ _) fun _ => ?_
  exact
    reading_completes (hd.p16 (by omega)) fun _ =>
    reading_completes (hd.ps16 (by omega)) fun _ =>
    reading_completes (hd.p16 (by omega)) fun _ =>
    reading_completes (hd.p8 (by omega)) fun _ =>
    reading_completes (hd.p16 (by omega)) fun _ =>
    reading_completes (hd.p16 (by omega)) fun _ =>
    reading_completes (hd.p16 (by omega)) fun _ =>
    reading_completes (hd.p8 (by omega)) fun _ =>
    reading_completes (hd.p8 (by omega)) fun _ =>
    reading_completes (hd.pwords? (by omega)) fun _ => Fcd.result_completes _ _

theorem decodeCells_completes : (decodeCells f).Completes :=
  ite_completes (fun _ => Fcd.result_completes _ _) fun _ =>
    reading_completes (hd.pwords? (by omega)) fun _ => Fcd.result_completes _ _

end

/-- Under the invariant no operation needs a byte that was never received (R7, R67). -/
theorem effectOf_completes {f : Fcd} (h : f.Inv) (p : Params) (i : Instr) : (effectOf p i f).Completes := by
  have onFrameA {e : Effect} (he : ∀ b, f.Shows 0 13 b → e.Completes) : (whenValidated .vendorA f e).Completes := by
    refine whenValidated_completes fun hv hk => ?_
    obtain ⟨b, hb⟩ := h.showsFrameA hv hk
    exact he b hb
  have onFrameB {e : Effect} (he : ∀ d, f.Shows f.pbase f.plen d → e.Completes) :
      (whenValidated .vendorB f e).Completes := by
    refine whenValidated_completes fun hv _ => ?_
    obtain ⟨d, hd⟩ := h.window hv
    exact he d hd
  cases i
  case nop | srst | aclr | aadd => exact Effect.completes_done _ _
  case clr => exact Fcd.result_completes _ _
  case push => exact ite_completes (fun _ => Effect.completes_raise _) fun _ => Effect.completes_done _ _
  case rdb idx => exact readByte_completes h idx
  case rdr n => exact readRegister_completes n f
  case chkA => exact checkA_completes h
  case chkB => exact checkB_completes h
  case encA addr cmd => exact encodeA_completes h p addr cmd
  case encB act reg => exact encodeB_completes h p act reg
  case daVis => exact onFrameA fun b hb => decodeVis_completes hb p
  case daMmv => exact onFrameA fun b hb => decodeMmv_completes hb
  case daMmt => exact onFrameA fun b hb => decodeMmt_completes hb
  case daStat => exact onFrameA fun b hb => decodeStat_completes hb
  case daCellv k => exact onFrameA fun b hb => decodeCellv_completes hb p k
  case daCellt k => exact onFrameA fun b hb => decodeCellt_completes hb p k
  case daBal => exact onFrameA fun b hb => decodeBal_completes hb p
  case daFail => exact onFrameA fun b hb => decodeFail_completes hb p
  case daMos => exact onFrameA fun b hb => decodeMos_completes hb
  case dbHw => exact onFrameB fun d hd => decodeHw_completes hd p.vendorA.1
  case dbCell => exact onFrameB fun d hd => decodeCells_completes hd
  case xu8 | xs8 | xbit =>
    exact extractField_completes h _ fun d hd hw => ⟨_, congrArg (Option.map _) (hd.p8 hw)⟩
  case xu16 | xs16 | xbit16 | xk16 =>
    exact extractField_completes h _ fun d hd hw => ⟨_, congrArg (Option.map _) (hd.p16 hw)⟩

/-- Under the invariant every operation, halted or not, answers. -/
theorem exec_answers {s : State} (h : s.Inv) (i : Instr) : ∃ f d, exec i s = .next (s.answer f d) := by
  have completes := effectOf_completes h s.params i
  cases hw : worksHalted i with
  | true =>
    rw [exec_always hw]
    exact completes.settle s
  | false =>
    rw [exec_perform hw]
    cases hf : s.fcd.fault with
    | true => exact ⟨_, _, State.perform_halted hf _⟩
    | false =>
      rw [State.perform_running hf]
      exact completes.settle s

/-- Under the invariant every command word, legal or not, is answered. -/
theorem present_answers {s : State} (h : s.Inv) (w : Word) : ∃ f d, present w s = .next (s.answer f d) := by
  cases hd : decode w with
  | ok i =>
    rw [present_ok hd]
    exact exec_answers h i
  | error e => exact ⟨s.fcd.raise .illegalOp, 0, by rw [present, hd]; rfl⟩

/-! ### What the response reports (R82) -/

/-- The response's data, from the units before and after the operation. -/
def reportedData (i : Instr) (f g : Fcd) : Word :=
  match i with
  | .rdb idx => if f.fault ∨ g.fault then 0 else ((f.byte? idx).getD 0).zeroExtend 32
  | .rdr n => (f.register n.toNat).getD 0
  | .xu8 _ | .xs8 _ | .xu16 _ | .xs16 _ | .xbit _ _ | .xbit16 _ _ | .xk16 _ =>
    if g.fault = false ∧ g.err = .ok then g.xr else 0
  | _ => 0

/-- A refused operation reports no data. -/
theorem reportedData_halted {i : Instr} {f : Fcd} (hf : f.fault = true) (hw : worksHalted i = false) :
    reportedData i f f = 0 := by
  cases i
  case rdr => cases hw
  case rdb => exact if_pos (.inl hf)
  case xu8 | xs8 | xu16 | xs16 | xbit | xbit16 | xk16 => exact if_neg (by simp [hf])
  all_goals rfl

/-- A raised fault reports no data. -/
theorem reportedData_raise {p : Params} {i : Instr} {f : Fcd} {c : Cause} (he : effectOf p i f = .raise c) :
    reportedData i f (f.raise c) = 0 := by
  cases i
  case rdr n =>
    have hnone : f.register n.toNat = none := by
      rw [effectOf, readRegister] at he
      split at he
      · assumption
      · cases he
    rw [reportedData, hnone]
    rfl
  case rdb => exact if_pos (.inr (f.raise_fault c))
  case xu8 | xs8 | xu16 | xs16 | xbit | xbit16 | xk16 => exact if_neg (by simp)
  all_goals rfl

/-- What an extract operation that is done reports: XR with OK, nothing with Truncated. -/
theorem extractField_done_data {off : Byte} {width : Nat} {value : Fcd → Nat → Option Int} {f g : Fcd} {d : Word}
    (h : extractField off width value f = .done g d) (hf : f.fault = false) :
    d = if g.fault = false ∧ g.err = .ok then g.xr else 0 := by
  obtain ⟨-, ⟨rfl, rfl⟩ | rfl⟩ := extractField_done h
  · exact (if_neg (by simp)).symm
  · exact (if_pos ⟨hf, rfl⟩).symm

/-- The data of an operation that is done. -/
theorem effectOf_done_data {p : Params} {i : Instr} {f g : Fcd} {d : Word} (he : effectOf p i f = .done g d)
    (hw : f.fault = true → worksHalted i = true) : d = reportedData i f g := by
  have running (hi : worksHalted i = false) : f.fault = false := by
    rw [← Bool.not_eq_true]
    intro hf
    simp [hw hf] at hi
  cases i
  case nop | srst | aclr | aadd => cases he; rfl
  case clr => exact (clearBuffer_done he).1
  case push => exact (pushByte_done he).1
  case rdb idx =>
    obtain ⟨rfl, b, hb, rfl⟩ := readByte_done he
    simp [reportedData, running rfl, hb]
  case rdr n =>
    obtain ⟨rfl, hr⟩ := readRegister_done he
    simp [reportedData, hr]
  case chkA => exact (checkA_done he).1
  case chkB =>
    obtain ⟨v, -, he'⟩ | he' | ⟨len, -, -, -, -, -, he'⟩ := checkB_stages he
    · cases he'; rfl
    · cases he'
    · exact (checkBCode_done he'.symm).1
  case encA => exact (encodeA_done he).1
  case encB => exact (encodeB_done he).1
  case daVis => exact (decodeVis_done (whenValidated_done he).2.2).1
  case daMmv => exact (decodeMmv_done (whenValidated_done he).2.2).1
  case daMmt => exact (decodeMmt_done (whenValidated_done he).2.2).1
  case daStat => exact (decodeStat_done (whenValidated_done he).2.2).1
  case daCellv => exact (decodeCellv_done (whenValidated_done he).2.2).1
  case daCellt => exact (decodeCellt_done (whenValidated_done he).2.2).1
  case daBal => exact (decodeBal_done (whenValidated_done he).2.2).1
  case daFail => exact (decodeFail_done (whenValidated_done he).2.2).1
  case daMos => exact (decodeMos_done (whenValidated_done he).2.2).1
  case dbHw => exact (decodeHw_done (whenValidated_done he).2.2).1
  case dbCell => exact (decodeCells_done (whenValidated_done he).2.2).1
  all_goals exact extractField_done_data he (running rfl)

/-- An answer of exec is built from a unit and the data R82 lists. -/
theorem exec_answer {i : Instr} {s t : State} (h : exec i s = .next t) :
    t = s.answer t.fcd (reportedData i s.fcd t.fcd) := by
  obtain ⟨hf, hw, rfl⟩ | ⟨hw, g, d, he, rfl⟩ | ⟨-, c, he, rfl⟩ := exec_cases h
  · rw [State.answer_fcd, reportedData_halted hf hw]
  · rw [State.answer_fcd, ← effectOf_done_data he hw]
  · rw [State.raiseFault_fcd, reportedData_raise he]
    rfl

end Machine
end Sys2Proof

open Sys2Proof Sys2Proof.Machine

/-- Settles O8, by the host's next event. -/
theorem everyWordIsAnswered : Obligations.EveryWordIsAnswered := by
  intro s hs
  match hi : s.inbox with
  | [] => exact ⟨s, by rw [step, hi]; rfl, rfl, by simp⟩
  | .resetPin :: rest => exact ⟨{ s with inbox := rest }.pinReset, by rw [step, hi], rfl, by simp⟩
  | .command w :: rest =>
    obtain ⟨f, d, h⟩ := present_answers (s := { s with inbox := rest }) hs w
    refine ⟨_, (step_command hi).trans h, rfl, ?_⟩
    rintro w' rest' ⟨⟩
    exact ⟨rfl, _, rfl⟩

/-- Settles O9, by how the operation ended: refused in a halted unit, done, or with a raised fault. -/
theorem responseReportsStateAfter : Obligations.ResponseReportsStateAfter := by
  intro i s t h
  have ht := exec_answer h
  refine ⟨(congrArg State.params ht :), (congrArg State.inbox ht :), reportedData i s.fcd t.fcd, congrArg State.rsp ht, ?_⟩
  cases i <;> rfl

end

section
/-! The operations on the frame buffer, NOP and SRST (spec/40_buffer_ops.md R101 to R107): what each effect ends with, then the
obligations. -/

namespace Sys2Proof
namespace Machine

/-- No byte at or beyond WP is readable (R7). -/
theorem Fcd.byte?_eq_none {f : Fcd} {a : Nat} (h : f.wp ≤ a) : f.byte? a = none := if_neg (Nat.not_lt.mpr h)

/-! ### PUSH and RDB by the number of bytes received -/

theorem pushByte_full {f : Fcd} (h : f.wp = 262) (byte : Byte) : pushByte byte f = .raise .bufferOverflow := if_pos h

theorem pushByte_room {f : Fcd} (h : f.wp ≠ 262) (byte : Byte) :
    pushByte byte f = .done { f.unchecked with fb := f.fb.write f.wp byte, wp := f.wp + 1 } 0 := if_neg h

theorem readByte_beyond {f : Fcd} {idx : Nat} (h : f.wp ≤ idx) : readByte idx f = .raise .badIndex := if_pos h

theorem readByte_received {f : Fcd} {b : Nat → Byte} (hb : f.Shows 0 f.wp b) {idx : Nat} (h : idx < f.wp) :
    readByte idx f = .done f ((b idx).zeroExtend 32) := by
  have hu8 := hb.u8 h
  rw [Nat.zero_add] at hu8
  rw [readByte, if_neg (Nat.not_le.mpr h), hu8, reading_some, unsigned_byte]

/-! ### What is readable after one byte more (R103) -/

section
variable {f g : Fcd} {byte : Byte} (hb : g.fb = f.fb.write f.wp byte) (hw : g.wp = f.wp + 1)
include hb hw

theorem Fcd.byte?_wp_of_push : g.byte? f.wp = some byte := by
  rw [Fcd.byte?_eq_read (by omega), hb, Memory.read_write_same]

theorem Fcd.byte?_below_of_push {a : Nat} (ha : a < f.wp) : g.byte? a = f.byte? a := by
  rw [Fcd.byte?_eq_read (by omega), Fcd.byte?_eq_read ha, hb, Memory.read_write_other _ (Nat.ne_of_lt ha)]

end

/-! ### What a running unit answers -/

/-- An effect that is done is answered with its unit and data. -/
theorem exec_of_done {i : Instr} {s : State} {f : Fcd} {d : Word} (hs : s.fcd.fault = false)
    (he : effectOf s.params i s.fcd = .done f d) : exec i s = .next (s.answer f d) := by
  rw [exec_running i hs, he, State.settle_done]

/-- An effect that raises is answered with the two fault fields set (R226). -/
theorem exec_of_raise {i : Instr} {s : State} {c : Cause} (hs : s.fcd.fault = false)
    (he : effectOf s.params i s.fcd = .raise c) : exec i s = .next (s.answer (s.fcd.faulted c) 0) := by
  rw [exec_running i hs, he, State.settle_raise, State.raiseFault_running hs]

end Machine
end Sys2Proof

open Sys2Proof Sys2Proof.Machine

/-- Settles O21, by whether the buffer is full: with room, the pushed byte is a write at WP. -/
theorem pushAppendsByte : Obligations.PushAppendsByte := by
  intro s byte hs
  refine ⟨fun full => exec_of_raise hs (pushByte_full full byte), fun room => ?_⟩
  exact ⟨_, exec_of_done hs (pushByte_room (Nat.ne_of_lt room) byte), rfl, Fcd.byte?_wp_of_push rfl rfl,
    fun _ ha => Fcd.byte?_below_of_push rfl rfl ha, fun _ ha => Memory.read_write_other byte ha⟩

/-- Settles O14: SRST leaves the reset unit, whose fields are R42's values. -/
theorem srstResetsEveryElement : Obligations.SrstResetsEveryElement := by
  intro s
  refine ⟨Fcd.reset, exec_always rfl s, ?_⟩
  refine ⟨rfl, rfl, rfl, rfl, rfl, rfl, rfl, rfl, rfl, rfl, rfl, rfl, rfl, rfl, ?alm, ?cv, ?t, ?unreadable⟩
  case unreadable => exact fun a => Fcd.byte?_eq_none (Nat.zero_le a)
  all_goals exact fun i => Vector.getElem_replicate i.isLt

/-- Settles O19. -/
theorem nopChangesNothing : Obligations.NopChangesNothing := fun s =>
  (exec_always rfl s).trans (congrArg _ (s.answer_self 0))

/-- Settles O20: with WP = 0 no byte is readable, whatever the buffer holds. -/
theorem clrEmptiesBuffer : Obligations.ClrEmptiesBuffer := by
  intro s hs
  exact ⟨_, exec_of_done hs rfl, rfl, fun a => Fcd.byte?_eq_none (Nat.zero_le a)⟩

/-- Settles O22, by whether the index lies below WP. -/
theorem rdbReadsReceivedByte : Obligations.RdbReadsReceivedByte := by
  rintro s b idx ⟨hs, hb⟩
  split
  · next h => exact exec_of_done hs (readByte_received hb h)
  · next h => exact exec_of_raise hs (readByte_beyond (Nat.not_lt.mp h))

end

section
/-! The checksum accumulator (spec/41_checksum_acc.md R121 to R125): ACLR and AADD in a row, who writes the sums, and the verdicts
of CHK.A and CHK.B as conditions on the sums. -/

namespace Sys2Proof
namespace Machine

/-! ### ACLR and AADD -/

/-- AADD as the addition of its zero-extended byte to each half (R122). -/
theorem Fcd.feed_eq_add (f : Fcd) (c : Byte) :
    f.feed c = { f with sum8 := f.sum8 + c, sum16 := f.sum16 + c.zeroExtend 16 } := by
  have h16 : BitVec.ofNat 16 (f.sum16.toNat + c.toNat) = f.sum16 + c.zeroExtend 16 := by
    apply BitVec.eq_of_toNat_eq
    simp
  rw [← h16]
  rfl

/-- ACLR and then AADD of bytes is the summing stage over them: in a running unit every word is carried out. -/
theorem runAll_pseudoAcc {s : State} (h : s.fcd.fault = false) (bytes : List Byte) :
    runAll (pseudoAcc bytes) s = some (s.answer (s.fcd.sumOver bytes) 0) := by
  have haclr : exec .aclr s = .next (s.answer s.fcd.clearSums 0) := exec_of_done h rfl
  rw [pseudoAcc, runAll, haclr, Fcd.sumOver_eq_feed]
  refine (runAll_aadd (s := s.answer s.fcd.clearSums 0) bytes h).trans ?_
  cases bytes <;> rfl

/-- The order of the bytes does not show in their sum. -/
theorem total_perm {bs cs : List Byte} (h : List.Perm bs cs) : total bs = total cs := by
  rw [total_eq_sum, total_eq_sum]
  exact (h.map BitVec.toNat).sum_eq

theorem Fcd.sumOver_eq_withSum (f : Fcd) (bs : List Byte) : f.sumOver bs = f.withSum (total bs) := rfl

/-- The check code of a unit holding the sum of some bytes (R10, R34). -/
theorem Fcd.ncrc_sumOver (f : Fcd) (bs : List Byte) :
    (f.sumOver bs).ncrc = BitVec.ofNat 16 (65536 - total bs % 65536) := by
  rw [Fcd.ncrc, neg16, Fcd.sumOver_sum16, byteSum16, BitVec.toNat_ofNat]

/-- An 8-bit sum against a checksum byte, as numbers (R9). -/
theorem byteSum8_eq_iff (bs : List Byte) (c : Byte) : byteSum8 bs = c ↔ total bs % 256 = c.toNat := by
  rw [← BitVec.toNat_inj, byteSum8, BitVec.toNat_ofNat]

/-! ### Who writes the sums -/

/-- A raised fault leaves the accumulator (R226). -/
theorem Fcd.raise_sums (f : Fcd) (c : Cause) : (f.raise c).sum8 = f.sum8 ∧ (f.raise c).sum16 = f.sum16 := by
  rw [Fcd.raise_eq]
  exact ⟨rfl, rfl⟩

/-- The verdicts a check can give before its summing stage (R124). -/
def Err.beforeSumming (e : Err) : Prop := e = .lengthMismatch ∨ e = .badStart ∨ e = .badEnd

/-- CHK.A that ends before summing leaves the accumulator (R124). -/
theorem checkA_done_sums {f g : Fcd} {d : Word} (h : checkA f = .done g d) (early : g.err.beforeSumming) :
    g.sum8 = f.sum8 ∧ g.sum16 = f.sum16 := by
  obtain ⟨-, ⟨-, rfl⟩ | ⟨body, -, -, -, -, ⟨-, rfl⟩ | ⟨-, rfl⟩⟩⟩ := checkA_done h
  · exact ⟨rfl, rfl⟩
  · simp [Err.beforeSumming] at early
  · simp [Err.beforeSumming] at early

/-- CHK.B likewise. -/
theorem checkB_done_sums {f g : Fcd} {d : Word} (h : checkB f = .done g d) (early : g.err.beforeSumming) :
    g.sum8 = f.sum8 ∧ g.sum16 = f.sum16 := by
  obtain ⟨v, -, hv⟩ | hv | ⟨len, -, -, -, -, -, hcode⟩ := checkB_stages h
  · cases hv
    exact ⟨rfl, rfl⟩
  · cases hv
  · obtain ⟨-, reg, body, code, -, -, -, ⟨-, rfl⟩ | ⟨-, rfl⟩⟩ := checkBCode_done hcode.symm
    · simp [Err.beforeSumming] at early
    · simp [Err.beforeSumming] at early

/-! ### The summing stage of the checks on bytes that are there -/

section
variable {f : Fcd} {b : Nat → Byte} (hb : f.Shows 0 f.wp b)
include hb

/-- CHK.A on 13 bytes: the verdict compares the sum of bytes 0 to 11 with byte 12 (R131). -/
theorem checkA_verdict (hw : f.wp = 13) :
    checkA f = .done
      (if sumOf b 0 12 % 256 ≠ (b 12).toNat then
        { f.unchecked.withSum (sumOf b 0 12) with err := .checksumMismatch }
      else
        { f.withSum (sumOf b 0 12) with valid := true, vk := some .vendorA, pbase := 0, plen := 12, err := .ok }) 0 := by
  have hbody := hb.bytes? (i := 0) (m := 12) (by omega)
  rw [checkA_sum hw hbody (hb.byte? (i := 12) (by omega))]
  simp only [ne_eq, byteSum8_eq_iff, Fcd.sumOver_eq_withSum, total_map_range]
  exact (apply_ite (Effect.done · 0) _ _ _).symm

/-- CHK.B once start, end and length byte are accepted: the verdict compares the negated sum of the bytes from the register byte
to the last data byte with the check code (R133). -/
theorem checkB_verdict (hw : 7 ≤ f.wp) (hstart : b 0 = 0xDD) (hend : b (f.wp - 1) = 0x77)
    (hlen : (b 3).toNat = f.wp - 7) :
    checkB f = .done
      (if (65536 - sumOf b 2 (2 + (b 3).toNat) % 65536) % 65536 ≠ be16 b (4 + (b 3).toNat) then
        { f.unchecked.withSum (sumOf b 2 (2 + (b 3).toNat)) with err := .crcMismatch }
      else
        { f.withSum (sumOf b 2 (2 + (b 3).toNat)) with
          valid := true, vk := some .vendorB, pbase := 4, plen := (b 3).toNat, freg := b 2, err := .ok }) 0 := by
  have byte {i : Nat} (hi : i < f.wp) : f.byte? i = some (b i) := by simpa using hb.byte? hi
  have hu : f.unchecked.Shows 0 f.wp b := hb
  have hbody := hu.bytes? (i := 2) (m := (b 3).toNat + 2) (by omega)
  have hcode := hu.u16be (i := 4 + (b 3).toNat) (by omega)
  rw [Nat.zero_add] at hbody hcode
  rw [checkB_long hw (byte (by omega)) (byte (by omega)) (byte (by omega)), if_neg (not_not.mpr hstart),
    if_neg (not_not.mpr hend), if_neg (not_not.mpr hlen), checkBCode_eq (f := f.unchecked) (byte (by omega)) hbody hcode,
    byteSum16, neg16_toNat, Fcd.sumOver_eq_withSum, total_map_range, Nat.add_comm (b 3).toNat 2]
  exact (apply_ite (Effect.done · 0) _ _ _).symm

end

/-- A verdict is OK exactly if its comparison finds no difference. -/
theorem verdict_ok_iff {p : Prop} [Decidable p] {bad good : Fcd} (hbad : bad.err ≠ .ok) (hgood : good.err = .ok) :
    (if ¬p then bad else good).err = .ok ↔ p := by
  by_cases hp : p
  · simp [hp, hgood]
  · simp [hp, hbad]

end Machine
end Sys2Proof

open Sys2Proof Sys2Proof.Machine

/-- Settles O26: the truncated sums AADD writes are bit-vector additions. -/
theorem aclrAaddDriveAccumulator : Obligations.AclrAaddDriveAccumulator := by
  intro s c hs
  refine ⟨exec_of_done hs rfl, ?_⟩
  rw [← Fcd.feed_eq_add]
  exact exec_of_done hs rfl

/-- Settles O27: ACLR and AADD of bytes is the summing stage over them, and their sum does not depend on their order. -/
theorem accumulatorSumsBytes : Obligations.AccumulatorSumsBytes := by
  intro s bytes hs
  refine ⟨s.answer (s.fcd.sumOver bytes) 0, runAll_pseudoAcc hs bytes, ?_, ?_, add_neg16 _, fun other perm => ?_⟩
  · rw [← total_eq_sum]
    rfl
  · rw [← total_eq_sum]
    exact s.fcd.ncrc_sumOver bytes
  · rw [runAll_pseudoAcc hs, Fcd.sumOver_eq_withSum, total_perm perm]
    rfl

/-- Settles O28, by how the operation ended: refused in a halted unit, done, or with a raised fault. -/
theorem accumulatorWriters : Obligations.AccumulatorWriters := by
  intro i s t h
  obtain ⟨-, -, rfl⟩ | ⟨-, g, d, he, rfl⟩ | ⟨-, c, -, rfl⟩ := exec_cases h
  · exact ⟨fun _ => ⟨rfl, rfl⟩, fun _ _ => ⟨rfl, rfl⟩⟩
  · refine ⟨(effectOf_done_frame he).sums, ?_⟩
    rintro (rfl | rfl) early
    · exact checkA_done_sums he early
    · exact checkB_done_sums he early
  · exact ⟨fun _ => s.fcd.raise_sums c, fun _ _ => s.fcd.raise_sums c⟩

/-- Settles O29: both sides are conditions on the same sum. -/
theorem handSumAgreesWithCheck : Obligations.HandSumAgreesWithCheck := by
  rintro s b ⟨hs, hb⟩
  refine ⟨fun hw => ⟨_, _, runAll_pseudoAcc hs _, exec_of_done hs (checkA_verdict hb hw), ?_⟩,
    fun hw hstart hend hlen => ⟨_, _, runAll_pseudoAcc hs _, exec_of_done hs (checkB_verdict hb hw hstart hend hlen), ?_⟩⟩
  · refine (verdict_ok_iff (by simp) rfl).trans ?_
    rw [State.answer_fcd, Fcd.sumOver_sum8, byteSum8_eq_iff, total_map_range_zero]
  · refine (verdict_ok_iff (by simp) rfl).trans ?_
    rw [State.answer_fcd, Fcd.ncrc_sumOver, BitVec.toNat_ofNat, total_map_range]

end

section
/-! CHK.A and CHK.B (spec/42_frame_codec.md R131 to R135): the verdicts on the bytes of the buffer, and that a frame which passes
does not pass, or not as before, with one byte changed. -/

namespace Sys2Proof
namespace Machine

/-! ### The verdicts as functions of the buffer's length and bytes -/

/-- What CHK.A answers on `n` bytes (R131). -/
def verdictA (n : Nat) (b : Nat → Byte) : Err :=
  if n ≠ 13 then .lengthMismatch
  else if sumOf b 0 12 % 256 ≠ (b 12).toNat then .checksumMismatch
  else .ok

/-- What CHK.B answers on `n` bytes, its tests in the order of R134 (R133). -/
def verdictB (n : Nat) (b : Nat → Byte) : Err :=
  if n < 7 then .lengthMismatch
  else if b 0 ≠ 0xDD then .badStart
  else if b (n - 1) ≠ 0x77 then .badEnd
  else if (b 3).toNat ≠ n - 7 then .lengthMismatch
  else if (65536 - sumOf b 2 (2 + (b 3).toNat) % 65536) % 65536 ≠ be16 b (4 + (b 3).toNat) then .crcMismatch
  else .ok

section
variable {f : Fcd} {b : Nat → Byte} (hb : f.Shows 0 f.wp b)
include hb

/-- CHK.A on a buffer of any length (R131). -/
theorem checkA_eq :
    checkA f = .done
      (if f.wp ≠ 13 then { f.unchecked with err := .lengthMismatch }
       else if sumOf b 0 12 % 256 ≠ (b 12).toNat then
         { f.unchecked.withSum (sumOf b 0 12) with err := .checksumMismatch }
       else
         { f.withSum (sumOf b 0 12) with valid := true, vk := some .vendorA, pbase := 0, plen := 12, err := .ok }) 0 := by
  by_cases hw : f.wp = 13
  · rw [checkA_verdict hb hw, if_neg (not_not.mpr hw)]
  · rw [checkA_length hw, if_pos hw, Fcd.result_eq]

/-- CHK.B on at least 7 bytes: the tests before the summing stage, in the order of R134. -/
theorem checkB_order (hw : 7 ≤ f.wp) :
    checkB f =
      if b 0 ≠ 0xDD then f.unchecked.result .badStart
      else if b (f.wp - 1) ≠ 0x77 then f.unchecked.result .badEnd
      else if (b 3).toNat ≠ f.wp - 7 then f.unchecked.result .lengthMismatch
      else checkBCode f.unchecked (b 3).toNat := by
  have byte {i : Nat} (hi : i < f.wp) : f.byte? i = some (b i) := by simpa using hb.byte? hi
  exact checkB_long hw (byte (by omega)) (byte (by omega)) (byte (by omega))

/-- CHK.B on a buffer of any length and any bytes (R133, R134). -/
theorem checkB_eq :
    checkB f = .done
      (if f.wp < 7 then { f.unchecked with err := .lengthMismatch }
       else if b 0 ≠ 0xDD then { f.unchecked with err := .badStart }
       else if b (f.wp - 1) ≠ 0x77 then { f.unchecked with err := .badEnd }
       else if (b 3).toNat ≠ f.wp - 7 then { f.unchecked with err := .lengthMismatch }
       else if (65536 - sumOf b 2 (2 + (b 3).toNat) % 65536) % 65536 ≠ be16 b (4 + (b 3).toNat) then
         { f.unchecked.withSum (sumOf b 2 (2 + (b 3).toNat)) with err := .crcMismatch }
       else
         { f.withSum (sumOf b 2 (2 + (b 3).toNat)) with
           valid := true, vk := some .vendorB, pbase := 4, plen := (b 3).toNat, freg := b 2, err := .ok }) 0 := by
  by_cases hw : f.wp < 7
  · rw [checkB_short hw, if_pos hw, Fcd.result_eq]
  rw [if_neg hw]
  have order := checkB_order hb (Nat.not_lt.mp hw)
  by_cases hstart : b 0 = 0xDD
  swap
  · rw [order, if_pos hstart, if_pos hstart, Fcd.result_eq]
  rw [if_neg (not_not.mpr hstart)]
  by_cases hend : b (f.wp - 1) = 0x77
  swap
  · rw [order, if_neg (not_not.mpr hstart), if_pos hend, if_pos hend, Fcd.result_eq]
  rw [if_neg (not_not.mpr hend)]
  by_cases hlen : (b 3).toNat = f.wp - 7
  swap
  · rw [order, if_neg (not_not.mpr hstart), if_neg (not_not.mpr hend), if_pos hlen, if_pos hlen, Fcd.result_eq]
  rw [if_neg (not_not.mpr hlen)]
  exact checkB_verdict hb (Nat.not_lt.mp hw) hstart hend hlen

end

section
variable {s : State} {b : Nat → Byte} (h : s.Loaded b)
include h

/-- A running unit answers CHK.A with its verdict, and VALID says whether that is OK. -/
theorem exec_chkA_verdict :
    ∃ u, exec .chkA s = .next u ∧ u.fcd.err = verdictA s.fcd.wp b ∧ (u.fcd.valid = true ↔ u.fcd.err = .ok) := by
  obtain ⟨hs, hb⟩ := h
  refine ⟨_, exec_of_done hs (checkA_eq hb), ?_⟩
  simp only [State.answer_fcd, verdictA]
  split
  · simp
  · split
    · simp
    · simp

/-- A running unit answers CHK.B with its verdict. -/
theorem exec_chkB_verdict : ∃ u, exec .chkB s = .next u ∧ u.fcd.err = verdictB s.fcd.wp b := by
  obtain ⟨hs, hb⟩ := h
  refine ⟨_, exec_of_done hs (checkB_eq hb), ?_⟩
  simp only [State.answer_fcd, apply_ite Fcd.err, verdictB]

end

/-! ### When a frame passes -/

theorem verdictA_ok_iff (b : Nat → Byte) : verdictA 13 b = .ok ↔ sumOf b 0 12 % 256 = (b 12).toNat := by
  simp [verdictA]

/-- `n` bytes that pass all of CHK.B's tests; the length byte is `n − 7` (R133). -/
structure PassesB (n : Nat) (b : Nat → Byte) : Prop where
  long : 7 ≤ n
  start : b 0 = 0xDD
  last : b (n - 1) = 0x77
  len : (b 3).toNat = n - 7
  code : (65536 - sumOf b 2 (2 + (n - 7)) % 65536) % 65536 = be16 b (4 + (n - 7))

theorem verdictB_ok_iff (n : Nat) (b : Nat → Byte) : verdictB n b = .ok ↔ PassesB n b := by
  constructor
  · intro h
    obtain ⟨long, start, last, len, code⟩ : _ ∧ _ ∧ _ ∧ _ ∧ _ := by simpa [verdictB, ite_eq_iff] using h
    exact ⟨long, start, last, len, len ▸ code⟩
  · rintro ⟨long, start, last, len, code⟩
    simp [verdictB, Nat.not_lt.mpr long, start, last, len, code]

/-! ### One byte changed -/

section
variable {b b' : Nat → Byte} {i : Nat} (hne : b' i ≠ b i)
include hne

theorem toNat_ne_of_changed : (b' i).toNat ≠ (b i).toNat := fun h => hne (BitVec.eq_of_toNat_eq h)

/-- The checksum of a vendor-A frame no longer agrees: it covers each of the other 12 bytes once, and bytes differ by less than
256 (R132). -/
theorem checksum_catches_change (hi : i < 13) (same : ∀ j < 13, j ≠ i → b' j = b j)
    (hok : sumOf b 0 12 % 256 = (b 12).toNat) : sumOf b' 0 12 % 256 ≠ (b' 12).toNat := by
  have hdiff := toNat_ne_of_changed hne
  by_cases h12 : i = 12
  · subst h12
    have hsum : sumOf b' 0 12 = sumOf b 0 12 := sumOf_congr fun j hj => same _ (by omega) (by omega)
    rw [hsum, hok]
    exact hdiff.symm
  · have hsum := sumOf_change (b := b) (b' := b') (lo := 0) (n := 12) (i := i) (by omega)
      fun j hj hji => same _ (by omega) (by omega)
    rw [Nat.zero_add] at hsum
    have hcheck : b' 12 = b 12 := same 12 (by omega) (Ne.symm h12)
    rw [hcheck, ← hok]
    have := (b i).isLt
    have := (b' i).isLt
    omega

/-- The check code of a vendor-B frame no longer agrees: sum and code change by less than 65536 together, and not by 0 (R135). -/
theorem checkCode_catches_change {len : Nat} (hlo : 2 ≤ i) (hi : i < 6 + len)
    (same : ∀ j, 2 ≤ j → j < 6 + len → j ≠ i → b' j = b j)
    (hok : (65536 - sumOf b 2 (2 + len) % 65536) % 65536 = be16 b (4 + len)) :
    (65536 - sumOf b' 2 (2 + len) % 65536) % 65536 ≠ be16 b' (4 + len) := by
  have hdiff := toNat_ne_of_changed hne
  have := (b i).isLt
  have := (b' i).isLt
  by_cases hsummed : i < 4 + len
  · have hsum := sumOf_change (b := b) (b' := b') (lo := 2) (n := 2 + len) (i := i - 2) (by omega)
      fun j hj hji => same _ (by omega) (by omega) (by omega)
    rw [show 2 + (i - 2) = i by omega] at hsum
    have hcode : be16 b' (4 + len) = be16 b (4 + len) := by
      rw [be16, be16, same (4 + len) (by omega) (by omega) (by omega),
        same (4 + len + 1) (by omega) (by omega) (by omega)]
    rw [hcode, ← hok]
    omega
  · have hsum : sumOf b' 2 (2 + len) = sumOf b 2 (2 + len) :=
      sumOf_congr fun j hj => same _ (by omega) (by omega) (by omega)
    rw [hsum, hok, be16, be16]
    obtain rfl | rfl : i = 4 + len ∨ i = 4 + len + 1 := by omega
    · rw [same (4 + len + 1) (by omega) (by omega) (by omega)]
      omega
    · rw [same (4 + len) (by omega) (by omega) (by omega)]
      omega

end

/-- What CHK.B answers on a frame that passed, with byte `i` changed (R135). -/
def verdictBChanged (n i : Nat) : Err :=
  if i = 0 then .badStart else if i = 1 then .ok else if i = 3 then .lengthMismatch
  else if i + 1 = n then .badEnd else .crcMismatch

/-- One changed byte, by its position in the frame (R135). -/
theorem verdictB_change {n i : Nat} {b b' : Nat → Byte} (pass : PassesB n b) (hi : i < n) (hne : b' i ≠ b i)
    (same : ∀ j < n, j ≠ i → b' j = b j) : verdictB n b' = verdictBChanged n i := by
  obtain ⟨long, start, last, len, code⟩ := pass
  have hlong : ¬ n < 7 := Nat.not_lt.mpr long
  by_cases h0 : i = 0
  · subst h0
    have start' : b' 0 ≠ 0xDD := start ▸ hne
    rw [verdictB, if_neg hlong, if_pos start', verdictBChanged, if_pos rfl]
  have start' : b' 0 = 0xDD := (same 0 (by omega) (Ne.symm h0)).trans start
  by_cases hn : i + 1 = n
  · have last' : b' (n - 1) ≠ 0x77 := by
      rw [← last, show n - 1 = i by omega]
      exact hne
    rw [verdictB, if_neg hlong, if_neg (not_not.mpr start'), if_pos last', verdictBChanged, if_neg h0, if_neg (by omega),
      if_neg (by omega), if_pos hn]
  have last' : b' (n - 1) = 0x77 := (same (n - 1) (by omega) (by omega)).trans last
  by_cases h3 : i = 3
  · subst h3
    have len' : (b' 3).toNat ≠ n - 7 := len ▸ toNat_ne_of_changed hne
    rw [verdictB, if_neg hlong, if_neg (not_not.mpr start'), if_neg (not_not.mpr last'), if_pos len']
    rfl
  have len' : (b' 3).toNat = n - 7 := by rw [same 3 (by omega) (Ne.symm h3), len]
  by_cases h1 : i = 1
  · subst h1
    have hsum : sumOf b' 2 (2 + (n - 7)) = sumOf b 2 (2 + (n - 7)) :=
      sumOf_congr fun j hj => same _ (by omega) (by omega)
    have hcode : be16 b' (4 + (n - 7)) = be16 b (4 + (n - 7)) := by
      rw [be16, be16, same _ (by omega) (by omega), same _ (by omega) (by omega)]
    exact (verdictB_ok_iff n b').mpr ⟨long, start', last', len', by rw [hsum, hcode, code]⟩
  · have code' := checkCode_catches_change hne (len := n - 7) (by omega) (by omega)
      (fun j _ hj hji => same j (by omega) hji) code
    rw [verdictB, if_neg hlong, if_neg (not_not.mpr start'), if_neg (not_not.mpr last'), if_neg (not_not.mpr len'), len',
      if_pos code', verdictBChanged, if_neg h0, if_neg h1, if_neg h3, if_neg hn]

end Machine
end Sys2Proof

open Sys2Proof Sys2Proof.Machine

/-- Settles O30. -/
theorem chkAVerdicts : Obligations.ChkAVerdicts := fun _ _ ⟨hs, hb⟩ => exec_of_done hs (checkA_eq hb)

/-- Settles O31. -/
theorem chkBVerdicts : Obligations.ChkBVerdicts := fun _ _ ⟨hs, hb⟩ => exec_of_done hs (checkB_eq hb)

/-- Settles O32: the sum of the changed frame and its checksum byte differ by less than 256, and not by 0. -/
theorem chkACatchesOneByte : Obligations.ChkACatchesOneByte := by
  intro s s' u b b' i h h' hw hw' hu hok hi hne same
  obtain ⟨v, hv, hverdict, -⟩ := exec_chkA_verdict h
  obtain rfl : v = u := by simpa [hv] using hu
  rw [hok, hw, eq_comm, verdictA_ok_iff] at hverdict
  obtain ⟨u', hu', hverdict', hvalid⟩ := exec_chkA_verdict h'
  rw [hw', verdictA, if_neg (by simp), if_pos (checksum_catches_change hne hi same hverdict)] at hverdict'
  exact ⟨u', hu', hverdict', by simpa [hverdict'] using hvalid⟩

/-- Settles O33, by the position of the changed byte. -/
theorem chkBCatchesOneByte : Obligations.ChkBCatchesOneByte := by
  intro s s' u b b' i h h' _ hw' hu hok hi hne same
  obtain ⟨v, hv, hverdict⟩ := exec_chkB_verdict h
  obtain rfl : v = u := by simpa [hv] using hu
  rw [hok, eq_comm, verdictB_ok_iff] at hverdict
  obtain ⟨u', hu', hverdict'⟩ := exec_chkB_verdict h'
  exact ⟨u', hu', by rw [hverdict', hw', verdictB_change hverdict hi hne same, verdictBChanged]⟩

end

section
/-! ENC.A and ENC.B (spec/42_frame_codec.md R136 to R139): the frames they build, and that CHK.A and CHK.B accept them. -/

namespace Sys2Proof
namespace Machine

/-! ### A buffer that holds a list of bytes -/

/-- The bytes received, in their order, are `bytes`. -/
structure Fcd.Holds (f : Fcd) (bytes : List Byte) : Prop where
  wp_eq : f.wp = bytes.length
  byte?_eq : ∀ i, f.byte? i = bytes[i]?

theorem Fcd.Holds.congr {f g : Fcd} {bytes : List Byte} (h : f.Holds bytes) (hb : g.fb = f.fb) (hw : g.wp = f.wp) :
    g.Holds bytes := ⟨hw.trans h.wp_eq, fun i => (Fcd.byte?_congr hb hw i).trans (h.byte?_eq i)⟩

/-- A run of bytes of a held list. -/
theorem Fcd.Holds.bytes? {f : Fcd} {bytes : List Byte} (h : f.Holds bytes) {i n : Nat} (hin : i + n ≤ bytes.length) :
    f.bytes? i n = some ((bytes.drop i).take n) := by
  induction n generalizing i with
  | zero => simp [Fcd.bytes?]
  | succ n ih =>
    have hi : i < bytes.length := by omega
    rw [Fcd.bytes?, h.byte?_eq, List.getElem?_eq_getElem hi, ih (by omega), List.drop_eq_getElem_cons hi,
      List.take_succ_cons]

/-- The unit after ENC.A or ENC.B: `frame` in the buffer, the sums of `summed`, VALID = 0 and ERR = OK (R136, R138). -/
def Fcd.built (f : Fcd) (frame summed : List Byte) : Fcd := { (f.loadFrame frame).sumOver summed with err := .ok }

theorem Fcd.built_holds (f : Fcd) (frame summed : List Byte) : (f.built frame summed).Holds frame :=
  ⟨rfl, f.byte?_loadFrame frame⟩

theorem Fcd.byte?_built (f : Fcd) (frame summed : List Byte) (i : Nat) : (f.built frame summed).byte? i = frame[i]? :=
  f.byte?_loadFrame frame i

theorem Fcd.read_built_beyond (f : Fcd) {frame : List Byte} (summed : List Byte) {i : Nat} (h : frame.length ≤ i) :
    (f.built frame summed).fb.read i = f.fb.read i := f.read_loadFrame_beyond frame h

/-- What a build writes besides the buffer's bytes. -/
theorem Fcd.built_eq (f : Fcd) (frame summed : List Byte) :
    f.built frame summed =
      { f.unchecked.withSum (total summed) with fb := (f.built frame summed).fb, wp := frame.length, err := .ok } := rfl

/-! ### The frame of ENC.A -/

/-- The 13 bytes ENC.A builds (R136). -/
def frameA (p : Params) (addr cmd : Byte) (payload : List Byte) : List Byte :=
  frameBodyA p addr cmd payload ++ [byteSum8 (frameBodyA p addr cmd payload)]

@[simp] theorem frameA_length (p : Params) (addr cmd : Byte) (payload : List Byte) :
    (frameA p addr cmd payload).length = 13 := by simp [frameA]

/-- A running unit with at most 8 bytes answers ENC.A with the frame built around them (R136). -/
theorem exec_encA_builds {s : State} {b : Nat → Byte} (h : s.Loaded b) (addr cmd : Byte) (hn : s.fcd.wp ≤ 8) :
    exec (.encA addr cmd) s = .next (s.answer
      (s.fcd.built (frameA s.params addr cmd ((List.range s.fcd.wp).map b))
        (frameBodyA s.params addr cmd ((List.range s.fcd.wp).map b))) 0) :=
  exec_of_done h.1 (encodeA_fits s.params addr cmd hn h.2.all)

/-- The sum ENC.A stores: the header and the payload bytes that fit (R136). -/
theorem total_frameBodyA (p : Params) (addr cmd : Byte) (b : Nat → Byte) (n : Nat) :
    total (frameBodyA p addr cmd ((List.range n).map b)) =
      0xA5 + addr.toNat + cmd.toNat + sumOf b 0 (min n (12 - p.aPayloadOff)) := by
  obtain ⟨-, ⟨hlo, hhi⟩, -⟩ := p.vendorA
  have hdata := total_dataBytesA b n hlo (by omega)
  have hstart : Config.aStart.toNat = 0xA5 := rfl
  have hzero : (0 : Byte).toNat = 0 := rfl
  simp only [frameBodyA, total_append, total_cons, total_nil, hdata, hstart, hzero]
  omega

/-- A data byte of the frame ENC.A builds: a payload byte where one is stored, 0 elsewhere (R136). -/
theorem dataBytesA_getElem? (b : Nat → Byte) (n off : Nat) {j : Nat} (hj : j < 8) :
    (dataBytesA off ((List.range n).map b))[j]? =
      some (if off ≤ 4 + j ∧ 4 + j - off < n then b (4 + j - off) else 0) := by
  rw [dataBytesA, List.getElem?_map, List.getElem?_range hj, Option.map_some]
  by_cases hoff : off ≤ 4 + j
  · by_cases hn : 4 + j - off < n
    · simp [hoff, hn]
    · simp [hoff, hn]
  · simp [hoff]

theorem frameA_data (p : Params) (addr cmd : Byte) (payload : List Byte) {j : Nat} (hj : j < 8) :
    (frameA p addr cmd payload)[4 + j]? = (dataBytesA p.aPayloadOff payload)[j]? := by
  rw [frameA, List.getElem?_append_left (by simp; omega), frameBodyA, List.getElem?_append_right (by simp)]
  simp

theorem frameA_checksum (p : Params) (addr cmd : Byte) (payload : List Byte) :
    (frameA p addr cmd payload)[12]? = some (byteSum8 (frameBodyA p addr cmd payload)) := by
  rw [frameA, List.getElem?_append_right (by simp)]
  simp

/-- The bytes the checksum covers. -/
theorem Fcd.Holds.frameA_body {f : Fcd} {p : Params} {addr cmd : Byte} {payload : List Byte}
    (h : f.Holds (frameA p addr cmd payload)) : f.bytes? 0 12 = some (frameBodyA p addr cmd payload) := by
  rw [h.bytes? (by simp), List.drop_zero, frameA, List.take_left' (frameBodyA_length ..)]

/-- CHK.A accepts the frame ENC.A builds (R139). -/
theorem checkA_of_holds_frameA {f : Fcd} {p : Params} {addr cmd : Byte} {payload : List Byte}
    (h : f.Holds (frameA p addr cmd payload)) :
    ∃ g, checkA f = .done g 0 ∧ g.err = .ok ∧ g.valid = true ∧ g.Holds (frameA p addr cmd payload) := by
  have hw : f.wp = 13 := by rw [h.wp_eq, frameA_length]
  have hcheck := (h.byte?_eq 12).trans (frameA_checksum p addr cmd payload)
  have hdone := checkA_sum hw h.frameA_body hcheck
  rw [if_neg (not_not.mpr rfl), Fcd.result_eq] at hdone
  exact ⟨_, hdone, rfl, rfl, h.congr rfl rfl⟩

/-! ### The frame of ENC.B -/

/-- A running unit with at most 255 bytes answers ENC.B with the frame built around them (R138). -/
theorem exec_encB_builds {s : State} {b : Nat → Byte} (h : s.Loaded b) (act : WireAction) (reg : Byte)
    (hn : s.fcd.wp ≤ 255) :
    exec (.encB act reg) s = .next (s.answer
      (s.fcd.built (frameB s.params act reg ((List.range s.fcd.wp).map b))
        (checkedBytesB reg ((List.range s.fcd.wp).map b))) 0) :=
  exec_of_done h.1 (encodeB_fits s.params act reg hn h.2.all)

/-- The sum ENC.B negates: register, length and payload (R138). -/
theorem total_checkedBytesB (reg : Byte) {payload : List Byte} (h : payload.length ≤ 255) :
    total (checkedBytesB reg payload) = reg.toNat + payload.length + total payload := by
  simp only [checkedBytesB, total_cons, BitVec.toNat_ofNat]
  omega

/-- The frame as its header, its payload and its last three bytes. -/
theorem frameB_eq (p : Params) (act : WireAction) (reg : Byte) (payload : List Byte) :
    frameB p act reg payload =
      [0xDD, actionByte p act, reg, BitVec.ofNat 8 payload.length] ++ payload ++
        (codeBytes (neg16 (byteSum16 (checkedBytesB reg payload))) ++ [0x77]) := by
  simp [frameB, checkedBytesB, Config.bStart, Config.bEnd]

theorem frameB_lengthByte (p : Params) (act : WireAction) (reg : Byte) (payload : List Byte) :
    (frameB p act reg payload)[3]? = some (BitVec.ofNat 8 payload.length) := rfl

theorem frameB_payload (p : Params) (act : WireAction) (reg : Byte) {payload : List Byte} {j : Nat}
    (hj : j < payload.length) : (frameB p act reg payload)[4 + j]? = payload[j]? := by
  rw [frameB_eq, List.getElem?_append_left (by simp; omega), List.getElem?_append_right (by simp)]
  simp

/-- The bytes after the payload. -/
theorem frameB_trailer (p : Params) (act : WireAction) (reg : Byte) (payload : List Byte) (j : Nat) :
    (frameB p act reg payload)[4 + payload.length + j]? =
      (codeBytes (neg16 (byteSum16 (checkedBytesB reg payload))) ++ [0x77])[j]? := by
  rw [frameB_eq, List.getElem?_append_right (by simp; omega)]
  congr 1
  simp only [List.length_append, List.length_cons, List.length_nil]
  omega

/-- The bytes the check code covers are those from the register byte to the last payload byte (R64). -/
theorem frameB_checked (p : Params) (act : WireAction) (reg : Byte) (payload : List Byte) :
    ((frameB p act reg payload).drop 2).take (payload.length + 2) = checkedBytesB reg payload := by
  simp [frameB_eq, checkedBytesB]

/-- The two check-code bytes give the code back (R72). -/
theorem codeBytes_toNat (k : Half) :
    (BitVec.ofNat 8 (k.toNat / 256)).toNat * 256 + (BitVec.ofNat 8 (k.toNat % 256)).toNat = k.toNat := by
  have := k.isLt
  simp only [BitVec.toNat_ofNat]
  omega

/-- CHK.B accepts the frame ENC.B builds (R139). -/
theorem checkB_of_holds_frameB {f : Fcd} {p : Params} {act : WireAction} {reg : Byte} {payload : List Byte}
    (h : f.Holds (frameB p act reg payload)) (hfits : payload.length ≤ 255) :
    ∃ g, checkB f = .done g 0 ∧ g.err = .ok ∧ g.freg = reg ∧ g.pbase = 4 ∧ g.plen = payload.length ∧
      g.Holds (frameB p act reg payload) := by
  have hw : f.wp = payload.length + 7 := by rw [h.wp_eq, frameB_length]
  have hstart : f.byte? 0 = some 0xDD := h.byte?_eq 0
  have hreg : f.byte? 2 = some reg := h.byte?_eq 2
  have hlen : f.byte? 3 = some (BitVec.ofNat 8 payload.length) :=
    (h.byte?_eq 3).trans (frameB_lengthByte ..)
  have trailer (j : Nat) := (h.byte?_eq _).trans (frameB_trailer p act reg payload j)
  have hlast : f.byte? (f.wp - 1) = some 0x77 := by
    rw [show f.wp - 1 = 4 + payload.length + 2 by omega]
    exact trailer 2
  have hlenNat : (BitVec.ofNat 8 payload.length).toNat = payload.length := by
    rw [BitVec.toNat_ofNat, Nat.mod_eq_of_lt (by omega)]
  have hchecked : f.bytes? 2 (payload.length + 2) = some (checkedBytesB reg payload) := by
    rw [h.bytes? (by simp; omega), frameB_checked]
  have hcode : f.u16be (4 + payload.length) = some (neg16 (byteSum16 (checkedBytesB reg payload))).toNat := by
    have hhi := trailer 0
    have hlo := trailer 1
    rw [Fcd.u16be, ← Nat.add_zero (4 + payload.length), hhi, Nat.add_zero, hlo, ← codeBytes_toNat (neg16 _)]
    rfl
  have hdone := checkB_long (by omega) hstart hlast hlen
  rw [if_neg (not_not.mpr rfl), if_neg (not_not.mpr rfl), hlenNat, if_neg (by omega),
    checkBCode_eq (f := f.unchecked) hreg ((f.bytes?_unchecked ..).trans hchecked) hcode, if_neg (not_not.mpr rfl),
    Fcd.result_eq] at hdone
  exact ⟨_, hdone, rfl, rfl, rfl, rfl, h.congr rfl rfl⟩

end Machine
end Sys2Proof

open Sys2Proof Sys2Proof.Machine

/-- Settles O34. -/
theorem encABuildsFrame : Obligations.EncABuildsFrame := by
  intro s b addr cmd h
  refine ⟨fun hn => exec_of_raise h.1 (encodeA_long s.params addr cmd hn), fun hn => ?_⟩
  have byte := s.fcd.byte?_built (frameA s.params addr cmd ((List.range s.fcd.wp).map b))
    (frameBodyA s.params addr cmd ((List.range s.fcd.wp).map b))
  refine ⟨_, exec_encA_builds h addr cmd hn, ?_, byte 0, byte 1, byte 2, byte 3, fun j hj => ?_, ?_, fun a ha => ?_⟩
  · rw [Fcd.built_eq, total_frameBodyA, frameA_length]
  · rw [byte, frameA_data _ _ _ _ hj, dataBytesA_getElem? b _ _ hj]
  · exact (byte 12).trans (frameA_checksum ..)
  · exact s.fcd.read_built_beyond _ ((frameA_length ..).trans_le ha)

/-- Settles O35. -/
theorem encBBuildsFrame : Obligations.EncBBuildsFrame := by
  intro s b act reg h
  refine ⟨fun hn => exec_of_raise h.1 (encodeB_long s.params act reg hn), fun hn => ?_⟩
  have hlen : ((List.range s.fcd.wp).map b).length = s.fcd.wp := by simp
  have hsum := total_checkedBytesB reg (hlen.trans_le hn)
  rw [hlen, total_map_range_zero] at hsum
  have byte := s.fcd.byte?_built (frameB s.params act reg ((List.range s.fcd.wp).map b))
    (checkedBytesB reg ((List.range s.fcd.wp).map b))
  have trailer (j : Nat) := (byte _).trans (frameB_trailer s.params act reg ((List.range s.fcd.wp).map b) j)
  rw [hlen, byteSum16, hsum] at trailer
  refine ⟨_, exec_encB_builds h act reg hn, ?_, byte 0, ?_, byte 2, ?_, fun j hj => ?_, ?_, ?_, ?_, fun a ha => ?_⟩
  · rw [Fcd.built_eq, hsum, frameB_length, hlen]
  · cases act
    · exact byte 1
    · exact byte 1
  · rw [byte, frameB_lengthByte, hlen]
  · rw [byte, frameB_payload _ _ _ (hlen.symm ▸ hj)]
    simp [hj]
  · rw [← neg16_toNat]
    exact trailer 0
  · rw [← neg16_toNat, show 5 + s.fcd.wp = 4 + s.fcd.wp + 1 by omega]
    exact trailer 1
  · rw [show 6 + s.fcd.wp = 4 + s.fcd.wp + 2 by omega]
    exact trailer 2
  · exact s.fcd.read_built_beyond _ (by rw [frameB_length, hlen]; exact ha)

/-- Settles O36: the frame ENC.A leaves in the buffer is one CHK.A accepts. -/
theorem encAThenChkAPasses : Obligations.EncAThenChkAPasses := by
  intro s b addr cmd h hn
  obtain ⟨g, hchk, herr, hvalid, hheld⟩ := checkA_of_holds_frameA (s.fcd.built_holds _ _)
  refine ⟨_, _, _, exec_encA_builds h addr cmd hn, exec_of_done h.1 hchk, herr, hvalid, hheld.frameA_body, ?_⟩
  rw [← total_eq_sum]
  exact (hheld.byte?_eq 12).trans (frameA_checksum ..)

/-- Settles O37: the frame ENC.B leaves in the buffer is one CHK.B accepts. -/
theorem encBThenChkBReturnsPayload : Obligations.EncBThenChkBReturnsPayload := by
  intro s b act reg h hn
  have hlen : ((List.range s.fcd.wp).map b).length = s.fcd.wp := by simp
  obtain ⟨g, hchk, herr, hfreg, hpbase, hplen, hheld⟩ :=
    checkB_of_holds_frameB (s.fcd.built_holds _ _) (hlen.trans_le hn)
  refine ⟨_, _, exec_encB_builds h act reg hn, exec_of_done h.1 hchk, herr, hfreg, hpbase, hplen.trans hlen, fun j hj => ?_⟩
  rw [State.answer_fcd, hheld.byte?_eq, frameB_payload _ _ _ (hlen.symm ▸ hj)]
  simp [hj]

end

section
/-! The vendor-A decoders DA.* (spec/43_decode_vendor_a.md R150 to R173): what each writes from the bytes of a validated frame, and
what the whole family leaves. -/

namespace Sys2Proof
namespace Machine

/-! ### Values, as the rules write them -/

/-- A clipped byte in a register (R13). -/
theorem unsigned_clip (x : Byte) (ceiling : Nat) :
    unsigned (clip x.toNat ceiling) = if ceiling < x.toNat then BitVec.ofNat 32 ceiling else x.zeroExtend 32 := by
  split
  · next h => rw [clip, Nat.min_eq_right (Nat.le_of_lt h), unsigned]
  · next h => rw [clip, Nat.min_eq_left (Nat.le_of_not_lt h), unsigned_byte]

/-- A FET byte as a boolean register (R166). -/
theorem unsigned_nonzero (x : Byte) : unsigned (if x.toNat ≠ 0 then 1 else 0) = if x = 0 then 0 else 1 := by
  by_cases h : x = 0
  · subst h
    rfl
  · have hn : x.toNat ≠ 0 := fun h0 => h (BitVec.eq_of_toNat_eq h0)
    rw [if_pos hn, if_neg h]
    rfl

/-- Bit `i` of a little-endian value is bit `i mod 8` of byte `i div 8` (R162). -/
theorem testBit_littleEndian (bs : List Byte) (i : Nat) (h : i / 8 < bs.length) :
    (littleEndian bs).testBit i = bs[i / 8].getLsbD (i % 8) := by
  induction bs generalizing i with
  | nil => simp at h
  | cons b bs ih =>
    rw [littleEndian, Nat.add_comm, show 256 = 2 ^ 8 from rfl, Nat.testBit_two_pow_mul_add _ b.isLt]
    split
    · next hi =>
      simp only [Nat.div_eq_of_lt hi, Nat.mod_eq_of_lt hi, List.getElem_cons_zero]
      rfl
    · next hi =>
      obtain ⟨j, rfl⟩ : ∃ j, i = j + 8 := ⟨i - 8, by omega⟩
      have hdiv : (j + 8) / 8 = j / 8 + 1 := Nat.add_div_right j (by decide)
      have hj : j / 8 < bs.length := by rw [hdiv] at h; exact Nat.lt_of_succ_lt_succ h
      simp only [Nat.add_sub_cancel, hdiv, Nat.add_mod_right, List.getElem_cons_succ]
      exact ih j hj

/-- An array after consecutive values `x 0, x 1, …` are written from element `i` on, those at or above `limit` dropped. -/
theorem writeBelow_map_range {α : Type} {n : Nat} (v : Vector α n) (limit i m : Nat) (x : Nat → α) :
    writeBelow v limit i ((List.range m).map x) =
      Vector.ofFn fun j : Fin n => if i ≤ j ∧ j < i + m ∧ j < limit then x (j - i) else v[j] := by
  ext j hj
  simp [writeBelow_getElem]

/-! ### What each decoder writes from the bytes of the frame -/

section
variable {f : Fcd} {b : Nat → Byte} (hb : f.Shows 0 12 b)
include hb

theorem Fcd.Shows.frameU8 {i : Nat} (hi : i < 12) : f.u8 i = some (b i).toNat := by
  simpa using hb.u8 hi

theorem Fcd.Shows.frameS8 {i : Nat} (hi : i < 12) : f.s8 i = some (tc8 (b i)) := by
  simpa using hb.s8 hi

theorem Fcd.Shows.frameU16 {i : Nat} (hi : i + 2 ≤ 12) : f.u16be i = some (be16 b i) := by
  simpa using hb.u16be hi

theorem Fcd.Shows.frameS16 {i : Nat} (hi : i + 2 ≤ 12) : f.s16be i = some (tc16 (be16 b i)) := by
  simpa using hb.s16be hi

theorem Fcd.Shows.frameRun {i m : Nat} (hi : i + m ≤ 12) : f.bytes? i m = some ((List.range m).map fun j => b (i + j)) := by
  simpa using hb.bytes? hi

theorem Fcd.Shows.frameWords {i m : Nat} (hi : i + 2 * m ≤ 12) :
    f.words? i m = some ((List.range m).map fun j => be16 b (i + 2 * j)) := by
  simpa using hb.words? hi

/-- DA.VIS (R150). -/
theorem decodeVis_of_shows (p : Params) :
    decodeVis p f = .done { f with err := .ok, res := { f.res with
      vpack := BitVec.ofNat 32 (100 * be16 b 4), ipack := BitVec.ofInt 32 (100 * tc16 (be16 b 8)),
      soc := BitVec.ofNat 32 (p.socAMul * be16 b 10) } } 0 := by
  rw [decodeVis, hb.frameU16 (by decide), reading_some, hb.frameS16 (by decide), reading_some, hb.frameU16 (by decide),
    reading_some, Nat.mul_comm _ 100, Int.mul_comm _ 100, Nat.mul_comm _ p.socAMul]
  rfl

/-- DA.MMV (R152). -/
theorem decodeMmv_of_shows :
    decodeMmv f = .done { f with err := .ok, res := { f.res with
      vmax := BitVec.ofNat 32 (be16 b 4), vmaxidx := (b 6).zeroExtend 32, vmin := BitVec.ofNat 32 (be16 b 7),
      vminidx := (b 9).zeroExtend 32, vdelta := BitVec.ofInt 32 ((be16 b 4 : Int) - be16 b 7) } } 0 := by
  rw [decodeMmv, hb.frameU16 (by decide), reading_some, hb.frameU8 (by decide), reading_some, hb.frameU16 (by decide),
    reading_some, hb.frameU8 (by decide), reading_some, unsigned_byte, unsigned_byte]
  rfl

/-- DA.MMT (R154). -/
theorem decodeMmt_of_shows :
    decodeMmt f = .done { f with err := .ok, res := { f.res with
      tmax := BitVec.ofInt 32 (10 * tc8 (b 4)), tmin := BitVec.ofInt 32 (10 * tc8 (b 6)) } } 0 := by
  rw [decodeMmt, hb.frameS8 (by decide), reading_some, hb.frameS8 (by decide), reading_some, Int.mul_comm _ 10,
    Int.mul_comm _ 10]
  rfl

/-- DA.STAT (R156). -/
theorem decodeStat_of_shows :
    decodeStat f = .done { f with err := .ok, res := { f.res with
      cellcnt := if 48 < (b 4).toNat then 48 else (b 4).zeroExtend 32,
      tempcnt := if 16 < (b 5).toNat then 16 else (b 5).zeroExtend 32,
      chgstate := (b 6).zeroExtend 32, loadstate := (b 7).zeroExtend 32, cycles := BitVec.ofNat 32 (be16 b 10) } } 0 := by
  rw [decodeStat, hb.frameU8 (by decide), reading_some, hb.frameU8 (by decide), reading_some, hb.frameU8 (by decide),
    reading_some, hb.frameU8 (by decide), reading_some, hb.frameU16 (by decide), reading_some, unsigned_clip, unsigned_clip,
    unsigned_byte, unsigned_byte]
  rfl

/-- DA.CELLV (R158). -/
theorem decodeCellv_of_shows (p : Params) (k : Nat) :
    decodeCellv p k f = .done { f with
      err := .ok
      cv := Vector.ofFn fun i : Fin 48 =>
        if 3 * k ≤ i ∧ i < 3 * k + 3 ∧ i < f.res.cellcnt.toNat then
          BitVec.ofNat 16 (be16 b (p.cellvAOff + 2 * (i - 3 * k)))
        else f.cv[i] } 0 := by
  obtain ⟨-, -, ⟨-, hoff⟩, -⟩ := p.vendorA
  rw [decodeCellv, hb.frameWords (by omega), reading_some, List.map_map, writeBelow_map_range]
  rfl

/-- DA.CELLT (R160). -/
theorem decodeCellt_of_shows (p : Params) (k : Nat) :
    decodeCellt p k f = .done { f with
      err := .ok
      t := Vector.ofFn fun i : Fin 16 =>
        if 7 * k ≤ i ∧ i < 7 * k + 7 ∧ i < f.res.tempcnt.toNat then
          BitVec.ofInt 32 (10 * tc8 (b (p.celltAOff + (i - 7 * k))))
        else f.t[i] } 0 := by
  obtain ⟨-, -, -, ⟨-, hoff⟩, -⟩ := p.vendorA
  rw [decodeCellt, hb.frameRun (by omega), reading_some, List.map_map, writeBelow_map_range]
  simp only [Function.comp_apply, sext_8, Int.mul_comm _ 10]
  rfl

/-- DA.BAL (R162). -/
theorem decodeBal_of_shows (p : Params) :
    decodeBal p f = .done { f with err := .ok, res := { f.res with
      balmask := unsigned (littleEndian ((List.range 4).map fun j => b (p.balAOff + j))) } } 0 := by
  obtain ⟨-, -, -, -, ⟨-, hoff⟩, -⟩ := p.vendorA
  rw [decodeBal, hb.frameRun (by omega), reading_some]
  rfl

/-- DA.FAIL (R164): all seven alarm bytes lie below the limit, so each is written. -/
theorem decodeFail_of_shows (p : Params) :
    decodeFail p f = .done { f with err := .ok, alm := Vector.ofFn fun g : Fin 7 => b (p.almAOff + g) } 0 := by
  obtain ⟨-, -, -, -, -, ⟨-, hoff⟩, -⟩ := p.vendorA
  have hall (v : Vector Byte 7) : writeBelow v 7 0 ((List.range 7).map fun j => b (p.almAOff + j)) =
      Vector.ofFn fun g : Fin 7 => b (p.almAOff + g) := by
    rw [writeBelow_map_range]
    congr 1
    funext g
    exact if_pos (by omega)
  rw [decodeFail, hb.frameRun (by omega), reading_some, hall]
  rfl

/-- DA.MOS (R166). -/
theorem decodeMos_of_shows :
    decodeMos f = .done { f with err := .ok, res := { f.res with
      chgfet := if b 4 = 0 then 0 else 1, dsgfet := if b 5 = 0 then 0 else 1,
      heartbeat := (b 6).zeroExtend 32, resid := BitVec.ofNat 32 (be16 b 8) } } 0 := by
  rw [decodeMos, hb.frameU8 (by decide), reading_some, hb.frameU8 (by decide), reading_some, hb.frameU8 (by decide),
    reading_some, hb.frameU16 (by decide), reading_some, unsigned_nonzero, unsigned_nonzero, unsigned_byte]
  rfl

end

/-- A bit of DA.BAL's mask (R162). -/
theorem getLsbD_balanceMask (b : Nat → Byte) {i : Nat} (hi : i < 32) :
    (unsigned (littleEndian ((List.range 4).map b))).getLsbD i = (b (i / 8)).getLsbD (i % 8) := by
  have hlen : i / 8 < ((List.range 4).map b).length := by
    rw [List.length_map, List.length_range]
    omega
  rw [unsigned, BitVec.getLsbD_ofNat, testBit_littleEndian _ i hlen, List.getElem_map, List.getElem_range]
  simp [hi]

/-! ### The family -/

/-- A DA.* operation whose decoder ends done on the frame answers so (R170). -/
theorem State.ReadyA.answers {s : State} {b : Nat → Byte} (h : s.ReadyA b) {op : Fcd → Effect} {g : Fcd}
    (hop : s.fcd.Shows 0 12 b → op s.fcd = .done g 0) : s.performA op = .next (s.answer g 0) := by
  have ⟨_, _, _, hb⟩ := h
  rw [State.performA_ready h, hop hb, State.settle_done]

/-- ERR is OK, and only the registers the vendor-A decoders name may differ (R171, R173). -/
def Fcd.DecodedAFrom (g f : Fcd) : Prop :=
  g = { f with
    err := .ok, res := { g.res with cap := f.res.cap, prot := f.res.prot }, alm := g.alm, cv := g.cv, t := g.t }

/-- A DA.* operation is a decoder behind R170's precondition, and the decoder ends done on the bytes of a frame. -/
theorem effectOf_vendorA {i : Instr} (hi : isVendorA i = true) (p : Params) (f : Fcd) :
    ∃ e, effectOf p i f = whenValidated .vendorA f e ∧
      ∀ b, f.Shows 0 12 b → ∃ g, e = .done g 0 ∧ g.DecodedAFrom f := by
  cases i
  case daVis => exact ⟨_, rfl, fun b hb => ⟨_, decodeVis_of_shows hb p, rfl⟩⟩
  case daMmv => exact ⟨_, rfl, fun b hb => ⟨_, decodeMmv_of_shows hb, rfl⟩⟩
  case daMmt => exact ⟨_, rfl, fun b hb => ⟨_, decodeMmt_of_shows hb, rfl⟩⟩
  case daStat => exact ⟨_, rfl, fun b hb => ⟨_, decodeStat_of_shows hb, rfl⟩⟩
  case daCellv k => exact ⟨_, rfl, fun b hb => ⟨_, decodeCellv_of_shows hb p k, rfl⟩⟩
  case daCellt k => exact ⟨_, rfl, fun b hb => ⟨_, decodeCellt_of_shows hb p k, rfl⟩⟩
  case daBal => exact ⟨_, rfl, fun b hb => ⟨_, decodeBal_of_shows hb p, rfl⟩⟩
  case daFail => exact ⟨_, rfl, fun b hb => ⟨_, decodeFail_of_shows hb p, rfl⟩⟩
  case daMos => exact ⟨_, rfl, fun b hb => ⟨_, decodeMos_of_shows hb, rfl⟩⟩
  all_goals cases hi

/-- The precondition not met: the operation raises (R228). -/
theorem whenValidated_unmet {v : Vendor} {f : Fcd} (h : ¬ (f.valid = true ∧ f.vk = some v)) (e : Effect) :
    ∃ c, whenValidated v f e = .raise c := by
  cases hv : f.valid with
  | false => exact ⟨_, whenValid_invalid hv _⟩
  | true => exact ⟨.vendorMismatch, by rw [whenValidated, whenValid_valid hv, if_neg fun hk => h ⟨hv, hk⟩]⟩

end Machine
end Sys2Proof

open Sys2Proof Sys2Proof.Machine

/-- Settles O40. -/
theorem daVisDecodes : Obligations.DaVisDecodes := fun s _ h => h.answers fun hb => decodeVis_of_shows hb s.params

/-- Settles O41. -/
theorem daMmvDecodes : Obligations.DaMmvDecodes := fun _ _ h => h.answers decodeMmv_of_shows

/-- Settles O42. -/
theorem daMmtDecodes : Obligations.DaMmtDecodes := fun _ _ h => h.answers decodeMmt_of_shows

/-- Settles O43. -/
theorem daStatDecodes : Obligations.DaStatDecodes := fun _ _ h => h.answers decodeStat_of_shows

/-- Settles O44. -/
theorem daCellvDecodes : Obligations.DaCellvDecodes := fun s _ k h =>
  h.answers fun hb => decodeCellv_of_shows hb s.params k

/-- Settles O45. -/
theorem daCelltDecodes : Obligations.DaCelltDecodes := fun s _ k h =>
  h.answers fun hb => decodeCellt_of_shows hb s.params k

/-- Settles O46: the mask is the little-endian value of the four bytes, so its bits are theirs. -/
theorem daBalDecodes : Obligations.DaBalDecodes := fun s _ h =>
  ⟨_, h.answers fun hb => decodeBal_of_shows hb s.params, fun _ hi => getLsbD_balanceMask _ hi⟩

/-- Settles O47. -/
theorem daFailDecodes : Obligations.DaFailDecodes := fun s _ h => h.answers fun hb => decodeFail_of_shows hb s.params

/-- Settles O48. -/
theorem daMosDecodes : Obligations.DaMosDecodes := fun _ _ h => h.answers decodeMos_of_shows

/-- Settles O49, by whether a vendor-A frame is validated: the decoder ends done inside the family's frame, or a fault is raised,
which writes its two fields alone. -/
theorem vendorADecodersFrame : Obligations.VendorADecodersFrame := by
  intro i s hi hs hf
  obtain ⟨e, he, hdone⟩ := effectOf_vendorA hi s.params s.fcd
  by_cases hready : s.fcd.valid = true ∧ s.fcd.vk = some .vendorA
  · obtain ⟨hv, hk⟩ := hready
    obtain ⟨b, hb⟩ := Fcd.Inv.showsFrameA hs hv hk
    obtain ⟨g, rfl, hg⟩ := hdone b fun j hj => hb j (by omega)
    refine ⟨_, exec_of_done hf (he.trans (whenValidated_met hv hk _)), fun _ _ => ⟨congrArg Fcd.err hg, ?_⟩, ?_⟩
    · exact (congrArg Fcd.fault hg).trans hf
    · rw [State.answer_fcd, hg]
      exact ⟨rfl, rfl, rfl, rfl, rfl, rfl, rfl, rfl, rfl, rfl, rfl, rfl⟩
  · obtain ⟨c, hc⟩ := whenValidated_unmet hready e
    exact ⟨_, exec_of_raise hf (he.trans hc), fun hv hk => absurd ⟨hv, hk⟩ hready, rfl, rfl, rfl, rfl, rfl, rfl, rfl, rfl,
      rfl, rfl, rfl, rfl⟩

end

section
/-! The vendor-B decoders DB.* (spec/44_decode_vendor_b.md R180 to R186): what each writes from the bytes of a validated frame,
that DB.CELL's loop keeps the extremes of the cells it has passed over, and what the whole family leaves. -/

namespace Sys2Proof
namespace Machine

/-! ### DB.HW (R181, R182) -/

/-- An array whose first `m` elements take the values `x 0, x 1, …`. -/
theorem writeBelow_fromZero {α : Type} {n : Nat} (v : Vector α n) (m : Nat) (x : Nat → α) :
    writeBelow v m 0 ((List.range m).map x) = Vector.ofFn fun j : Fin n => if j < m then x j else v[j] := by
  rw [writeBelow_map_range]
  simp

section
variable {f : Fcd} {d : Nat → Byte} (hd : f.Shows f.pbase f.plen d)
include hd

/-- The fields of a payload that holds the fixed part and `n` temperatures. -/
theorem decodeHwFields_of_shows {l : LayoutB} (hl : l.wellFormed = true) {n : Nat} (hfixed : l.hwFixed ≤ f.plen)
    (htemps : l.offTemps + 2 * n ≤ f.plen) :
    decodeHwFields l n f = .done { f with
      err := .ok
      res := { f.res with
        vpack := BitVec.ofNat 32 (10 * be16 d l.offV), ipack := BitVec.ofInt 32 (10 * tc16 (be16 d l.offI)),
        cap := BitVec.ofNat 32 (10 * be16 d l.offCap), soc := BitVec.ofNat 32 (100 * (d l.offSoc).toNat),
        balmask := BitVec.ofNat 32 (65536 * be16 d l.offBalHi + be16 d l.offBalLo),
        prot := BitVec.ofNat 32 (be16 d l.offProt % 8192),
        chgfet := if (d l.offFet).getLsbD l.fetChgBit then 1 else 0,
        dsgfet := if (d l.offFet).getLsbD l.fetDsgBit then 1 else 0,
        cellcnt := BitVec.ofNat 32 (min (d l.offCells).toNat 48), tempcnt := BitVec.ofNat 32 n }
      t := Vector.ofFn fun i : Fin 16 =>
        if i < n then BitVec.ofInt 32 (tc16 (be16 d (l.offTemps + 2 * i)) - 2731) else f.t[i] } 0 := by
  obtain ⟨hv, hi, hcap, hlo, hhi, hprot, hsoc, hfet, hcells, -⟩ := l.bounds hl
  rw [decodeHwFields, hd.p16 (hv.trans hfixed), reading_some, hd.ps16 (hi.trans hfixed), reading_some,
    hd.p16 (hcap.trans hfixed), reading_some, hd.p8 (hsoc.trans hfixed), reading_some, hd.p16 (hlo.trans hfixed), reading_some,
    hd.p16 (hhi.trans hfixed), reading_some, hd.p16 (hprot.trans hfixed), reading_some, hd.p8 (hfet.trans hfixed), reading_some,
    hd.p8 (hcells.trans hfixed), reading_some, hd.pwords? htemps, reading_some, List.map_map, writeBelow_fromZero, unsigned_bit,
    unsigned_bit, Nat.mul_comm _ 10, Int.mul_comm _ 10, Nat.mul_comm _ 10, Nat.mul_comm _ 100, Nat.mul_comm _ (2 ^ 16),
    Nat.add_comm (be16 d l.offBalLo)]
  simp only [Function.comp_apply, tenthsCelsius, sext_16]
  rfl

/-- DB.HW: both length tests, then the fields. The sensor byte lies in the fixed part, so the first test covers reading it. -/
theorem decodeHw_of_shows {l : LayoutB} (hl : l.wellFormed = true) :
    decodeHw l f =
      if f.plen < l.hwFixed ∨ f.plen < l.offTemps + 2 * min (d l.offNtc).toNat 16 then f.result .truncated
      else decodeHwFields l (min (d l.offNtc).toNat 16) f := by
  obtain ⟨-, -, -, -, -, -, -, -, -, hntc, -⟩ := l.bounds hl
  by_cases hfixed : f.plen < l.hwFixed
  · rw [decodeHw, if_pos hfixed, if_pos (.inl hfixed)]
  · rw [decodeHw, if_neg hfixed, hd.p8 (hntc.trans (Nat.not_lt.mp hfixed)), reading_some]
    simp only [hfixed, false_or]
    rfl

end

/-! ### The extremes of the cells (R184)

VMAX and VMIN are one notion under two orders: `r v w` says that `w` is more extreme than `v`. -/

/-- Among `x 0, …, x (n - 1)` no value beats `v`, and `k` is the lowest 1-based number of one that equals it. -/
structure FirstExtreme (r : Nat → Nat → Prop) (x : Nat → Nat) (n v k : Nat) : Prop where
  pos : 1 ≤ k
  le : k ≤ n
  value : x (k - 1) = v
  unbeaten : ∀ i < n, ¬ r v (x i)
  first : ∀ i < k - 1, r (x i) v

theorem FirstExtreme.index_lt {r : Nat → Nat → Prop} {x : Nat → Nat} {n v k : Nat} (h : FirstExtreme r x n v k) :
    k - 1 < n := Nat.sub_one_lt_of_le h.pos h.le

/-- One value more: it takes over exactly if it is the first or beats the extreme so far. -/
theorem FirstExtreme.see {r : Nat → Nat → Prop} [IsStrictTotalOrder Nat r] [DecidableRel r] {x : Nat → Nat} {n v k : Nat}
    (h : 0 < n → FirstExtreme r x n v k) :
    FirstExtreme r x (n + 1) (if n = 0 ∨ r v (x n) then x n else v) (if n = 0 ∨ r v (x n) then n + 1 else k) := by
  by_cases hnew : n = 0 ∨ r v (x n)
  · have below : ∀ i < n, r (x i) (x n) := by
      intro i hi
      have hv : r v (x n) := hnew.resolve_left (by omega)
      obtain hlt | heq | hgt := trichotomous_of r (x i) v
      · exact trans_of r hlt hv
      · exact heq ▸ hv
      · exact absurd hgt ((h (by omega)).unbeaten i hi)
    rw [if_pos hnew, if_pos hnew]
    refine ⟨Nat.succ_pos n, le_rfl, rfl, fun i hi hbeat => ?_, below⟩
    obtain hlt | rfl := Nat.lt_succ_iff_lt_or_eq.mp hi
    · exact irrefl_of r _ (trans_of r hbeat (below i hlt))
    · exact irrefl_of r _ hbeat
  · obtain ⟨hn, hv⟩ := not_or.mp hnew
    obtain ⟨pos, le, value, unbeaten, first⟩ := h (Nat.pos_of_ne_zero hn)
    rw [if_neg hnew, if_neg hnew]
    refine ⟨pos, Nat.le_succ_of_le le, value, fun i hi => ?_, first⟩
    obtain hlt | rfl := Nat.lt_succ_iff_lt_or_eq.mp hi
    · exact unbeaten i hlt
    · exact hv

/-- What DB.CELL's loop holds after the cells `x 0, …, x (n - 1)`. -/
def cellExtremes (x : Nat → Nat) (n : Nat) : Extremes := Extremes.start.over 0 ((List.range n).map x)

theorem Extremes.over_append (e : Extremes) (i : Nat) (vs : List Nat) (v : Nat) :
    e.over i (vs ++ [v]) = (e.over i vs).see (i + vs.length) v := by
  induction vs generalizing e i with
  | nil => rfl
  | cons w vs ih =>
    rw [List.cons_append, Extremes.over, ih, Extremes.over, List.length_cons, Nat.add_assoc, Nat.add_comm 1]

theorem cellExtremes_zero (x : Nat → Nat) : cellExtremes x 0 = ⟨0, 0, 0, 0⟩ := rfl

theorem cellExtremes_succ (x : Nat → Nat) (n : Nat) : cellExtremes x (n + 1) = (cellExtremes x n).see n (x n) := by
  simp [cellExtremes, List.range_succ, Extremes.over_append]

/-- The loop's maximum, and the lowest cell number that holds it. -/
theorem cellExtremes_max (x : Nat → Nat) {n : Nat} (hn : 0 < n) :
    FirstExtreme (· < ·) x n (cellExtremes x n).mx (cellExtremes x n).imx := by
  induction n with
  | zero => omega
  | succ n ih => rw [cellExtremes_succ]; exact FirstExtreme.see ih

/-- The loop's minimum likewise. -/
theorem cellExtremes_min (x : Nat → Nat) {n : Nat} (hn : 0 < n) :
    FirstExtreme (· > ·) x n (cellExtremes x n).mn (cellExtremes x n).imn := by
  induction n with
  | zero => omega
  | succ n ih => rw [cellExtremes_succ]; exact FirstExtreme.see ih

theorem cellExtremes_mn_le_mx (x : Nat → Nat) (n : Nat) : (cellExtremes x n).mn ≤ (cellExtremes x n).mx := by
  cases n with
  | zero => exact le_rfl
  | succ n =>
    have hmn := (cellExtremes_min x n.succ_pos).unbeaten 0 n.succ_pos
    have hmx := (cellExtremes_max x n.succ_pos).unbeaten 0 n.succ_pos
    exact (Nat.not_lt.mp hmn).trans (Nat.not_lt.mp hmx)

/-- The difference of two naturals in a signed register. -/
theorem signed_sub {m n : Nat} (h : n ≤ m) : signed ((m : Int) - (n : Int)) = BitVec.ofNat 32 (m - n) := by
  rw [signed, ← Int.ofNat_sub h]
  exact BitVec.ofInt_natCast 32 (m - n)

/-! ### DB.CELL -/

/-- The unit after DB.CELL on `c` cells that hold `x 0, x 1, …` (R184). -/
def Fcd.withCells (f : Fcd) (x : Nat → Nat) (c : Nat) : Fcd :=
  { f with
    err := .ok
    cv := Vector.ofFn fun i : Fin 48 => if i < c then BitVec.ofNat 16 (x i) else f.cv[i]
    res := { f.res with
      vmax := BitVec.ofNat 32 (cellExtremes x c).mx, vmaxidx := BitVec.ofNat 32 (cellExtremes x c).imx,
      vmin := BitVec.ofNat 32 (cellExtremes x c).mn, vminidx := BitVec.ofNat 32 (cellExtremes x c).imn,
      vdelta := BitVec.ofNat 32 ((cellExtremes x c).mx - (cellExtremes x c).mn) } }

theorem decodeCells_short {f : Fcd} (h : f.plen < 2 * f.res.cellcnt.toNat) : decodeCells f = f.result .truncated := if_pos h

/-- DB.CELL on a payload that holds a word for every cell. -/
theorem decodeCells_of_shows {f : Fcd} {d : Nat → Byte} (hd : f.Shows f.pbase f.plen d)
    (hlen : 2 * f.res.cellcnt.toNat ≤ f.plen) :
    decodeCells f = .done (f.withCells (fun i => be16 d (2 * i)) f.res.cellcnt.toNat) 0 := by
  have hwords := hd.pwords? (a := 0) (n := f.res.cellcnt.toNat) (by omega)
  simp only [Nat.zero_add] at hwords
  unfold decodeCells
  refine (if_neg (Nat.not_lt.mpr hlen)).trans ?_
  rw [hwords, reading_some, List.map_map, writeBelow_fromZero]
  simp only [Fcd.withCells, ← signed_sub (cellExtremes_mn_le_mx _ _)]
  rfl

/-- DB.CELL that ends with OK has read a word for every cell. -/
theorem exec_dbCell_ok {s t : State} (hs : s.Inv) (h : exec .dbCell s = .next t) (hrun : s.fcd.fault = false)
    (hfault : t.fcd.fault = false) (herr : t.fcd.err = .ok) :
    ∃ x, (∀ i, x i < 65536) ∧ t.fcd = s.fcd.withCells x s.fcd.res.cellcnt.toNat := by
  obtain ⟨hf, -, -⟩ | ⟨-, g, data, he, rfl⟩ | ⟨-, c, -, rfl⟩ := exec_cases h
  · simp [hrun] at hf
  · obtain ⟨hv, -, hg⟩ := whenValidated_done he
    obtain ⟨d, hd⟩ := hs.window hv
    by_cases hshort : s.fcd.plen < 2 * s.fcd.res.cellcnt.toNat
    · rw [decodeCells_short hshort] at hg
      cases hg
      cases herr
    · rw [decodeCells_of_shows hd (Nat.not_lt.mp hshort)] at hg
      cases hg
      exact ⟨_, fun i => be16_lt d (2 * i), rfl⟩
  · simp at hfault

section
variable {x : Nat → Nat} {c : Nat} (hx : ∀ i, x i < 65536)
include hx

/-- A cell below the count reads back as its word. -/
theorem Fcd.withCells_cell (f : Fcd) (hc : c ≤ 48) {i : Nat} (hi : i < c) :
    ((f.withCells x c).cv[i]?.getD 0).toNat = x i := by
  have hi48 : i < 48 := hi.trans_le hc
  simp [Fcd.withCells, hi, hi48, Nat.mod_eq_of_lt (hx i)]

/-- The five registers as numbers: an extreme is a 16-bit word and a cell number at most 48, so each fits. -/
theorem Fcd.withCells_registers (f : Fcd) (hpos : 0 < c) (hc : c ≤ 48) :
    (f.withCells x c).res.vmax.toNat = (cellExtremes x c).mx ∧
    (f.withCells x c).res.vmaxidx.toNat = (cellExtremes x c).imx ∧
    (f.withCells x c).res.vmin.toNat = (cellExtremes x c).mn ∧
    (f.withCells x c).res.vminidx.toNat = (cellExtremes x c).imn ∧
    (f.withCells x c).res.vdelta.toInt = ((cellExtremes x c).mx : Int) - (cellExtremes x c).mn := by
  have hmax := cellExtremes_max x hpos
  have hmin := cellExtremes_min x hpos
  have hmx : (cellExtremes x c).mx < 65536 := hmax.value ▸ hx _
  have hmn : (cellExtremes x c).mn < 65536 := hmin.value ▸ hx _
  have himx := hmax.le
  have himn := hmin.le
  refine ⟨unsigned_toNat (by omega), unsigned_toNat (by omega), unsigned_toNat (by omega), unsigned_toNat (by omega), ?_⟩
  exact (congrArg BitVec.toInt (signed_sub (cellExtremes_mn_le_mx x c))).symm.trans (signed_toInt (by omega) (by omega))

end

/-! ### The family -/

/-- A DB.* operation whose decoder ends done on the frame answers so (R180). -/
theorem State.ReadyB.answers {s : State} {d : Nat → Byte} (h : s.ReadyB d) {op : Fcd → Effect} {g : Fcd}
    (hop : op s.fcd = .done g 0) : s.performB op = .next (s.answer g 0) := by
  rw [State.performB_ready h, hop, State.settle_done]

/-- Only ERR, the fault fields and the registers the vendor-B decoders name may differ (R186). -/
def Fcd.DecodedBFrom (g f : Fcd) : Prop :=
  g = { f with
    err := g.err, fault := g.fault, fcode := g.fcode, cv := g.cv, t := g.t
    res := { g.res with
      tmax := f.res.tmax, tmin := f.res.tmin, chgstate := f.res.chgstate, loadstate := f.res.loadstate,
      cycles := f.res.cycles, heartbeat := f.res.heartbeat, resid := f.res.resid } }

/-- Nothing but ERR and the fault fields differs (R186). -/
def Fcd.VerdictOnly (g f : Fcd) : Prop := g = { f with err := g.err, fault := g.fault, fcode := g.fcode }

theorem Fcd.VerdictOnly.decodedB {f g : Fcd} (h : g.VerdictOnly f) : g.DecodedBFrom f := by
  rw [Fcd.DecodedBFrom, h]

/-- A DB.* operation done: all its registers and OK, or none of them. -/
theorem effectOf_vendorB_done {p : Params} {i : Instr} {f g : Fcd} {d : Word} (hi : isVendorB i = true)
    (he : effectOf p i f = .done g d) : g.VerdictOnly f ∨ g.err = .ok ∧ g.DecodedBFrom f := by
  cases i
  case dbHw =>
    obtain ⟨-, rfl | ⟨n, v, i, cap, soc, lo, hi, prot, fet, cells, -, -, -, -, -, -, -, -, -, -, hg⟩⟩ :=
      decodeHw_done (whenValidated_done he).2.2
    · exact .inl rfl
    · exact .inr ⟨congrArg Fcd.err hg, by rw [Fcd.DecodedBFrom, hg]⟩
  case dbCell =>
    obtain ⟨-, rfl | ⟨vs, -, rfl⟩⟩ := decodeCells_done (whenValidated_done he).2.2
    · exact .inl rfl
    · exact .inr ⟨rfl, rfl⟩
  all_goals cases hi

/-- A next state of a DB.* operation: it ended with OK, not halted, or wrote none of its registers. -/
theorem exec_vendorB_cases {i : Instr} {s t : State} (hi : isVendorB i = true) (h : exec i s = .next t) :
    t.fcd.VerdictOnly s.fcd ∨ (t.fcd.fault = false ∧ t.fcd.err = .ok) ∧ t.fcd.DecodedBFrom s.fcd := by
  obtain ⟨-, -, rfl⟩ | ⟨hw, g, d, he, rfl⟩ | ⟨-, c, -, rfl⟩ := exec_cases h
  · exact .inl rfl
  · refine (effectOf_vendorB_done hi he).imp_right fun ⟨herr, hg⟩ => ⟨⟨?_, herr⟩, hg⟩
    have running : s.fcd.fault = false := by
      rw [← Bool.not_eq_true]
      intro hf
      cases i
      case dbHw | dbCell => cases hw hf
      all_goals cases hi
    have hsrst : i ≠ .srst := by rintro rfl; cases hi
    exact ((effectOf_done_frame he).faults hsrst).1.trans running
  · rw [State.raiseFault_fcd, Fcd.VerdictOnly, Fcd.raise_err]
    exact .inl (s.fcd.raise_eq c)

end Machine
end Sys2Proof

open Sys2Proof Sys2Proof.Machine

/-- Settles O50: the payload is too short for the fixed part or for its sensors, or every field is read. -/
theorem dbHwDecodes : Obligations.DbHwDecodes := by
  intro s d h
  have hl := s.params.vendorA.1
  refine h.answers ((decodeHw_of_shows h.1.2.2 hl).trans ?_)
  split
  · rfl
  · next hlong =>
    rw [not_or, Nat.not_lt, Nat.not_lt] at hlong
    exact decodeHwFields_of_shows h.1.2.2 hl hlong.1 hlong.2

/-- Settles O51: the witnesses are what the loop holds after the last cell. -/
theorem dbCellDecodes : Obligations.DbCellDecodes := by
  intro s d h _
  refine ⟨fun hshort => h.answers (decodeCells_short hshort), fun hlong =>
    ⟨_, _, _, _, h.answers (decodeCells_of_shows h.1.2.2 hlong), fun h0 => ?_, fun hpos => ?_⟩⟩
  · rw [h0, cellExtremes_zero]
    exact ⟨rfl, rfl, rfl, rfl⟩
  · have hmax := cellExtremes_max (fun i => be16 d (2 * i)) hpos
    have hmin := cellExtremes_min (fun i => be16 d (2 * i)) hpos
    exact ⟨cellExtremes_mn_le_mx _ _, hmax.pos, hmax.le, hmax.value, fun i hi => Nat.not_lt.mp (hmax.unbeaten i hi),
      hmax.first, hmin.pos, hmin.le, hmin.value, fun i hi => Nat.not_lt.mp (hmin.unbeaten i hi), hmin.first⟩

/-- Settles O52: the registers hold the extremes of the words that the cells hold. -/
theorem dbCellStatisticsAgreeWithArray : Obligations.DbCellStatisticsAgreeWithArray := by
  intro s t hs hrun h hfault herr hpos
  obtain ⟨x, hx, ht⟩ := exec_dbCell_ok hs h hrun hfault herr
  rw [ht]
  intro c r cell
  have hc : c ≤ 48 := hs.cells
  have hmax : FirstExtreme (· < ·) x c _ _ := cellExtremes_max x hpos
  have hmin : FirstExtreme (· > ·) x c _ _ := cellExtremes_min x hpos
  have hcell (i : Nat) (hi : i < c) : cell i = x i := s.fcd.withCells_cell hx hc hi
  obtain ⟨vmax, vmaxidx, vmin, vminidx, vdelta⟩ := s.fcd.withCells_registers hx hpos hc
  rw [vmax, vmaxidx, vmin, vminidx, vdelta, hcell _ hmin.index_lt, hcell _ hmax.index_lt]
  refine ⟨hmin.pos, hmin.le, hmax.pos, hmax.le, hmin.value, hmax.value, fun i hi => ?_, fun i hi => ?_, fun i hi => ?_,
    cellExtremes_mn_le_mx x c, rfl⟩
  · rw [hcell i hi]
    exact ⟨Nat.not_lt.mp (hmin.unbeaten i hi), Nat.not_lt.mp (hmax.unbeaten i hi)⟩
  · rw [hcell i (hi.trans hmin.index_lt)]
    exact (hmin.first i hi).ne'
  · rw [hcell i (hi.trans hmax.index_lt)]
    exact (hmax.first i hi).ne

/-- Settles O53, by whether the operation ended with OK: its registers alone are written, or not even those. -/
theorem vendorBDecodersAllOrNothing : Obligations.VendorBDecodersAllOrNothing := by
  intro i s t hi h
  have hcases := exec_vendorB_cases hi h
  have hframe : t.fcd.DecodedBFrom s.fcd := hcases.elim Fcd.VerdictOnly.decodedB And.right
  refine ⟨fun hfail => ?_, ?_⟩
  · obtain hnone | ⟨⟨hfault, herr⟩, -⟩ := hcases
    · exact hnone
    · simp [hfault, herr] at hfail
  · rw [hframe]
    exact ⟨rfl, rfl, rfl, rfl, rfl, rfl, rfl, rfl, rfl, rfl, rfl, rfl, rfl, rfl, rfl, rfl, rfl, rfl⟩

end

section
/-! The extract operations X* (spec/45_field_extract.md R200 to R208): the value each takes from the bytes of a validated window,
the family's common rule, and the two decoders beside them on the same frame. -/

namespace Sys2Proof
namespace Machine

/-! ### Bits and integers in a register -/

/-- One bit of a number, in a register (R7). -/
theorem unsigned_bit_nat (v k : Nat) : unsigned (bit v k) = if v.testBit k then 1 else 0 := by
  rw [Nat.testBit_eq_decide_div_mod_eq, bit]
  rcases Nat.mod_two_eq_zero_or_one (v / 2 ^ k) with h | h <;> simp [h, unsigned]

/-- A bit of a big-endian word is a bit of its low byte, or above bit 7 one of its high byte (R206). -/
theorem testBit_be16 (d : Nat → Byte) (a k : Nat) :
    (be16 d a).testBit k = if k < 8 then (d (a + 1)).getLsbD k else (d a).getLsbD (k - 8) :=
  Nat.testBit_two_pow_mul_add (i := 8) _ (d (a + 1)).isLt k

/-- A nonnegative integer's two's-complement pattern is its unsigned one (R37). -/
theorem signed_natCast (n : Nat) : signed n = unsigned n := BitVec.ofInt_natCast 32 n

/-- PROT keeps the 13 low bits of its word (R181). -/
theorem getLsbD_unsigned_prot (v : Nat) {k : Nat} (hk : k ≤ 12) : (unsigned (v % 8192)).getLsbD k = v.testBit k := by
  rw [unsigned, BitVec.getLsbD_ofNat, show 8192 = 2 ^ 13 from rfl, Nat.testBit_mod_two_pow]
  simp [show k < 32 by omega, show k < 13 by omega]

/-! ### What each operation answers inside the window -/

/-- The state after an extract operation that took `v`: XR and the response's data are `v`, ERR is OK (R200). -/
def State.extracted (s : State) (v : Word) : State := s.answer { s.fcd with xr := v, err := .ok } v

section
variable {s : State} {d : Nat → Byte} {off : Byte} (h : s.ReadyWindow d)
include h

section
variable (hw : off.toNat + 1 ≤ s.fcd.plen)
include hw

/-- An operation on the byte at its offset takes its own function of that byte. -/
theorem perform_extract_byte (value : Nat → Int) :
    s.perform (extractField off 1 fun f a => (f.p8 a).map value) =
      .next (s.extracted (signed (value (d off.toNat).toNat))) :=
  perform_extract_inside h hw (congrArg (Option.map value) (h.2.2.p8 hw))

/-- XU8 (R201). -/
theorem exec_xu8_inside : exec (.xu8 off) s = .next (s.extracted ((d off.toNat).zeroExtend 32)) := by
  rw [← unsigned_byte, ← signed_natCast]
  exact perform_extract_byte h hw _

/-- XS8 (R202). -/
theorem exec_xs8_inside : exec (.xs8 off) s = .next (s.extracted (signed (tc8 (d off.toNat)))) := by
  rw [← sext_8]
  exact perform_extract_byte h hw _

/-- XBIT (R205). -/
theorem exec_xbit_inside (k : Nat) :
    exec (.xbit off k) s = .next (s.extracted (if (d off.toNat).getLsbD k then 1 else 0)) := by
  rw [← unsigned_bit, ← signed_natCast]
  exact perform_extract_byte h hw _

end

section
variable (hw : off.toNat + 2 ≤ s.fcd.plen)
include hw

/-- An operation on the word at its offset takes its own function of that word. -/
theorem perform_extract_word (value : Nat → Int) :
    s.perform (extractField off 2 fun f a => (f.p16 a).map value) =
      .next (s.extracted (signed (value (be16 d off.toNat)))) :=
  perform_extract_inside h hw (congrArg (Option.map value) (h.2.2.p16 hw))

/-- XU16 (R203). -/
theorem exec_xu16_inside : exec (.xu16 off) s = .next (s.extracted (unsigned (be16 d off.toNat))) := by
  rw [← signed_natCast]
  exact perform_extract_word h hw _

/-- XS16 (R204). -/
theorem exec_xs16_inside : exec (.xs16 off) s = .next (s.extracted (signed (tc16 (be16 d off.toNat)))) := by
  rw [← sext_16]
  exact perform_extract_word h hw _

/-- XBIT16 (R206). -/
theorem exec_xbit16_inside (k : Nat) :
    exec (.xbit16 off k) s = .next (s.extracted (if (be16 d off.toNat).testBit k then 1 else 0)) := by
  rw [← unsigned_bit_nat, ← signed_natCast]
  exact perform_extract_word h hw _

/-- XK16 (R207). -/
theorem exec_xk16_inside : exec (.xk16 off) s = .next (s.extracted (signed (tc16 (be16 d off.toNat) - 2731))) := by
  rw [← sext_16]
  exact perform_extract_word h hw _

end

/-! ### The family -/

/-- Every extract operation inside the window takes some value. -/
theorem exec_extract_inside {i : Instr} {width : Nat} (hi : extractSite i = some (off, width))
    (hw : off.toNat + width ≤ s.fcd.plen) : ∃ v, exec i s = .next (s.extracted v) := by
  cases i
  case xu8 => cases hi; exact ⟨_, exec_xu8_inside h hw⟩
  case xs8 => cases hi; exact ⟨_, exec_xs8_inside h hw⟩
  case xbit => cases hi; exact ⟨_, exec_xbit_inside h hw _⟩
  case xu16 => cases hi; exact ⟨_, exec_xu16_inside h hw⟩
  case xs16 => cases hi; exact ⟨_, exec_xs16_inside h hw⟩
  case xbit16 => cases hi; exact ⟨_, exec_xbit16_inside h hw _⟩
  case xk16 => cases hi; exact ⟨_, exec_xk16_inside h hw⟩
  all_goals cases hi

end

/-- Every extract operation is the family's rule, at its own offset and width, for a value of its own (R200). -/
theorem exec_extract {i : Instr} {off : Byte} {width : Nat} (hi : extractSite i = some (off, width)) :
    ∃ value, ∀ s, exec i s = s.perform (extractField off width value) := by
  cases i
  case xu8 | xs8 | xbit | xu16 | xs16 | xbit16 | xk16 => cases hi; exact ⟨_, fun _ => rfl⟩
  all_goals cases hi

/-- An extract operation on a unit whose frame is not validated (R200). -/
theorem perform_extract_invalid {s : State} {off : Byte} {width : Nat} (h : s.fcd.fault = false) (hv : s.fcd.valid = false)
    (value : Fcd → Nat → Option Int) :
    s.perform (extractField off width value) = .next (s.answer (s.fcd.faulted .notValidated) 0) := by
  rw [State.perform_running h, extractField, whenValid_invalid hv, State.settle_raise, State.raiseFault_running h]

/-! ### The decoders beside the extract operations (R208) -/

/-- An answer of an operation is its only one. -/
theorem eq_of_exec {i : Instr} {s t u : State} (ht : exec i s = .next t) (hu : exec i s = .next u) : t = u :=
  Host.Outcome.next.inj (ht.symm.trans hu)

/-- What XR holds after an extract operation that took `v`. -/
theorem xr_of_exec {i : Instr} {s u : State} {v : Word} (hu : exec i s = .next u)
    (hi : exec i s = .next (s.extracted v)) : u.fcd.xr = v :=
  congrArg (fun t : State => t.fcd.xr) (eq_of_exec hu hi)

/-- A payload offset below 256 is the operand it is written as (R87). -/
theorem toNat_offset {a : Nat} (h : a < 256) : (BitVec.ofNat 8 a).toNat = a := by
  rw [BitVec.toNat_ofNat, Nat.mod_eq_of_lt h]

/-- The bytes of a validated vendor-A frame, whose window is the frame from index 0 (R46 (c)). -/
theorem State.Inv.readyA {s : State} (h : s.Inv) (hf : s.fcd.fault = false) (hv : s.fcd.valid = true)
    (hk : s.fcd.vk = some .vendorA) : s.fcd.plen = 12 ∧ ∃ b, s.ReadyA b ∧ s.ReadyWindow b := by
  obtain ⟨-, hbase, hlen, -⟩ := Fcd.Inv.checkedA h hv hk
  obtain ⟨b, hb⟩ := Fcd.Inv.window h hv
  have hframe : s.fcd.Shows 0 12 b := by rwa [hbase, hlen] at hb
  exact ⟨hlen, b, ⟨hf, hv, hk, hframe⟩, hf, hv, hb⟩

/-- The bytes of a validated vendor-B frame's window. -/
theorem State.Inv.readyB {s : State} (h : s.Inv) (hf : s.fcd.fault = false) (hv : s.fcd.valid = true)
    (hk : s.fcd.vk = some .vendorB) : ∃ d, s.ReadyB d := by
  obtain ⟨d, hd⟩ := Fcd.Inv.window h hv
  exact ⟨d, ⟨hf, hv, hd⟩, hk⟩

/-- DA.VIS that has answered, beside XU16 and XS16 at its three offsets: the products fit their registers (R8, R150). -/
theorem daVis_scales_extracts {s t x y z : State} {b : Nat → Byte} (ha : s.ReadyA b) (hw : s.ReadyWindow b)
    (hlen : s.fcd.plen = 12) (ht : exec .daVis s = .next t) (hx : exec (.xu16 4) s = .next x)
    (hy : exec (.xs16 8) s = .next y) (hz : exec (.xu16 10) s = .next z) :
    t.fcd.res.vpack.toNat = x.fcd.xr.toNat * 100 ∧ t.fcd.res.ipack.toInt = y.fcd.xr.toInt * 100 ∧
      t.fcd.res.soc.toNat = z.fcd.xr.toNat * s.params.socAMul := by
  obtain rfl := eq_of_exec ht (daVisDecodes s b ha)
  obtain rfl := eq_of_exec hx (exec_xu16_inside hw (hlen ▸ by decide))
  obtain rfl := eq_of_exec hy (exec_xs16_inside hw (hlen ▸ by decide))
  obtain rfl := eq_of_exec hz (exec_xu16_inside hw (hlen ▸ by decide))
  have hvolt := be16_lt b 4
  have hamp := tc16_bounds (be16_lt b 8)
  have hsoc := be16_lt b 10
  obtain ⟨-, -, -, -, -, -, -, hsocMul⟩ := s.params.vendorA
  have hmul : s.params.socAMul * be16 b 10 ≤ 10 * 65535 := Nat.mul_le_mul hsocMul (Nat.le_of_lt_succ hsoc)
  refine ⟨?_, ?_, ?_⟩
  · calc (unsigned (100 * be16 b 4)).toNat
      _ = be16 b 4 * 100 := (unsigned_toNat (by omega)).trans (Nat.mul_comm _ _)
      _ = (unsigned (be16 b 4)).toNat * 100 := by rw [unsigned_toNat (by omega)]
  · calc (signed (100 * tc16 (be16 b 8))).toInt
      _ = tc16 (be16 b 8) * 100 := (signed_toInt (by omega) (by omega)).trans (Int.mul_comm _ _)
      _ = (signed (tc16 (be16 b 8))).toInt * 100 := by rw [signed_toInt (by omega) (by omega)]
  · calc (unsigned (s.params.socAMul * be16 b 10)).toNat
      _ = be16 b 10 * s.params.socAMul := (unsigned_toNat (by omega)).trans (Nat.mul_comm _ _)
      _ = (unsigned (be16 b 10)).toNat * s.params.socAMul := by rw [unsigned_toNat (by omega)]

/-- DB.HW that has ended with OK: the payload holds the fixed part and the temperatures, and these are the registers R208 names. -/
theorem dbHw_ok_registers {s t : State} {d : Nat → Byte} (h : s.ReadyB d) (ht : exec .dbHw s = .next t)
    (hok : t.fcd.err = .ok) :
    let l := s.params.layoutB
    l.hwFixed ≤ s.fcd.plen ∧ l.offTemps + 2 * t.fcd.res.tempcnt.toNat ≤ s.fcd.plen ∧
    (∀ i : Fin 16, i < t.fcd.res.tempcnt.toNat → t.fcd.t[i] = signed (tc16 (be16 d (l.offTemps + 2 * i)) - 2731)) ∧
    t.fcd.res.chgfet = (if (d l.offFet).getLsbD l.fetChgBit then 1 else 0) ∧
    t.fcd.res.dsgfet = (if (d l.offFet).getLsbD l.fetDsgBit then 1 else 0) ∧
    t.fcd.res.prot = unsigned (be16 d l.offProt % 8192) := by
  obtain rfl := eq_of_exec ht (dbHwDecodes s d h)
  rw [State.answer_fcd] at hok ⊢
  split at hok
  · cases hok
  · next hlong =>
    rw [if_neg hlong]
    rw [not_or, Nat.not_lt, Nat.not_lt] at hlong
    obtain ⟨hfixed, htemps⟩ := hlong
    have hn : (unsigned (min (d s.params.layoutB.offNtc).toNat 16)).toNat = min (d s.params.layoutB.offNtc).toNat 16 :=
      unsigned_toNat (by omega)
    refine ⟨hfixed, hn.symm ▸ htemps, fun i hi => ?_, rfl, rfl, rfl⟩
    exact (Vector.getElem_ofFn i.isLt).trans (if_pos (hn ▸ hi))

/-- DB.HW that has ended with OK, beside XK16, XBIT and XBIT16 at the same offsets (R181, R208). -/
theorem dbHw_agrees_with_extracts {s t : State} {d : Nat → Byte} (h : s.ReadyB d) (ht : exec .dbHw s = .next t)
    (hok : t.fcd.err = .ok) :
    let l := s.params.layoutB
    (∀ (i : Fin 16) u, i < t.fcd.res.tempcnt.toNat → exec (.xk16 (BitVec.ofNat 8 (l.offTemps + 2 * i))) s = .next u →
      t.fcd.t[i] = u.fcd.xr) ∧
    (∀ u, exec (.xbit (BitVec.ofNat 8 l.offFet) l.fetChgBit) s = .next u → t.fcd.res.chgfet = u.fcd.xr) ∧
    (∀ u, exec (.xbit (BitVec.ofNat 8 l.offFet) l.fetDsgBit) s = .next u → t.fcd.res.dsgfet = u.fcd.xr) ∧
    ∀ k u, k ≤ 12 → exec (.xbit16 (BitVec.ofNat 8 l.offProt) k) s = .next u →
      u.fcd.xr = if t.fcd.res.prot.getLsbD k then 1 else 0 := by
  dsimp only
  obtain ⟨hfixed, htemps, htemp, hchg, hdsg, hprot⟩ := dbHw_ok_registers h ht hok
  obtain ⟨-, -, -, -, -, hoffProt, -, hoffFet, -, -, hafter, hlast, -⟩ := s.params.layoutBounds
  have fetBit {k : Nat} {u : State} (hu : exec (.xbit (BitVec.ofNat 8 s.params.layoutB.offFet) k) s = .next u) :
      u.fcd.xr = if (d s.params.layoutB.offFet).getLsbD k then 1 else 0 := by
    have hoff := toNat_offset (a := s.params.layoutB.offFet) (by omega)
    rw [xr_of_exec hu (exec_xbit_inside h.1 (by omega) k), hoff]
  refine ⟨fun i u hi hu => ?_, fun u hu => hchg.trans (fetBit hu).symm, fun u hu => hdsg.trans (fetBit hu).symm,
    fun k u hk hu => ?_⟩
  · have hoff := toNat_offset (a := s.params.layoutB.offTemps + 2 * i) (by omega)
    rw [htemp i hi, xr_of_exec hu (exec_xk16_inside h.1 (by omega)), hoff]
  · have hoff := toNat_offset (a := s.params.layoutB.offProt) (by omega)
    rw [xr_of_exec hu (exec_xbit16_inside h.1 (by omega) k), hoff, hprot, getLsbD_unsigned_prot _ hk]

end Machine
end Sys2Proof

open Sys2Proof Sys2Proof.Machine

/-- Settles O54: each operation's value of the byte at its offset. -/
theorem extractByteValues : Obligations.ExtractByteValues := by
  intro s d off k h hw _
  simp only [List.forall_mem_cons]
  exact ⟨exec_xu8_inside h hw, exec_xs8_inside h hw, exec_xbit_inside h hw k, List.forall_mem_nil _⟩

/-- Settles O55: each operation's value of the word at its offset; the word's bits are those of its two bytes. -/
theorem extractWordValues : Obligations.ExtractWordValues := by
  intro s d off k h hw _
  simp only [List.forall_mem_cons]
  rw [← testBit_be16]
  exact ⟨exec_xu16_inside h hw, exec_xs16_inside h hw, exec_xbit16_inside h hw k, exec_xk16_inside h hw,
    List.forall_mem_nil _⟩

/-- Settles O56, by R200's tests in their order. -/
theorem extractFamilyRule : Obligations.ExtractFamilyRule := by
  intro i s off width hi hs hf
  obtain ⟨value, hexec⟩ := exec_extract hi
  split
  · next hv => exact (hexec s).trans (perform_extract_invalid hf hv value)
  · next hv =>
    rw [Bool.not_eq_false] at hv
    split
    · next hw =>
      obtain ⟨d, hd⟩ := Fcd.Inv.window hs hv
      exact exec_extract_inside ⟨hf, hv, hd⟩ hi hw
    · next hw => exact (hexec s).trans (perform_extract_outside hf hv hw value)

/-- Settles O57, by the vendor: decoder and extract operation read the same bytes of the window. -/
theorem decodersComposeExtracts : Obligations.DecodersComposeExtracts := by
  intro s hs hf
  constructor
  · intro t x y z ht hx hy hz hv hk
    obtain ⟨hlen, b, ha, hw⟩ := hs.readyA hf hv hk
    exact daVis_scales_extracts ha hw hlen ht hx hy hz
  · intro t ht hv hk hok
    obtain ⟨d, hd⟩ := hs.readyB hf hv hk
    exact dbHw_agrees_with_extracts hd ht hok

end

section
/-! Faults and the halted state (spec/60_exceptions.md R225 to R229, R236): which cause each effect raises, what a command word
leaves of a running and of a halted unit, then the obligations. -/

namespace Sys2Proof
namespace Machine

/-! ### The cause an effect raises -/

/-- The cause an effect raises, if it raises one. -/
def Effect.cause : Effect → Option Cause
  | .raise c => some c
  | .done _ _ => none
  | .unreceived => none

@[simp] theorem Effect.cause_raise (c : Cause) : (Effect.raise c).cause = some c := rfl

@[simp] theorem Effect.cause_done (f : Fcd) (d : Word) : (Effect.done f d).cause = none := rfl

theorem Effect.eq_raise_of_cause {e : Effect} {c : Cause} (h : e.cause = some c) : e = .raise c := by
  cases e <;> cases h
  rfl

theorem Effect.cause_eq_none_of_not_raise {e : Effect} (h : ∀ c, e ≠ .raise c) : e.cause = none :=
  Option.eq_none_iff_forall_ne_some.mpr fun c hc => h c (Effect.eq_raise_of_cause hc)

/-- An effect that finds its bytes and raises nothing is done. -/
theorem Effect.Completes.done_of_cause_none {e : Effect} (h : e.Completes) (hc : e.cause = none) : ∃ f d, e = .done f d := by
  cases e with
  | done f d => exact ⟨f, d, rfl⟩
  | raise c => cases hc
  | unreceived => exact absurd rfl h

/-- Reading raises nothing itself: a cause is that of what follows. -/
@[simp] theorem reading_cause {α : Type} (value : Option α) (next : α → Effect) :
    (reading value next).cause = value.bind fun v => (next v).cause := by
  cases value <;> rfl

@[simp] theorem ite_cause (p : Prop) [Decidable p] (e e' : Effect) :
    (if p then e else e').cause = if p then e.cause else e'.cause := apply_ite Effect.cause p e e'

/-- VALID is tested before anything else (R200). -/
@[simp] theorem whenValid_cause (f : Fcd) (e : Effect) :
    (whenValid f e).cause = if f.valid = false then some .notValidated else e.cause := by
  cases hv : f.valid <;> simp [hv]

/-- NotValidated is tested before VendorMismatch (R228). -/
theorem whenValidated_cause (v : Vendor) (f : Fcd) (e : Effect) :
    (whenValidated v f e).cause =
      if f.valid = false then some .notValidated else if f.vk = some v then e.cause else some .vendorMismatch := by
  simp [whenValidated]

/-! ### The causes of the operations (R225) -/

theorem pushByte_cause (byte : Byte) (f : Fcd) :
    (pushByte byte f).cause = if f.wp = 262 then some .bufferOverflow else none := ite_cause _ _ _

theorem readByte_cause (idx : Nat) (f : Fcd) : (readByte idx f).cause = if idx ≥ f.wp then some .badIndex else none := by
  simp [readByte]

theorem readRegister_cause (n : Byte) (f : Fcd) :
    (readRegister n f).cause = if undefinedRegister n.toNat then some .badRegister else none := by
  cases hr : f.register n.toNat with
  | none =>
    have hn : undefinedRegister n.toNat = true := by simpa [hr] using f.register_isSome n.toNat
    simp [readRegister, hr, hn]
  | some v =>
    have hn : undefinedRegister n.toNat = false := by simpa [hr] using f.register_isSome n.toNat
    simp [readRegister, hr, hn]

theorem encodeA_cause (p : Params) (addr cmd : Byte) (f : Fcd) :
    (encodeA p addr cmd f).cause = if f.wp > 8 then some .payloadTooLong else none := by
  simp [encodeA, Config.aMaxPayload]

theorem encodeB_cause (p : Params) (act : WireAction) (reg : Byte) (f : Fcd) :
    (encodeB p act reg f).cause = if f.wp > 255 then some .payloadTooLong else none := by
  simp [encodeB, Config.bMaxPayload]

theorem extractField_cause (off : Byte) (width : Nat) (value : Fcd → Nat → Option Int) (f : Fcd) :
    (extractField off width value f).cause = if f.valid = false then some .notValidated else none := by
  simp [extractField]

/-- There are two vendors (R25). -/
theorem Vendor.eq_or_eq {v other : Vendor} (hne : v ≠ other) (k : Vendor) : k = v ∨ k = other := by
  cases v <;> cases other <;> cases k <;> simp at hne ⊢

/-- With VALID = 1 one of the two vendors' checks passed (R25), so a decoder of vendor `v` meets the wrong vendor exactly when VK
is the `other` one. -/
theorem Fcd.Inv.whenValidated_cause {f : Fcd} (h : f.Inv) {v other : Vendor} (hne : v ≠ other) {e : Effect}
    (he : e.cause = none) :
    (whenValidated v f e).cause =
      if f.valid = false then some .notValidated else if f.vk = some other then some .vendorMismatch else none := by
  rw [Machine.whenValidated_cause, he]
  cases hv : f.valid with
  | false => rfl
  | true =>
    obtain ⟨k, hk⟩ := Option.ne_none_iff_exists'.mp (h.validated hv)
    obtain rfl | rfl := Vendor.eq_or_eq hne k
    · simp [hk, hne]
    · simp [hk, hne.symm]

/-- Under the invariant an operation raises the cause R225 gives it, and no other. -/
theorem effectOf_cause {f : Fcd} (h : f.Inv) (p : Params) (i : Instr) : (effectOf p i f).cause = faultCause i f := by
  cases i
  case nop | clr | srst | aclr | aadd => rfl
  case push byte => exact pushByte_cause byte f
  case rdb idx => exact readByte_cause idx f
  case rdr n => exact readRegister_cause n f
  case chkA => exact Effect.cause_eq_none_of_not_raise (checkA_not_raise f)
  case chkB => exact Effect.cause_eq_none_of_not_raise (checkB_not_raise f)
  case encA addr cmd => exact encodeA_cause p addr cmd f
  case encB act reg => exact encodeB_cause p act reg f
  case daVis | daMmv | daMmt | daStat | daCellv | daCellt | daBal | daFail | daMos =>
    refine h.whenValidated_cause (by decide) ?_
    simp [decodeVis, decodeMmv, decodeMmt, decodeStat, decodeCellv, decodeCellt, decodeBal, decodeFail, decodeMos]
  case dbHw | dbCell =>
    refine h.whenValidated_cause (by decide) ?_
    simp [decodeHw, decodeHwFields, decodeCells]
  all_goals exact extractField_cause _ _ _ f

/-! ### A running unit -/

/-- A done operation raises no FAULT. -/
theorem effectOf_done_running {p : Params} {i : Instr} {f g : Fcd} {d : Word} (he : effectOf p i f = .done g d)
    (hf : f.fault = false) : g.fault = false := by
  by_cases hi : i = .srst
  · subst hi
    cases he
    rfl
  · rw [((effectOf_done_frame he).faults hi).1, hf]

/-- A word that leaves a running unit with FAULT = 1 has set the two fault fields and nothing else (R226). -/
theorem present_faults {s t : State} {w : Word} (hs : s.fcd.fault = false) (h : present w s = .next t)
    (ht : t.fcd.fault = true) : ∃ c, t = s.answer (s.fcd.faulted c) 0 := by
  cases hd : decode w with
  | error e =>
    rw [present, hd] at h
    cases h
    exact ⟨.illegalOp, State.raiseFault_running hs _⟩
  | ok i =>
    rw [present_ok hd] at h
    obtain ⟨halted, -, -⟩ | ⟨-, g, d, he, rfl⟩ | ⟨-, c, -, rfl⟩ := exec_cases h
    · simp [hs] at halted
    · simp [effectOf_done_running he hs] at ht
    · exact ⟨c, State.raiseFault_running hs c⟩

/-! ### A halted unit -/

theorem exec_refused {i : Instr} {s : State} (hs : s.fcd.fault = true) (hi : worksHalted i = false) :
    exec i s = .next (s.answer s.fcd 0) := by
  rw [exec_perform hi, State.perform_halted hs]

/-- No operation but SRST changes a halted unit (R227, R229). -/
theorem exec_halted {i : Instr} {s t : State} (hs : s.fcd.fault = true) (hi : i ≠ .srst) (h : exec i s = .next t) :
    t.fcd = s.fcd := by
  obtain ⟨-, -, rfl⟩ | ⟨hw, g, d, he, rfl⟩ | ⟨-, c, -, rfl⟩ := exec_cases h
  · rfl
  · have frame := effectOf_done_frame he
    replace hw := hw hs
    cases i
    case nop | rdr => exact frame
    case srst => exact absurd rfl hi
    all_goals cases hw
  · exact Fcd.raise_of_halted hs c

/-- The word of SRST resets the unit, whatever state it is in (R107). -/
theorem present_srst (s : State) : present 0x05000000 s = .next (s.answer Fcd.reset 0) := rfl

/-- No word but that of SRST changes a halted unit (R229). -/
theorem present_halted {s t : State} {w : Word} (hs : s.fcd.fault = true) (hw : w ≠ 0x05000000)
    (h : present w s = .next t) : t.fcd = s.fcd := by
  cases hd : decode w with
  | error e =>
    rw [present, hd] at h
    cases h
    exact Fcd.raise_of_halted hs _
  | ok i =>
    rw [present_ok hd] at h
    have hi : i ≠ .srst := by
      rintro rfl
      exact hw (encodeInvertsDecode w .srst hd).2.symm
    exact exec_halted hs hi h

end Machine
end Sys2Proof

open Sys2Proof Sys2Proof.Machine

/-- Settles O16, by the host's next event. -/
theorem onlyResetLeavesHaltedState : Obligations.OnlyResetLeavesHaltedState := by
  intro s t hs h
  match hi : s.inbox with
  | [] =>
    rw [step, hi] at h
    cases h
    rfl
  | .resetPin :: rest =>
    rw [step, hi] at h
    cases h
    rfl
  | .command w :: rest =>
    rw [step_command hi] at h
    by_cases hw : w = 0x05000000
    · subst hw
      rw [present_srst] at h
      cases h
      rfl
    · rw [if_neg (by simpa using hw)]
      exact present_halted (s := { s with inbox := rest }) hs hw h

/-- Settles O17: a running unit that faults has raised; in a halted one only SRST, which clears FAULT, has an effect. -/
theorem faultsArePrecise : Obligations.FaultsArePrecise := by
  intro s t w rest hi h ht
  rw [step_command hi] at h
  refine ⟨fun hs => present_faults (s := { s with inbox := rest }) hs h ht, fun hs => ?_⟩
  refine present_halted (s := { s with inbox := rest }) hs ?_ h
  rintro rfl
  rw [present_srst] at h
  cases h
  cases ht

/-- Settles O18: the table's cause is the one the operation's effect raises, and without one the effect is done. -/
theorem faultCausesAreExact : Obligations.FaultCausesAreExact := by
  intro s w rest hi hinv hs
  rw [step_command hi]
  refine ⟨fun hw => ?_, fun i hd => ?_⟩
  · rw [present_illegal hw]
    exact congrArg _ (State.raiseFault_running (s := { s with inbox := rest }) hs _)
  · rw [present_ok hd]
    have hcause := effectOf_cause hinv s.params i
    split
    · next c hc => exact exec_of_raise hs (Effect.eq_raise_of_cause (hcause.trans hc))
    · next hc =>
      obtain ⟨g, d, he⟩ := (effectOf_completes hinv s.params i).done_of_cause_none (hcause.trans hc)
      exact ⟨_, exec_of_done hs he, effectOf_done_running he hs⟩

/-- Settles O7. -/
theorem quietStepAndPinReset : Obligations.QuietStepAndPinReset := by
  intro s
  constructor
  · intro hi
    rw [step, hi]
    rfl
  · intro rest hi
    rw [step, hi]
    rfl

/-- Settles O15. -/
theorem haltedUnitRefusesOperations : Obligations.HaltedUnitRefusesOperations := by
  intro i s hs hi
  rw [exec_refused hs hi, State.answer_self, hs]

end
